-- ==== Sys2Proof/Word.lean ====
section
/-! DEFINITION. The two bit-vector widths of the block and the one-bit words register words are built of. -/

namespace Sys2Proof

/-- A colour channel, an operation selector or one byte of a descriptor: 8 bits (R7, `CH_BITS`). -/
abbrev Byte := BitVec 8

/-- A FIFO word, a frame word or a register word: 32 bits (R7, `WORD`). -/
abbrev Word := BitVec 32

/-- A colour word: 24 bits (R23, R92). -/
abbrev CWord := BitVec 24

/-- A symbol: 3 bits, bit 2 sent first (R24, R93). -/
abbrev Sym := BitVec 3

/-- The mask `1 << k` of one bit position (R101, `M_x`). -/
def mask (k : Nat) : Word := 1#32 <<< k

/-- The word whose bit `k` is `b` and whose other bits are 0. -/
def bitWord (k : Nat) (b : Bool) : Word := if b then mask k else 0#32

end Sys2Proof
end

