-- ==== Sys2Proof/Config.lean ====
section
/-! DEFINITION. What is fixed for one machine (the parameters of R8 and R47) and the free values: names of
channels and registers, the register layout, the configuration record and its defaults, the opaque constants
whose values nothing in Lean knows. -/

namespace Sys2Proof

/-- The two PWM channels (R7: `NCH` = 2, channel ids 1 and 2). -/
inductive ChanId where
  | ch1 | ch2
  deriving DecidableEq, Repr

/-- The two register blocks of the block's register space (R61). -/
inductive Block where
  | pwm | cm
  deriving DecidableEq, Repr

/-- The nine registers (R61, R100). -/
inductive Reg where
  | ctl | sta | rng (c : ChanId) | dat (c : ChanId) | fif | cmctl | cmdiv
  deriving DecidableEq, Repr

/-- The brightness factor as a rational number: numerator over `denPred + 1`, so that no representation
has a zero denominator (R22, D6). A value outside [0, 1] can be written down and is what E1 reports. -/
structure Brightness where
  num     : Int
  denPred : Nat
  deriving DecidableEq, Repr

/-- Bit positions of one channel's seven control fields (R101). -/
structure CtlBits where
  pwen : Nat
  mode : Nat
  rptl : Nat
  sbit : Nat
  pola : Nat
  usef : Nat
  msen : Nat
  deriving DecidableEq, Repr

/-- Bit positions of the nine status fields (R102). -/
structure StaBits where
  full  : Nat
  empt  : Nat
  werr  : Nat
  rerr  : Nat
  gapo1 : Nat
  gapo2 : Nat
  berr  : Nat
  sta1  : Nat
  sta2  : Nat
  deriving DecidableEq, Repr

/-- The clock manager's write password: its field's lowest bit and its 8-bit value (R104, `CM_PASSWD`). -/
structure Password where
  lsb   : Nat
  value : Byte
  deriving DecidableEq, Repr

/-- `LAYOUT` (R104): the bases of the two blocks, the byte offset of every register in its block and the bit
position of every field. -/
structure Layout where
  /-- the peripheral base, none where it is left open (R104) -/
  base     : Option Nat
  /-- the PWM block's base above the peripheral base -/
  pwmBase  : Nat
  /-- the clock-manager block's base above the peripheral base -/
  cmBase   : Nat
  offCtl   : Nat
  offSta   : Nat
  offRng1  : Nat
  offDat1  : Nat
  offFif   : Nat
  offRng2  : Nat
  offDat2  : Nat
  offCmctl : Nat
  offCmdiv : Nat
  ctl1     : CtlBits
  ctl2     : CtlBits
  clrf     : Nat
  sta      : StaBits
  cmEnab   : Nat
  cmBusy   : Nat
  diviLsb  : Nat
  pass     : Option Password
  deriving DecidableEq, Repr

/-- `BERR_ORACLE` (R8, R148, D11): the register writes after which the hardware may raise the bus-error flag. -/
inductive BerrOracle where
  | never
  | after (regs : List Reg)
  deriving DecidableEq, Repr

/-- One threshold of `SCALE_FN` at one channel value: the brightnesses that reach `point`, or that lie above it
where `above` is set, have passed it. -/
structure ScaleCut where
  point : Brightness
  above : Bool
  deriving DecidableEq, Repr

/-- `SCALE_FN` at one channel value: the result at `b` is the number of thresholds `b` has passed. Every monotone
function of `b` with natural values and rational thresholds is of this form. -/
structure ScaleRow where
  ch   : Byte
  cuts : List ScaleCut
  deriving DecidableEq, Repr

/-- `SCALE_FN` (R8, R181, D6), a parameter; log entry 17. -/
inductive ScaleFn where
  /-- the exact rational product truncated, the default of D6 -/
  | exact
  /-- the rows given, and the exact product at every channel value that has none -/
  | table (rows : List ScaleRow)
  /-- a function of which only the laws of R181 are known (`Config.freeScale`) -/
  | lawful
  deriving DecidableEq, Repr

/-- The parameters of a run (R8, R47). Every step leaves them as they are. `F_SRC` in hertz and `T_POLL` in
nanoseconds are open, and no rule's result depends on a time (R274); none says that no value is given. -/
structure Config where
  fifoDepth     : Nat
  layout        : Layout
  pollLimitClk  : Option Nat
  pollLimitBerr : Option Nat
  pollLimitFull : Option Nat
  berrOracle    : BerrOracle
  disableAborts : Bool
  scaleFn       : ScaleFn
  /-- serializer steps outside `WSCFG` are refused (R12, D3); false lifts the refusal, and they run by the rules the
  spec supplies (log entry 6) -/
  wsOnly        : Bool
  fSrc          : Option Nat
  tPoll         : Option Nat
  deriving DecidableEq, Repr

/-- The default layout of R104. PRESUMED: general knowledge of one SoC family, not in the source (G1);
log entry 3. -/
def Layout.default : Layout :=
  { base := none, pwmBase := 0x20C000, cmBase := 0x101000,
    offCtl := 0x00, offSta := 0x04, offRng1 := 0x10, offDat1 := 0x14, offFif := 0x18,
    offRng2 := 0x20, offDat2 := 0x24, offCmctl := 0xA0, offCmdiv := 0xA4,
    ctl1 := { pwen := 0, mode := 1, rptl := 2, sbit := 3, pola := 4, usef := 5, msen := 7 },
    ctl2 := { pwen := 8, mode := 9, rptl := 10, sbit := 11, pola := 12, usef := 13, msen := 15 },
    clrf := 6,
    sta := { full := 0, empt := 1, werr := 2, rerr := 3, gapo1 := 4, gapo2 := 5, berr := 8, sta1 := 9, sta2 := 10 },
    cmEnab := 4, cmBusy := 7, diviLsb := 12, pass := some { lsb := 24, value := 0x5A#8 } }

/-- The default configuration: the defaults of R8, and a FIFO of 8 words, for which R8 gives no default.
PRESUMED for the depth and the layout (D4, G13, G1); log entry 3. Serializer steps
outside `WSCFG` are refused, as R12 and D3 say. -/
def Config.default : Config :=
  { fifoDepth := 8, layout := Layout.default, pollLimitClk := none, pollLimitBerr := none,
    pollLimitFull := none, berrOracle := .never, disableAborts := true, scaleFn := .exact,
    wsOnly := true, fSrc := none, tPoll := none }

/-- The free 32-bit values: what the `n`-th read of the FIFO register answers (R130, U4). No value of it is
known; log entry 9. -/
opaque Config.freeWord : Nat → Word

/-- The free levels: an output level the spec leaves open, of a disabled inverted line (U6) or of a channel
in Balance mode (U7). No value of it is known; log entries 7 and 8. -/
opaque Config.freeLevel : Nat → Bool

/-- The free bits: what `BITSEL` answers past the last bit of the colour word, where R183 states no result. No value
of it is known; log entry 33. -/
opaque Config.freeBit : Nat → Bool

/-- What R181 lets a model assume of `SCALE_FN`: "the laws that hold under any sensible arithmetic". -/
structure ScaleLaws (f : Byte → Brightness → Byte) : Prop where
  zero : ∀ ch b, b.num = 0 → f ch b = 0#8
  one : ∀ ch (b : Brightness), b.num = (b.denPred : Int) + 1 → f ch b = ch
  black : ∀ b, 0 ≤ b.num → b.num ≤ (b.denPred : Int) + 1 → f 0#8 b = 0#8
  le : ∀ ch b, 0 ≤ b.num → b.num ≤ (b.denPred : Int) + 1 → f ch b ≤ ch
  mono : ∀ ch ch' b b', 0 ≤ b.num → b.num ≤ (b.denPred : Int) + 1 → 0 ≤ b'.num → b'.num ≤ (b'.denPred : Int) + 1 →
    ch ≤ ch' → b.num * ((b'.denPred : Int) + 1) ≤ b'.num * ((b.denPred : Int) + 1) → f ch b ≤ f ch' b'

/-- The free `SCALE_FN`: some function that obeys the laws, or none, where the exact product stands in for it. Nothing
else of it is known; log entry 17. -/
opaque Config.freeScale : Option { f : Byte → Brightness → Byte // ScaleLaws f }

end Sys2Proof
end

