-- ==== Sys2Proof/Syntax.lean ====
section
/-! DEFINITION. The operations of the block as data: the operand types of R111 and `Instr`, one constructor per
row of spec/opcode_table.json. -/

namespace Sys2Proof

/-- One pixel: three unsigned 8-bit channel values (R21, R91). -/
structure Pixel where
  r : Byte
  g : Byte
  b : Byte
  deriving DecidableEq, Repr

/-- A channel's mode (R30). -/
inductive Mode where
  | balance | serializer
  deriving DecidableEq, Repr

/-- The three placement forms (R66, R112). -/
inductive Form where
  | A | B | C
  deriving DecidableEq, Repr

/-- One channel's seven control fields (R30). -/
structure CtlChan where
  pwen : Bool
  mode : Mode
  rptl : Bool
  sbit : Bool
  pola : Bool
  usef : Bool
  msen : Bool
  deriving DecidableEq, Repr

/-- The fields of a control word (R101): both channels' and the clear-FIFO bit. -/
structure CtlFields where
  c1   : CtlChan
  c2   : CtlChan
  clrf : Bool
  deriving DecidableEq, Repr

/-- The fields of a status word (R102). -/
structure StaFields where
  full  : Bool
  empt  : Bool
  werr  : Bool
  rerr  : Bool
  gapo1 : Bool
  gapo2 : Bool
  berr  : Bool
  sta1  : Bool
  sta2  : Bool
  deriving DecidableEq, Repr

/-- An operation of the block (R110), a placement form (R112) or a fixed-width format (R90): one constructor
per row of spec/opcode_table.json. -/
inductive Instr where
  -- family REG: register transactions (R121 to R137)
  | rdCtl
  | wrCtl (v : Word)
  | rdSta
  | wrSta (v : Word)
  | rdRng (c : ChanId)
  | wrRng (c : ChanId) (v : Word)
  | rdDat (c : ChanId)
  | wrDat (c : ChanId) (v : Word)
  | wrFif (v : Word)
  | rdFif
  | rdCmctl
  | wrCmctl (v : Word)
  | rdCmdiv
  | wrCmdiv (v : Word)
  | unmapped (blk : Block) (off : Nat)
  -- family AGT: steps of the hardware agents (R138, R147, R148)
  | serTick (c : ChanId)
  | cmSettle
  | busErr
  -- family HOST: host sequences (R160 to R171)
  | configure (c : Nat) (range : Word) (divisor : Nat) (mode : Mode) (useFifo : Bool)
  | pushWord (v : Word)
  | pushFifo (words : List Word)
  | enable (c : ChanId)
  | disable (c : ChanId)
  | clearFifo
  -- family ENC: the encoder (R181 to R200)
  | scale (ch : Byte) (b : Brightness)
  | colorWord (r g b : Byte)
  | bitSel (cw : CWord) (p : Nat)
  | symbol (bit : Bool)
  | frameLen (n : Nat)
  | locate (g : Nat)
  | clearFrame (fw : Nat)
  | place (g : Nat) (sym : Sym)
  | encPixel (i : Nat) (px : Pixel) (b : Brightness)
  | encodeFrame (pixels : List Pixel) (b : Brightness)
  | symDec (sym : Sym)
  | decodeFrame (w : List Word) (n : Nat)
  -- family FRM: the frame cycle (R210 to R214)
  | pushFrame (c : ChanId) (pixels : List Pixel) (b : Brightness)
  | hold (c : ChanId) (nbits : Nat)
  | latchWait
  -- the placement forms (R189 to R191)
  | placeA (w : Nat) (off : Nat) (sym : Sym)
  | placeB (w : Nat) (sym : Sym)
  | placeC (w : Nat) (sym : Sym)
  -- the fixed-width formats (R92, R93, R101 to R106)
  | sym0
  | sym1
  | sym (bit : Bool)
  | cw (g r b : Byte)
  | ctlw (f : CtlFields)
  | staw (f : StaFields)
  | rngw (v : Word)
  | datw (v : Word)
  | fifw (v : Word)
  | cmctlw (p : Byte) (busy enab : Bool)
  | cmdivw (p : Byte) (divi : BitVec 12)
  deriving DecidableEq, Repr

/-- The agents that take steps (R6). -/
inductive Agent where
  | host
  | ser (c : ChanId)
  | cm
  | bus
  deriving DecidableEq, Repr

end Sys2Proof
end

