-- ==== Sys2Proof/WellFormed.lean ====
section
/-! DEFINITION. Which operations have a descriptor: those whose operands fit the fields of the spec's encodings. The
decoder gives well-formed operations only. -/

namespace Sys2Proof

/-- The offset of form A is 0 to 29 (R189), which the five low bits of `g` in the form's descriptor cannot exceed
(R112). No other operand is ill-formed: an operation whose rule states a domain runs, or stops by its own name,
outside it (log entry 20). -/
def Instr.wf : Instr → Bool
  | .placeA _ off _ => decide (off ≤ 29)
  | .rdCtl | .wrCtl _ | .rdSta | .wrSta _ | .rdRng _ | .wrRng _ _ | .rdDat _ | .wrDat _ _ | .wrFif _ | .rdFif
  | .rdCmctl | .wrCmctl _ | .rdCmdiv | .wrCmdiv _ | .unmapped _ _ | .serTick _ | .cmSettle | .busErr
  | .configure _ _ _ _ _ | .pushWord _ | .pushFifo _ | .enable _ | .disable _ | .clearFifo | .scale _ _
  | .colorWord _ _ _ | .bitSel _ _ | .symbol _ | .frameLen _ | .locate _ | .clearFrame _ | .place _ _
  | .encPixel _ _ _ | .encodeFrame _ _ | .symDec _ | .decodeFrame _ _
  | .pushFrame _ _ _ | .hold _ _ | .latchWait | .placeB _ _ | .placeC _ _ | .sym0 | .sym1 | .sym _ | .cw _ _ _
  | .ctlw _ | .staw _ | .rngw _ | .datw _ | .fifw _ | .cmctlw _ _ _ | .cmdivw _ _ => true

end Sys2Proof
end

