-- ==== Sys2Proof/Decode.lean ====
section
/-! DEFINITION. The register word formats under a layout, the byte form of an operation descriptor, the decoder
(total on any bytes, rejecting by name), the encoder, and the table's own numbering of a word. The selector
byte, the forms' five bits and the fixed-width patterns are the spec's (R110, R112, R93, R92, R101 to R106); the
bytes of the operands are the model's (R111: "The descriptors have no binary form in any source"), log entry 1. -/

namespace Sys2Proof

/-! ### Register word formats (R101 to R106) -/

def Mode.toBit : Mode → Bool
  | .balance => false
  | .serializer => true

/-- 0 Balance, 1 Serializer (R30). -/
def Mode.ofBit (b : Bool) : Mode := if b then .serializer else .balance

/-- One channel's part of a control word (R101). -/
def CtlBits.word (p : CtlBits) (f : CtlChan) : Word :=
  bitWord p.pwen f.pwen ||| bitWord p.mode f.mode.toBit ||| bitWord p.rptl f.rptl ||| bitWord p.sbit f.sbit |||
  bitWord p.pola f.pola ||| bitWord p.usef f.usef ||| bitWord p.msen f.msen

/-- One channel's fields of a control word (R101). -/
def CtlBits.fields (p : CtlBits) (v : Word) : CtlChan :=
  { pwen := v.getLsbD p.pwen, mode := Mode.ofBit (v.getLsbD p.mode), rptl := v.getLsbD p.rptl,
    sbit := v.getLsbD p.sbit, pola := v.getLsbD p.pola, usef := v.getLsbD p.usef, msen := v.getLsbD p.msen }

/-- The bit positions of a channel's control fields. -/
def Layout.ctlBits (l : Layout) : ChanId → CtlBits
  | .ch1 => l.ctl1
  | .ch2 => l.ctl2

/-- `CTLW` from its fields; reserved bits are 0 (R101, R108). -/
def Layout.ctlWord (l : Layout) (f : CtlFields) : Word :=
  l.ctl1.word f.c1 ||| l.ctl2.word f.c2 ||| bitWord l.clrf f.clrf

/-- The fields of a `CTLW`; reserved bits are ignored (R101, R108). -/
def Layout.ctlFields (l : Layout) (v : Word) : CtlFields :=
  { c1 := l.ctl1.fields v, c2 := l.ctl2.fields v, clrf := v.getLsbD l.clrf }

/-- `STAW` from its fields (R102). -/
def Layout.staWord (l : Layout) (f : StaFields) : Word :=
  bitWord l.sta.full f.full ||| bitWord l.sta.empt f.empt ||| bitWord l.sta.werr f.werr |||
  bitWord l.sta.rerr f.rerr ||| bitWord l.sta.gapo1 f.gapo1 ||| bitWord l.sta.gapo2 f.gapo2 |||
  bitWord l.sta.berr f.berr ||| bitWord l.sta.sta1 f.sta1 ||| bitWord l.sta.sta2 f.sta2

/-- The fields of a `STAW` (R102). -/
def Layout.staFields (l : Layout) (v : Word) : StaFields :=
  { full := v.getLsbD l.sta.full, empt := v.getLsbD l.sta.empt, werr := v.getLsbD l.sta.werr,
    rerr := v.getLsbD l.sta.rerr, gapo1 := v.getLsbD l.sta.gapo1, gapo2 := v.getLsbD l.sta.gapo2,
    berr := v.getLsbD l.sta.berr, sta1 := v.getLsbD l.sta.sta1, sta2 := v.getLsbD l.sta.sta2 }

/-- A password value in the layout's password field, or 0 when the layout has none (R104, R160). -/
def Layout.passField (l : Layout) (p : Byte) : Word :=
  match l.pass with
  | none => 0#32
  | some pw => p.setWidth 32 <<< pw.lsb

/-- The password field of a word, or 0 when the layout has none. -/
def Layout.passOf (l : Layout) (v : Word) : Byte :=
  match l.pass with
  | none => 0#8
  | some pw => v.extractLsb' pw.lsb 8

/-- `CMCTLW` from its fields (R105). -/
def Layout.cmctlWord (l : Layout) (p : Byte) (busy enab : Bool) : Word :=
  l.passField p ||| bitWord l.cmBusy busy ||| bitWord l.cmEnab enab

/-- The divisor field of a word: 12 bits from the field's lowest bit (R106). -/
def Layout.diviOf (l : Layout) (v : Word) : BitVec 12 := v.extractLsb' l.diviLsb 12

/-- `CMDIVW` from its fields (R106); the fractional bits are 0. -/
def Layout.cmdivWord (l : Layout) (p : Byte) (divi : BitVec 12) : Word :=
  l.passField p ||| (divi.setWidth 32 <<< l.diviLsb)

/-! ### Data formats (R92, R93) -/

/-- `SYM`: `1b0` (R93). -/
def symbolOf (b : Bool) : Sym := if b then 0b110#3 else 0b100#3

/-- `CW`: green over red over blue (R92, R182). -/
def colorWordOf (r g b : Byte) : CWord :=
  (g.setWidth 24 <<< 16) ||| (r.setWidth 24 <<< 8) ||| b.setWidth 24

/-! ### Reading bytes -/

/-- Why a descriptor is rejected. -/
inductive DecodeError where
  /-- the bytes end inside the descriptor -/
  | truncated
  /-- a selector that names no operation (R110, U9) -/
  | unknownOpsel (b : Byte)
  /-- a channel byte that names neither channel (U1) -/
  | badChannel (b : Byte)
  /-- a byte that is no Boolean, mode, block or sign -/
  | badFlag (b : Byte)
  /-- a byte above 7 where a 3-bit value stands, or a negative zero -/
  | badOperand
  /-- a 3-bit pattern that is no symbol of the row's pattern (R109) -/
  | badPattern
  /-- a 1 in a bit the format fixes to 0 (R108) -/
  | reservedBits
  deriving DecidableEq, Repr

/-- A reader takes its value from the front of the bytes and gives the rest back. -/
abbrev Reader (α : Type) := List Byte → Except DecodeError (α × List Byte)

/-- Read one value and go on with it. -/
def Reader.andThen {α β : Type} (p : Reader α) (f : α → Reader β) : Reader β := fun bs =>
  match p bs with
  | .error e => .error e
  | .ok (a, rest) => f a rest

/-- A reader that takes no byte. -/
def Reader.give {α : Type} (a : α) : Reader α := fun bs => .ok (a, bs)

/-- A reader that rejects. -/
def Reader.reject {α : Type} (e : DecodeError) : Reader α := fun _ => .error e

def getByte : Reader Byte
  | [] => .error .truncated
  | b :: rest => .ok (b, rest)

/-- Four bytes, least significant first. -/
def getWord : Reader Word
  | b0 :: b1 :: b2 :: b3 :: rest => .ok (b3 ++ b2 ++ b1 ++ b0, rest)
  | _ => .error .truncated

/-- Three bytes, least significant first. -/
def getCWord : Reader CWord
  | b0 :: b1 :: b2 :: rest => .ok (b2 ++ b1 ++ b0, rest)
  | _ => .error .truncated

/-- A natural number in groups of seven bits, least significant group first; a byte of 128 or more is
followed by another group. -/
def getNat : Reader Nat
  | [] => .error .truncated
  | b :: rest =>
    if b.toNat < 128 then .ok (b.toNat, rest)
    else match getNat rest with
      | .error e => .error e
      | .ok (n, rest') => .ok (b.toNat - 128 + 128 * n, rest')

def getBool : Reader Bool := getByte.andThen fun b =>
  match b.toNat with
  | 0 => .give false
  | 1 => .give true
  | _ => .reject (.badFlag b)

/-- A channel byte: 0 names channel 1 and 1 names channel 2. -/
def getChan : Reader ChanId := getByte.andThen fun b =>
  match b.toNat with
  | 0 => .give .ch1
  | 1 => .give .ch2
  | _ => .reject (.badChannel b)

def getMode : Reader Mode := getBool.andThen fun b => .give (Mode.ofBit b)

def getBlock : Reader Block := getBool.andThen fun b => .give (if b then .cm else .pwm)

def getSym : Reader Sym := getByte.andThen fun b =>
  if b.toNat < 8 then .give (b.setWidth 3) else .reject .badOperand

/-- A sign byte (1 for negative) and a magnitude; zero has one form. -/
def getInt : Reader Int := getBool.andThen fun neg => getNat.andThen fun n =>
  if neg then (if n = 0 then .reject .badOperand else .give (-(n : Int))) else .give (n : Int)

def getBrightness : Reader Brightness :=
  getInt.andThen fun num => getNat.andThen fun den => .give { num := num, denPred := den }

def getPixel : Reader Pixel :=
  getByte.andThen fun r => getByte.andThen fun g => getByte.andThen fun b => .give { r := r, g := g, b := b }

/-- `n` values in a row. -/
def getMany {α : Type} (p : Reader α) : Nat → Reader (List α)
  | 0 => .give []
  | n + 1 => p.andThen fun a => (getMany p n).andThen fun as => .give (a :: as)

/-- A count and that many values. -/
def getList {α : Type} (p : Reader α) : Reader (List α) := getNat.andThen fun n => getMany p n

/-! ### Writing bytes -/

def putWord (v : Word) : List Byte :=
  [v.extractLsb' 0 8, v.extractLsb' 8 8, v.extractLsb' 16 8, v.extractLsb' 24 8]

def putCWord (v : CWord) : List Byte := [v.extractLsb' 0 8, v.extractLsb' 8 8, v.extractLsb' 16 8]

/-- `putNat` with at most `fuel + 1` groups. -/
def putNatGroups : Nat → Nat → List Byte
  | 0, n => [BitVec.ofNat 8 (n % 128)]
  | fuel + 1, n =>
    if n < 128 then [BitVec.ofNat 8 n] else BitVec.ofNat 8 (n % 128 + 128) :: putNatGroups fuel (n / 128)

def putNat (n : Nat) : List Byte := putNatGroups n n

def putBool (b : Bool) : List Byte := [if b then 1#8 else 0#8]

def putChan : ChanId → List Byte
  | .ch1 => [0#8]
  | .ch2 => [1#8]

def putMode (m : Mode) : List Byte := putBool m.toBit

def putBlock : Block → List Byte
  | .pwm => putBool false
  | .cm => putBool true

def putSym (s : Sym) : List Byte := [s.setWidth 8]

def putInt (x : Int) : List Byte := putBool (decide (x < 0)) ++ putNat x.natAbs

def putBrightness (b : Brightness) : List Byte := putInt b.num ++ putNat b.denPred

def putPixel (px : Pixel) : List Byte := [px.r, px.g, px.b]

def putList {α : Type} (f : α → List Byte) (xs : List α) : List Byte := putNat xs.length ++ xs.flatMap f

/-! ### Descriptors -/

/-- Which of the table's encodings a descriptor's bytes are in: an operation (its selector byte first), a
placement form (`g` first, whose low five bits choose the form), or one of the fixed-width formats. The table's
`format` column, with the row `SYM` (`1b0`) apart from the rows `SYM0` and `SYM1` whose words it covers. -/
inductive Space where
  | op | placeForm | symConst | symBit | cw | ctlw | staw | rngw | datw | fifw | cmctlw | cmdivw
  deriving DecidableEq, Repr

/-- The operands of the operation a selector names (R110). -/
def readOperands (opsel : Byte) : Reader Instr :=
  match opsel.toNat with
  | 0x01 => .give .rdCtl
  | 0x02 => getWord.andThen fun v => .give (.wrCtl v)
  | 0x03 => .give .rdSta
  | 0x04 => getWord.andThen fun v => .give (.wrSta v)
  | 0x05 => getChan.andThen fun c => .give (.rdRng c)
  | 0x06 => getChan.andThen fun c => getWord.andThen fun v => .give (.wrRng c v)
  | 0x07 => getChan.andThen fun c => .give (.rdDat c)
  | 0x08 => getChan.andThen fun c => getWord.andThen fun v => .give (.wrDat c v)
  | 0x09 => getWord.andThen fun v => .give (.wrFif v)
  | 0x0A => .give .rdFif
  | 0x0B => .give .rdCmctl
  | 0x0C => getWord.andThen fun v => .give (.wrCmctl v)
  | 0x0D => .give .rdCmdiv
  | 0x0E => getWord.andThen fun v => .give (.wrCmdiv v)
  | 0x0F => getBlock.andThen fun b => getNat.andThen fun off => .give (.unmapped b off)
  | 0x10 => getChan.andThen fun c => .give (.serTick c)
  | 0x11 => .give .cmSettle
  | 0x12 => .give .busErr
  | 0x20 => getNat.andThen fun c => getWord.andThen fun range => getNat.andThen fun divisor =>
      getMode.andThen fun mode => getBool.andThen fun uf => .give (.configure c range divisor mode uf)
  | 0x21 => getWord.andThen fun v => .give (.pushWord v)
  | 0x22 => (getList getWord).andThen fun ws => .give (.pushFifo ws)
  | 0x23 => getChan.andThen fun c => .give (.enable c)
  | 0x24 => getChan.andThen fun c => .give (.disable c)
  | 0x25 => .give .clearFifo
  | 0x30 => getByte.andThen fun ch => getBrightness.andThen fun b => .give (.scale ch b)
  | 0x31 => getPixel.andThen fun px => .give (.colorWord px.r px.g px.b)
  | 0x32 => getCWord.andThen fun cw => getNat.andThen fun p => .give (.bitSel cw p)
  | 0x33 => getBool.andThen fun b => .give (.symbol b)
  | 0x34 => getNat.andThen fun n => .give (.frameLen n)
  | 0x35 => getNat.andThen fun g => .give (.locate g)
  | 0x36 => getNat.andThen fun fw => .give (.clearFrame fw)
  | 0x37 => getNat.andThen fun g => getSym.andThen fun s => .give (.place g s)
  | 0x38 => getNat.andThen fun i => getPixel.andThen fun px => getBrightness.andThen fun b => .give (.encPixel i px b)
  | 0x39 => (getList getPixel).andThen fun pxs => getBrightness.andThen fun b => .give (.encodeFrame pxs b)
  | 0x3A => getSym.andThen fun s => .give (.symDec s)
  | 0x3B => (getList getWord).andThen fun w => getNat.andThen fun n => .give (.decodeFrame w n)
  | 0x40 => getChan.andThen fun c => (getList getPixel).andThen fun pxs => getBrightness.andThen fun b =>
      .give (.pushFrame c pxs b)
  | 0x41 => getChan.andThen fun c => getNat.andThen fun n => .give (.hold c n)
  | 0x42 => .give .latchWait
  | _ => .reject (.unknownOpsel opsel)

/-- The placement form the low five bits of `g` select (R112): 30 is B, 31 is C, any other value A, whose
offset is 29 less them (R66). -/
def placeFormOf (g : Nat) (s : Sym) : Instr :=
  if g % 32 = 30 then .placeB (g / 32) s
  else if g % 32 = 31 then .placeC (g / 32) s
  else .placeA (g / 32) (29 - g % 32) s

/-- A control word of the default pattern, its fixed bits 0 (R101). -/
def readCtlw : Reader Instr := getWord.andThen fun v =>
  if Layout.default.ctlWord (Layout.default.ctlFields v) = v then .give (.ctlw (Layout.default.ctlFields v))
  else .reject .reservedBits

/-- A status word of the default pattern, its fixed bits 0 (R102). -/
def readStaw : Reader Instr := getWord.andThen fun v =>
  if Layout.default.staWord (Layout.default.staFields v) = v then .give (.staw (Layout.default.staFields v))
  else .reject .reservedBits

/-- A clock-manager control word of the default pattern (R105). -/
def readCmctlw : Reader Instr := getWord.andThen fun v =>
  let p := Layout.default.passOf v
  let busy := v.getLsbD Layout.default.cmBusy
  let enab := v.getLsbD Layout.default.cmEnab
  if Layout.default.cmctlWord p busy enab = v then .give (.cmctlw p busy enab) else .reject .reservedBits

/-- A clock-manager divisor word of the default pattern (R106). -/
def readCmdivw : Reader Instr := getWord.andThen fun v =>
  let p := Layout.default.passOf v
  let d := Layout.default.diviOf v
  if Layout.default.cmdivWord p d = v then .give (.cmdivw p d) else .reject .reservedBits

/-- One descriptor's reader. -/
def readInstr : Space → Reader Instr
  | .op => getByte.andThen readOperands
  | .placeForm => getNat.andThen fun g => getSym.andThen fun s => .give (placeFormOf g s)
  | .symConst => getSym.andThen fun s =>
      if s = 0b100#3 then .give .sym0 else if s = 0b110#3 then .give .sym1 else .reject .badPattern
  | .symBit => getSym.andThen fun s =>
      if s = 0b100#3 then .give (.sym false) else if s = 0b110#3 then .give (.sym true) else .reject .badPattern
  | .cw => getCWord.andThen fun v => .give (.cw (v.extractLsb' 16 8) (v.extractLsb' 8 8) (v.extractLsb' 0 8))
  | .ctlw => readCtlw
  | .staw => readStaw
  | .rngw => getWord.andThen fun v => .give (.rngw v)
  | .datw => getWord.andThen fun v => .give (.datw v)
  | .fifw => getWord.andThen fun v => .give (.fifw v)
  | .cmctlw => readCmctlw
  | .cmdivw => readCmdivw

/-- The decoder: the operation at the front of the bytes. Bytes after it are not looked at. -/
def decode (sp : Space) (bs : List Byte) : Except DecodeError Instr :=
  match readInstr sp bs with
  | .error e => .error e
  | .ok (i, _) => .ok i

/-- The encoder: the space and the bytes of an operation's descriptor. -/
def encode : Instr → Space × List Byte
  | .rdCtl => (.op, [0x01#8])
  | .wrCtl v => (.op, 0x02#8 :: putWord v)
  | .rdSta => (.op, [0x03#8])
  | .wrSta v => (.op, 0x04#8 :: putWord v)
  | .rdRng c => (.op, 0x05#8 :: putChan c)
  | .wrRng c v => (.op, 0x06#8 :: (putChan c ++ putWord v))
  | .rdDat c => (.op, 0x07#8 :: putChan c)
  | .wrDat c v => (.op, 0x08#8 :: (putChan c ++ putWord v))
  | .wrFif v => (.op, 0x09#8 :: putWord v)
  | .rdFif => (.op, [0x0A#8])
  | .rdCmctl => (.op, [0x0B#8])
  | .wrCmctl v => (.op, 0x0C#8 :: putWord v)
  | .rdCmdiv => (.op, [0x0D#8])
  | .wrCmdiv v => (.op, 0x0E#8 :: putWord v)
  | .unmapped b off => (.op, 0x0F#8 :: (putBlock b ++ putNat off))
  | .serTick c => (.op, 0x10#8 :: putChan c)
  | .cmSettle => (.op, [0x11#8])
  | .busErr => (.op, [0x12#8])
  | .configure c range divisor mode uf =>
      (.op, 0x20#8 :: (putNat c ++ (putWord range ++ (putNat divisor ++ (putMode mode ++ putBool uf)))))
  | .pushWord v => (.op, 0x21#8 :: putWord v)
  | .pushFifo ws => (.op, 0x22#8 :: putList putWord ws)
  | .enable c => (.op, 0x23#8 :: putChan c)
  | .disable c => (.op, 0x24#8 :: putChan c)
  | .clearFifo => (.op, [0x25#8])
  | .scale ch b => (.op, 0x30#8 :: ch :: putBrightness b)
  | .colorWord r g b => (.op, 0x31#8 :: putPixel { r := r, g := g, b := b })
  | .bitSel cw p => (.op, 0x32#8 :: (putCWord cw ++ putNat p))
  | .symbol b => (.op, 0x33#8 :: putBool b)
  | .frameLen n => (.op, 0x34#8 :: putNat n)
  | .locate g => (.op, 0x35#8 :: putNat g)
  | .clearFrame fw => (.op, 0x36#8 :: putNat fw)
  | .place g s => (.op, 0x37#8 :: (putNat g ++ putSym s))
  | .encPixel i px b => (.op, 0x38#8 :: (putNat i ++ (putPixel px ++ putBrightness b)))
  | .encodeFrame pxs b => (.op, 0x39#8 :: (putList putPixel pxs ++ putBrightness b))
  | .symDec s => (.op, 0x3A#8 :: putSym s)
  | .decodeFrame w n => (.op, 0x3B#8 :: (putList putWord w ++ putNat n))
  | .pushFrame c pxs b => (.op, 0x40#8 :: (putChan c ++ (putList putPixel pxs ++ putBrightness b)))
  | .hold c n => (.op, 0x41#8 :: (putChan c ++ putNat n))
  | .latchWait => (.op, [0x42#8])
  | .placeA w off s => (.placeForm, putNat (32 * w + (29 - off)) ++ putSym s)
  | .placeB w s => (.placeForm, putNat (32 * w + 30) ++ putSym s)
  | .placeC w s => (.placeForm, putNat (32 * w + 31) ++ putSym s)
  | .sym0 => (.symConst, putSym 0b100#3)
  | .sym1 => (.symConst, putSym 0b110#3)
  | .sym b => (.symBit, putSym (symbolOf b))
  | .cw g r b => (.cw, putCWord (colorWordOf r g b))
  | .ctlw f => (.ctlw, putWord (Layout.default.ctlWord f))
  | .staw f => (.staw, putWord (Layout.default.staWord f))
  | .rngw v => (.rngw, putWord v)
  | .datw v => (.datw, putWord v)
  | .fifw v => (.fifw, putWord v)
  | .cmctlw p busy enab => (.cmctlw, putWord (Layout.default.cmctlWord p busy enab))
  | .cmdivw p d => (.cmdivw, putWord (Layout.default.cmdivWord p d))

/-! ### The agent of an operation (R110) -/

/-- The agent that takes an operation's step (R110's column); a form or a format is the host's. -/
def Instr.agent : Instr → Agent
  | .serTick c => .ser c
  | .cmSettle => .cm
  | .busErr => .bus
  | .rdCtl | .wrCtl _ | .rdSta | .wrSta _ | .rdRng _ | .wrRng _ _ | .rdDat _ | .wrDat _ _ | .wrFif _ | .rdFif
  | .rdCmctl | .wrCmctl _ | .rdCmdiv | .wrCmdiv _ | .unmapped _ _
  | .configure _ _ _ _ _ | .pushWord _ | .pushFifo _ | .enable _ | .disable _ | .clearFifo | .scale _ _
  | .colorWord _ _ _ | .bitSel _ _ | .symbol _ | .frameLen _ | .locate _ | .clearFrame _ | .place _ _
  | .encPixel _ _ _ | .encodeFrame _ _ | .symDec _ | .decodeFrame _ _ | .pushFrame _ _ _ | .hold _ _ | .latchWait
  | .placeA _ _ _ | .placeB _ _ | .placeC _ _ | .sym0 | .sym1 | .sym _ | .cw _ _ _
  | .ctlw _ | .staw _ | .rngw _ | .datw _ | .fifw _ | .cmctlw _ _ _ | .cmdivw _ _ => .host

/-! ### Words in the table's numbering -/

/-- `k` bytes of `w`, bit 0 of `w` the lowest bit of the first byte. -/
def bytesOfNat : Nat → Nat → List Byte
  | 0, _ => []
  | k + 1, w => BitVec.ofNat 8 w :: bytesOfNat k (w / 256)

/-- How many zero bytes follow a table word: more than any descriptor of zero operands has. -/
def zeroTail : List Byte := List.replicate 16 0#8

/-- The spaces a table word of a width may be read in, in the order they are tried. A 32-bit word fits several
register formats; the one that fixes most bits is tried first. Log entry 19. -/
def spacesOfWidth (nbits w : Nat) : List Space :=
  if nbits = 8 then (if w = 0x00 ∨ w = 0x1E ∨ w = 0x1F then [.op, .placeForm] else [.op, .symConst])
  else if nbits = 5 then [.placeForm]
  else if nbits = 3 then [.symConst]
  else if nbits = 24 then [.cw]
  else if nbits = 32 then [.staw, .cmctlw, .ctlw, .cmdivw, .rngw]
  else [.op]

/-- The bytes of a table word, zeros above it. -/
def tableBytes (nbits w : Nat) : List Byte := bytesOfNat ((nbits + 7) / 8) w ++ zeroTail

/-- The first of the spaces in which the bytes decode, with what they decode to. -/
def firstDecoding (bs : List Byte) : List Space → Option (Space × Instr)
  | [] => none
  | sp :: sps =>
    match decode sp bs with
    | .ok i => some (sp, i)
    | .error _ => firstDecoding bs sps

/-- The operation the decoder reads from a table word. -/
def decodeTableWord (nbits w : Nat) : Option Instr :=
  (firstDecoding (tableBytes nbits w) (spacesOfWidth nbits w)).map Prod.snd

end Sys2Proof
end

