-- ==== Sys2Proof/Machine/State.lean ====
section
/-! DEFINITION. The state of the machine as plain data, the reasons a step can stop, and the state after reset. -/

namespace Sys2Proof.Machine

/-- The host's three polls (R76, R226). -/
inductive Poll where
  | clk | berr | full
  deriving DecidableEq, Repr

/-- The failures an operation of the block can report (R221, E1 to E5), with the value each records. A failure
is a returned result: the machine goes on. -/
inductive Err where
  /-- E1 `UsageError(BrightnessRange)`: records the brightness -/
  | brightnessRange (b : Brightness)
  /-- E2 `UsageError(FrameTooLong)`: records N and FW(N) -/
  | frameTooLong (n fw : Nat)
  /-- E3 `UsageError(InvalidChannel)`: records the channel id -/
  | invalidChannel (c : Nat)
  /-- E4 `BadSymbol`: records the 3-bit group and, where it stands in a frame, its position -/
  | badSymbol (s : Sym) (g : Option Nat)
  /-- E5 `TimingStall`: records which poll -/
  | timingStall (p : Poll)
  deriving DecidableEq, Repr

/-- What the last finished host operation returned (R47: the host holds "the result it returns"). -/
inductive Result where
  | none
  | done
  | word (v : Word)
  | byte (v : Byte)
  | bit (b : Bool)
  | sym (s : Sym)
  | cword (v : CWord)
  | nat (n : Nat)
  | location (w : Nat) (off : Int) (f : Form)
  | frame (w : List Word)
  | cwords (cws : List CWord)
  | failed (e : Err)
  deriving DecidableEq, Repr

/-- One host step inside an operation of several steps: a register transaction, one read of a poll, or a look
at a timed wait. The transactions of R160, R167, R169 to R171, R213 and R214, in the words of those rules. -/
inductive Micro where
  /-- `v <- RegRead(CTL)` -/
  | readCtl
  /-- `RegWrite(CTL, v & ~M_PWEN(c))` -/
  | clearPwen (c : ChanId)
  /-- `RegWrite(CTL, v | M_PWEN(c))` -/
  | setPwen (c : ChanId)
  /-- `RegWrite(CTL, v | M_CLRF)` -/
  | setClrf
  /-- step 4 of `CONFIGURE`: the write of `CTL` with `MODE[c]` and `USEF[c]` changed -/
  | setMode (c : ChanId) (mode : Mode) (useFifo : Bool)
  /-- `k <- RegRead(CMCTL)` -/
  | readCmctl
  /-- `RegWrite(CMCTL, PW | (k & ~M_CM_ENAB))` -/
  | stopClock
  /-- `RegWrite(CMDIV, PW | ((divisor & 0xFFF) << CM_DIVI_LSB))` -/
  | writeDivisor (divisor : Nat)
  /-- `RegWrite(CMCTL, PW | (k | M_CM_ENAB))` -/
  | startClock
  /-- one read of `poll RegRead(CMCTL) until CMCTL[B_CM_BUSY] = 0` -/
  | pollClk
  /-- `RegWrite(RNG[c], range)` -/
  | writeRange (c : ChanId) (range : Word)
  /-- `RegWrite(STA, M_BERR)` -/
  | clearBerr
  /-- one read of `poll RegRead(STA) until STA[B_BERR] = 0` -/
  | pollBerr
  /-- one read of `STA` in the loop of `PUSHWORD` -/
  | pollFull
  /-- `RegWrite(FIF, v)` -/
  | push (v : Word)
  /-- one look at `await (number of SER_TICK c steps since the ENABLE) >= nbits` -/
  | awaitTicks (c : ChanId) (nbits : Nat)
  /-- the latch wait -/
  | latch
  deriving DecidableEq, Repr

/-- The host's place in the sequence it is running (R47): the steps still to take, the two values its rules
name (`v`, `k`), and how often the poll in hand has read the wrong value, counted only under a limit (R226). -/
structure HostSeq where
  todo  : List Micro
  v     : Word
  k     : Word
  polls : Nat
  deriving DecidableEq, Repr

/-- One channel: its control fields, its two registers, its serializer, its line and its two status flags. -/
structure Chan where
  /-- `CTL`'s fields of the channel (R30) -/
  ctl  : CtlChan
  /-- `RNG[c]` (R32) -/
  rng  : Word
  /-- `DAT[c]` (R33) -/
  dat  : Word
  /-- `SR[c]` (R40) -/
  sr   : Word
  /-- `LEN[c]` (R41) -/
  len  : Nat
  /-- `POS[c]` (R42) -/
  pos  : Nat
  /-- `LAST[c]`, or none (R43) -/
  last : Option Word
  /-- `OUT[c]` (R44) -/
  out  : Bool
  /-- `TX[c]`, oldest first (R45) -/
  tx   : List Bool
  /-- `STA.GAPO[c]` (R31) -/
  gapo : Bool
  /-- `STA.STA[c]`, transmitting (R31) -/
  sta  : Bool
  /-- the model's own: how long `TX[c]` was at the last `ENABLE c`, the position `HOLD` counts from (R45, R213) -/
  mark : Nat
  deriving DecidableEq, Repr

/-- The clock manager's three fields (R46). -/
structure ClockMgr where
  enab : Bool
  busy : Bool
  divi : BitVec 12
  deriving DecidableEq, Repr

/-- The encoder (R20): its inputs `PIX` and `BRT` (R21, R22), its working registers `CW`, `SYM` and `W` (R23 to
R25) and its cursor (R26). -/
structure Enc where
  pix : List Pixel
  brt : Brightness
  cw  : CWord
  sym : Sym
  w   : List Word
  i   : Nat
  p   : Nat
  g   : Nat
  deriving DecidableEq, Repr

/-- One entry of the run still ahead (R74): an operation's descriptor, or a turn of the host inside the
operation it is running. -/
inductive Turn where
  | issue (sp : Space) (bytes : List Byte)
  | host
  deriving DecidableEq, Repr

/-- The machine. `CLRF` has no storage, since it always reads 0 (R30); `FULL` and `EMPT` are computed (R36);
`FIF` stores nothing (R34). -/
structure State where
  /-- the parameters of the run (R8, R47); no step changes them -/
  cfg    : Config
  ch1    : Chan
  ch2    : Chan
  /-- `FIFO`, head first (R35) -/
  fifo   : List Word
  /-- `STA.WERR` (R31) -/
  werr   : Bool
  /-- `STA.RERR` (R31) -/
  rerr   : Bool
  /-- `STA.BERR` (R31) -/
  berr   : Bool
  cm     : ClockMgr
  enc    : Enc
  host   : HostSeq
  res    : Result
  /-- the register the last accepted write went to, which `BERR_ORACLE` looks at (R148) -/
  lastWr : Option Reg
  /-- the run still ahead: the operations in order and the turns between them (R74) -/
  run    : List Turn
  /-- the model's own: how many free values have been used -/
  fresh  : Nat
  deriving DecidableEq, Repr

/-- Why the machine stops with a fault: never. "No transaction raises an error to the host: the bus never
faults in this spec" (R120), a usage error is a returned value (R230) and a hang is an infinite run (R226). -/
inductive Fault where
  deriving DecidableEq, Repr

/-- Why a step has no meaning. Each is safe: no claim is proved of a run that contains one. -/
inductive Refusal where
  /-- raised by `exec`'s arm of an operation that has no meaning yet: safe -/
  | notModelled (mnemonic : String)
  /-- raised by `step` on bytes the decoder rejects (R110, U9): safe -/
  | badDescriptor (e : DecodeError)
  /-- raised by `UNMAPPED` (R137, U10): safe -/
  | unmappedAccess (blk : Block) (off : Nat)
  /-- raised by `SER_TICK c` outside `WSCFG(c)`, unless the parameters lift the refusal (R12, D3, U14): safe -/
  | outsideWsCfg (c : ChanId)
  /-- raised by `SER_TICK c` when a word is to be loaded and `RNG[c] = 0` (R139, U3): safe -/
  | rangeZeroAtLoad (c : ChanId)
  /-- raised by `SCALE` and `ENCPIXEL` on a brightness outside [0, 1] (U8): safe -/
  | brightnessOutsideRange
  /-- raised by `PLACE`, its forms and `ENCPIXEL` when a word they write is not in the frame (R188): safe -/
  | outsideFrame (g : Nat)
  /-- raised by `DECODE` of more pixels than the frame holds (R200: "a misuse the spec refuses"): safe -/
  | decodePastFrame (n fw : Nat)
  deriving DecidableEq, Repr

/-- The registers whose reset value R50 leaves open: `RNG[c]`, `DAT[c]`, `SR[c]` and `CM.DIVI` (U17). -/
structure OpenAtReset where
  rng1 : Word
  rng2 : Word
  dat1 : Word
  dat2 : Word
  sr1  : Word
  sr2  : Word
  divi : BitVec 12
  deriving DecidableEq, Repr

/-- Both channels' control fields after reset: all 0 (R50). -/
def ctlReset : CtlChan :=
  { pwen := false, mode := .balance, rptl := false, sbit := false, pola := false, usef := false, msen := false }

/-- One channel after reset, its open registers given (R50). -/
def Chan.reset (rng dat sr : Word) : Chan :=
  { ctl := ctlReset, rng := rng, dat := dat, sr := sr, len := 0, pos := 0, last := none, out := false,
    tx := [], gapo := false, sta := false, mark := 0 }

/-- The encoder when no `ENCODE` is in hand (R27). DESIGN CHOICE: R50 gives `CW`, `SYM`, `W` and the cursor no value
("none") and has no row for `PIX` and `BRT`; the model writes an empty list of pixels, brightness 0, zero words and
an empty frame. Log entry 32. -/
def Enc.idle : Enc :=
  { pix := [], brt := { num := 0, denPred := 0 }, cw := 0#24, sym := 0#3, w := [], i := 0, p := 0, g := 0 }

/-- A reset of the machine with parameters `cfg`: every element of R50 at its value, the open ones at those given, and
the host between operations (R251). DESIGN CHOICE, for what R50 has no row for: the host's `v`, `k` and count of poll
reads are 0 and its last result is none (log entry 34), the encoder is empty (32), `mark` is 0 (14), no register has
been written last (16), nothing is in the run (2) and no free value has been used (22). -/
def State.resetWith (cfg : Config) (u : OpenAtReset) : State :=
  { cfg := cfg, ch1 := Chan.reset u.rng1 u.dat1 u.sr1, ch2 := Chan.reset u.rng2 u.dat2 u.sr2, fifo := [],
    werr := false, rerr := false, berr := false, cm := { enab := false, busy := false, divi := u.divi },
    enc := Enc.idle, host := { todo := [], v := 0#32, k := 0#32, polls := 0 }, res := .none, lastWr := none,
    run := [], fresh := 0 }

/-- The open registers' values in `State.reset`. PRESUMED: 32 for each range register and 0 for each data
register, the values R50 names as one SoC family's. DESIGN CHOICE: 0 for `SR[c]` and `CM.DIVI`. Log entry 4. -/
def OpenAtReset.default : OpenAtReset :=
  { rng1 := 32#32, rng2 := 32#32, dat1 := 0#32, dat2 := 0#32, sr1 := 0#32, sr2 := 0#32, divi := 0#12 }

/-- The machine right after reset, under the default configuration. -/
def State.reset : State := State.resetWith Config.default OpenAtReset.default

end Sys2Proof.Machine
end

