-- ==== Sys2Proof/Machine/Operands.lean ====
section
/-! DEFINITION. The operand assembly of R97 and the pure arithmetic of the encoder: brightness, scaling, bits of
the colour word, frame length, location of a symbol, placement, the stream view of a frame. -/

namespace Sys2Proof.Machine

/-! ### Brightness and scaling (R22, R181, R196) -/

/-- The denominator. -/
def brtDen (b : Brightness) : Nat := b.denPred + 1

/-- `0 <= b <= 1`. -/
def brtInRange (b : Brightness) : Bool := decide (0 ≤ b.num) && decide (b.num ≤ (brtDen b : Int))

/-- `a <= b` as rational numbers. -/
def brtLe (a b : Brightness) : Bool := decide (a.num * (brtDen b : Int) ≤ b.num * (brtDen a : Int))

/-- `floor(ch * b)` of the exact product, 8 bits (R181, D6). -/
def scaleExact (ch : Byte) (b : Brightness) : Byte := BitVec.ofNat 8 (ch.toNat * b.num.toNat / brtDen b)

/-- `b` has passed the threshold. -/
def cutPassed (b : Brightness) (t : ScaleCut) : Bool :=
  if t.above then !brtLe b t.point else brtLe t.point b

/-- The row of a channel value, none where the table leaves it to the exact product. -/
def rowOf (rows : List ScaleRow) (ch : Byte) : Option ScaleRow := rows.find? fun r => decide (r.ch = ch)

/-- `SCALE_FN(ch, b)` (R181): by the parameter's form. -/
def scaleFn (cfg : Config) (ch : Byte) (b : Brightness) : Byte :=
  match cfg.scaleFn with
  | .exact => scaleExact ch b
  | .table rows =>
    match rowOf rows ch with
    | some r => BitVec.ofNat 8 (r.cuts.countP (cutPassed b))
    | none => scaleExact ch b
  | .lawful =>
    match Config.freeScale with
    | some f => f.1 ch b
    | none => scaleExact ch b

/-- The colour word of a pixel after scaling (R182, R192). -/
def scaledWord (cfg : Config) (px : Pixel) (b : Brightness) : CWord :=
  colorWordOf (scaleFn cfg px.r b) (scaleFn cfg px.g b) (scaleFn cfg px.b b)

/-- `UNPACK(cw) = (cw[15:8], cw[23:16], cw[7:0])` (R200). -/
def unpack (cw : CWord) : Pixel :=
  { r := cw.extractLsb' 8 8, g := cw.extractLsb' 16 8, b := cw.extractLsb' 0 8 }

/-! ### Bits and symbols (R183, R199) -/

/-- `BITSEL(cw, p) = cw[23 - p]` (R183). -/
def bitSelOf (cw : CWord) (p : Nat) : Bool := cw.getLsbD (23 - p)

/-- `SYMDEC`: the logical bit of a symbol, none for the six other values (R199). -/
def symDecOf (s : Sym) : Option Bool :=
  if s = 0b110#3 then some true else if s = 0b100#3 then some false else none

/-! ### The frame (R25, R64, R185 to R191) -/

/-- `FW(N) = (9*N + 3) div 4` (R185). -/
def frameLenOf (n : Nat) : Nat := (9 * n + 3) / 4

/-- The word of global position `g`: `g div 32` (R64, R186). -/
def wordIndex (g : Nat) : Nat := g / 32

/-- `29 - (g mod 32)`, an integer in -2 to 29 (R186). -/
def offsetFromTop (g : Nat) : Int := 29 - ((g % 32 : Nat) : Int)

/-- The form chosen by the low five bits of `g` (R112). -/
def formOf (g : Nat) : Form := if g % 32 = 30 then .B else if g % 32 = 31 then .C else .A

/-- Word `k` of a frame. -/
def wordAt (w : List Word) (k : Nat) : Word := w.getD k 0#32

/-- `bitAt(W, g) = W[g div 32][31 - (g mod 32)]` (R64). -/
def bitAt (w : List Word) (g : Nat) : Bool := (wordAt w (wordIndex g)).getLsbD (31 - g % 32)

/-- The stream of a frame: `bitAt(W, 0), …, bitAt(W, 32*FW - 1)` (R64). -/
def streamOf (w : List Word) : List Bool := (List.range (32 * w.length)).map (bitAt w)

/-- Form A: the whole symbol in word `k` at offset `off` (R189). -/
def placeFormA (w : List Word) (k off : Nat) (s : Sym) : List Word :=
  w.set k ((wordAt w k &&& ~~~(0b111#32 <<< off)) ||| (s.setWidth 32 <<< off))

/-- Form B: two bits in word `k`, one in the next (R190). -/
def placeFormB (w : List Word) (k : Nat) (s : Sym) : List Word :=
  let w1 := w.set k ((wordAt w k &&& ~~~0x00000003#32) ||| (s.extractLsb' 1 2).setWidth 32)
  w1.set (k + 1) ((wordAt w1 (k + 1) &&& ~~~0x80000000#32) ||| ((s.extractLsb' 0 1).setWidth 32 <<< 31))

/-- Form C: one bit in word `k`, two in the next (R191). -/
def placeFormC (w : List Word) (k : Nat) (s : Sym) : List Word :=
  let w1 := w.set k ((wordAt w k &&& ~~~0x00000001#32) ||| (s.extractLsb' 2 1).setWidth 32)
  w1.set (k + 1) ((wordAt w1 (k + 1) &&& ~~~0xC0000000#32) ||| ((s.extractLsb' 0 2).setWidth 32 <<< 30))

/-- `PLACE(g, sym)` by its form (R188). -/
def placeAt (w : List Word) (g : Nat) (s : Sym) : List Word :=
  match formOf g with
  | .A => placeFormA w (wordIndex g) (29 - g % 32) s
  | .B => placeFormB w (wordIndex g) s
  | .C => placeFormC w (wordIndex g) s

/-- `{ bitAt(W, g), bitAt(W, g+1), bitAt(W, g+2) }`, first-sent bit on top (R200). -/
def symAt (w : List Word) (g : Nat) : Sym :=
  BitVec.ofBool (bitAt w g) ++ BitVec.ofBool (bitAt w (g + 1)) ++ BitVec.ofBool (bitAt w (g + 2))

/-! ### The encoder's steps on its own registers (R26, R187, R192, R193) -/

/-- One symbol: select the bit at `p`, make its symbol, place it at `g`, advance the cursor (R26, R192). -/
def Enc.symbolStep (e : Enc) : Enc :=
  let s := symbolOf (bitSelOf e.cw e.p)
  { e with sym := s, w := placeAt e.w e.g s, p := e.p + 1, g := e.g + 3 }

/-- `n` symbols in order. -/
def Enc.symbolSteps : Nat → Enc → Enc
  | 0, e => e
  | n + 1, e => Enc.symbolSteps n e.symbolStep

/-- `ENCPIXEL` on the encoder: the cursor at the pixel, its colour word, its 24 symbols, the next pixel (R192,
R26). -/
def Enc.pixel (cfg : Config) (e : Enc) (i : Nat) (px : Pixel) (b : Brightness) : Enc :=
  let e1 := { e with cw := scaledWord cfg px b, i := i, p := 0, g := 72 * i }
  { Enc.symbolSteps 24 e1 with i := i + 1, p := 0 }

/-- `ENCPIXEL` of each pixel in order, the first having index `i`. -/
def Enc.pixels (cfg : Config) (b : Brightness) : Nat → List Pixel → Enc → Enc
  | _, [], e => e
  | i, px :: pxs, e => Enc.pixels cfg b (i + 1) pxs (e.pixel cfg i px b)

/-- The encoder at the start of `ENCODE`: inputs given, frame of `FRAMELEN` zero words, cursor at the first
symbol (R26, R187, R193). -/
def Enc.start (pixels : List Pixel) (b : Brightness) : Enc :=
  { Enc.idle with pix := pixels, brt := b, w := List.replicate (frameLenOf pixels.length) 0#32 }

/-- The whole encoder run on its inputs. -/
def Enc.finish (cfg : Config) (e : Enc) : Enc := Enc.pixels cfg e.brt 0 e.pix e

/-- The `BitFrame` of `ENCODE(pixels, b)`, `b` in range (R193). -/
def encodeOf (cfg : Config) (pixels : List Pixel) (b : Brightness) : List Word :=
  ((Enc.start pixels b).finish cfg).w

/-! ### Decoding (R200) -/

/-- The last `n` logical bits of a pixel, from position `g` on: bit `n - 1` of the colour word is the next to
set. -/
def decodeSymbols (w : List Word) : Nat → Nat → CWord → Except Err CWord
  | 0, _, cw => .ok cw
  | n + 1, g, cw =>
    match symDecOf (symAt w g) with
    | none => .error (.badSymbol (symAt w g) (some g))
    | some b => decodeSymbols w n (g + 3) (if b then cw ||| (1#24 <<< n) else cw)

/-- `n` pixels, the first at position `g`. -/
def decodePixels (w : List Word) : Nat → Nat → Except Err (List CWord)
  | 0, _ => .ok []
  | n + 1, g =>
    match decodeSymbols w 24 g 0#24 with
    | .error e => .error e
    | .ok cw =>
      match decodePixels w n (g + 72) with
      | .error e => .error e
      | .ok cws => .ok (cw :: cws)

/-- `DECODE(W, N)` (R200). -/
def decodeOf (w : List Word) (n : Nat) : Except Err (List CWord) := decodePixels w n 0

end Sys2Proof.Machine
end

