-- ==== Sys2Proof/Machine/Flags.lean ====
section
/-! DEFINITION. The status flags (R31, R36): the two live ones that are computed, the sticky ones' clearing, and
the status word they make up. -/

namespace Sys2Proof.Machine

/-- `STA.FULL = 1` exactly when `len(FIFO) = FIFO_DEPTH` (R36). -/
def State.full (s : State) : Bool := decide (s.fifo.length = s.cfg.fifoDepth)

/-- `STA.EMPT = 1` exactly when `len(FIFO) = 0` (R36). -/
def State.empt (s : State) : Bool := decide (s.fifo.length = 0)

/-- The nine status fields at this instant (R31, R123). -/
def State.staFields (s : State) : StaFields :=
  { full := s.full, empt := s.empt, werr := s.werr, rerr := s.rerr, gapo1 := s.ch1.gapo, gapo2 := s.ch2.gapo,
    berr := s.berr, sta1 := s.ch1.sta, sta2 := s.ch2.sta }

/-- The control fields at this instant; `CLRF` reads 0 (R121). -/
def State.ctlFields (s : State) : CtlFields := { c1 := s.ch1.ctl, c2 := s.ch2.ctl, clrf := false }

/-- A sticky flag after a write: cleared by a 1, kept by a 0 (R124). -/
def clearedBy (flag one : Bool) : Bool := flag && !one

end Sys2Proof.Machine
end

