-- ==== Sys2Proof/Machine/Ops.lean ====
section
/-! DEFINITION. The named operations over the registers, the FIFO and the line, which every meaning is made of:
the register transactions (R120 to R136), the parts of the serializer's tick (R138 to R143), and what `raise`
does (R230). Nothing returns from a failure: "There is no return instruction and no handler" (R231). -/

namespace Sys2Proof.Machine

/-! ### Access to the state -/

def State.chan (s : State) : ChanId → Chan
  | .ch1 => s.ch1
  | .ch2 => s.ch2

def State.setChan (s : State) : ChanId → Chan → State
  | .ch1, x => { s with ch1 := x }
  | .ch2, x => { s with ch2 := x }

/-- The other channel. -/
def otherChan : ChanId → ChanId
  | .ch1 => .ch2
  | .ch2 => .ch1

/-- The channel of an id in {1, 2} (R7). -/
def chanOfId : Nat → Option ChanId
  | 1 => some .ch1
  | 2 => some .ch2
  | _ => none

/-- Where the layout places a register: its block and its byte offset (R61, R100). -/
def regPlace (l : Layout) : Reg → Block × Nat
  | .ctl => (.pwm, l.offCtl)
  | .sta => (.pwm, l.offSta)
  | .rng .ch1 => (.pwm, l.offRng1)
  | .dat .ch1 => (.pwm, l.offDat1)
  | .fif => (.pwm, l.offFif)
  | .rng .ch2 => (.pwm, l.offRng2)
  | .dat .ch2 => (.pwm, l.offDat2)
  | .cmctl => (.cm, l.offCmctl)
  | .cmdiv => (.cm, l.offCmdiv)

/-- The nine registers (R61). -/
def allRegs : List Reg :=
  [.ctl, .sta, .rng .ch1, .dat .ch1, .fif, .rng .ch2, .dat .ch2, .cmctl, .cmdiv]

/-- The register the layout places at an offset of a block: what `MemRead(addr, 4)` and `MemWrite(addr, 4, v)`
reach (R62, R71). -/
def regAt (l : Layout) (blk : Block) (off : Nat) : Option Reg :=
  allRegs.find? fun r => decide (regPlace l r = (blk, off))

/-- The physical address of a register, none where the peripheral base is open (R104). No transaction uses it:
the block sees offsets only (R72). -/
def regAddress (l : Layout) (r : Reg) : Option Nat :=
  l.base.map fun base =>
    match regPlace l r with
    | (.pwm, off) => base + l.pwmBase + off
    | (.cm, off) => base + l.cmBase + off

/-- The host operation in hand has returned `r`. -/
def State.answer (s : State) (r : Result) : State := { s with res := r }

/-- What `raise` does (R230): the operation ends at once, writes nothing further and returns the failure. -/
def State.raise (s : State) (e : Err) : State :=
  { s with host := { s.host with todo := [] }, res := .failed e }

/-! ### Reads (R121, R123, R133, R135): no read changes state (R70) -/

def State.readCtl (s : State) : Word := s.cfg.layout.ctlWord s.ctlFields

def State.readSta (s : State) : Word := s.cfg.layout.staWord s.staFields

def State.readCmctl (s : State) : Word :=
  bitWord s.cfg.layout.cmBusy s.cm.busy ||| bitWord s.cfg.layout.cmEnab s.cm.enab

def State.readCmdiv (s : State) : Word := s.cm.divi.setWidth 32 <<< s.cfg.layout.diviLsb

/-! ### Writes -/

/-- The line's level after a write of the channel's control fields, or none where the spec leaves it open.
An enabled Serializer channel keeps its level (R122). A disabled one is low when `POLA = 0` (R44, R122) and
open when `POLA = 1` (U6). An enabled Balance channel's is open (U7). What was open already and is not written
differently keeps the level it has. Log entries 7 and 8. -/
def levelAfter (was now : CtlChan) (out : Bool) : Option Bool :=
  if now.pwen then
    match now.mode with
    | .serializer => some out
    | .balance => if was.pwen && decide (was.mode = .balance) then some out else none
  else if !now.pola then some false
  else if !was.pwen && was.pola then some out
  else none

/-- A channel's new control fields and the consequences of disabling it (R122). -/
def State.writeCtlChan (s : State) (c : ChanId) (now : CtlChan) : State :=
  let x := s.chan c
  let off := x.ctl.pwen && !now.pwen
  let y := { x with
    ctl := now
    pos := if off && s.cfg.disableAborts then 0 else x.pos
    len := if off && s.cfg.disableAborts then 0 else x.len
    sta := x.sta && !off }
  match levelAfter x.ctl now x.out with
  | some level => s.setChan c { y with out := level }
  | none => { s.setChan c { y with out := Config.freeLevel s.fresh } with fresh := s.fresh + 1 }

/-- The FIFO after a write of the clear-FIFO bit (R122). -/
def State.clearIf (s : State) (clrf : Bool) : State := if clrf then { s with fifo := [] } else s

/-- `WR_CTL v` (R122): channel 1, channel 2, then the clear bit. -/
def State.writeCtl (s : State) (v : Word) : State :=
  let f := s.cfg.layout.ctlFields v
  { (((s.writeCtlChan .ch1 f.c1).writeCtlChan .ch2 f.c2).clearIf f.clrf) with lastWr := some .ctl }

/-- `WR_STA v` (R124). -/
def State.writeSta (s : State) (v : Word) : State :=
  let f := s.cfg.layout.staFields v
  { s with
    werr := clearedBy s.werr f.werr
    rerr := clearedBy s.rerr f.rerr
    berr := clearedBy s.berr f.berr
    ch1 := { s.ch1 with gapo := clearedBy s.ch1.gapo f.gapo1 }
    ch2 := { s.ch2 with gapo := clearedBy s.ch2.gapo f.gapo2 }
    lastWr := some .sta }

/-- `WR_RNG c, v` (R126). -/
def State.writeRng (s : State) (c : ChanId) (v : Word) : State :=
  { s.setChan c { s.chan c with rng := v } with lastWr := some (.rng c) }

/-- `WR_DAT c, v` (R128). -/
def State.writeDat (s : State) (c : ChanId) (v : Word) : State :=
  { s.setChan c { s.chan c with dat := v } with lastWr := some (.dat c) }

/-- `WR_FIF v`: push, or the word is lost and `WERR` set (R129). -/
def State.writeFif (s : State) (v : Word) : State :=
  if s.fifo.length < s.cfg.fifoDepth then { s with fifo := s.fifo ++ [v], lastWr := some .fif }
  else { s with werr := true, lastWr := some .fif }

/-- A clock-manager write is accepted when the layout has no password or the word carries it (R134, R136). -/
def State.passOk (s : State) (v : Word) : Bool :=
  match s.cfg.layout.pass with
  | none => true
  | some pw => decide (v.extractLsb' pw.lsb 8 = pw.value)

/-- `WR_CMCTL v` (R134). -/
def State.writeCmctl (s : State) (v : Word) : State :=
  if s.passOk v then
    { s with cm := { s.cm with enab := v.getLsbD s.cfg.layout.cmEnab, busy := true }, lastWr := some .cmctl }
  else s

/-- `WR_CMDIV v` (R136). -/
def State.writeCmdiv (s : State) (v : Word) : State :=
  if s.passOk v then
    { s with cm := { s.cm with divi := s.cfg.layout.diviOf v, busy := true }, lastWr := some .cmdiv }
  else s

/-! ### The parts of a serializer tick (R138 to R145) -/

/-- The bit clock runs: `CM.ENAB = 1` and `CM.DIVI != 0` (R138). -/
def State.clockRuns (s : State) : Bool := s.cm.enab && decide (s.cm.divi ≠ 0#12)

/-- `emit(c, x)`: the level is `x xor POLA`, and `TX` records it (R138, R145). -/
def Chan.emit (x : Chan) (bit : Bool) : Chan :=
  let level := bit ^^ x.ctl.pola
  { x with out := level, tx := x.tx ++ [level] }

/-- The bit at the slot position: `SR[31 - POS]`, 0 past the word's end (R142). -/
def Chan.slotBit (x : Chan) : Bool := decide (x.pos < 32) && x.sr.getLsbD (31 - x.pos)

/-- `SHIFT(c)` (R142). -/
def Chan.shift (x : Chan) : Chan := { x.emit x.slotBit with pos := x.pos + 1 }

/-- `LOAD_FIFO(c)`'s effect on the channel, the word popped (R139). -/
def Chan.loadFifo (x : Chan) (v : Word) : Chan :=
  { x with sr := v, last := some v, len := x.rng.toNat, pos := 0, sta := true }

/-- `LOAD_DAT(c)` (R140); the word loaded is the last word too (R43; log entry 21). -/
def Chan.loadDat (x : Chan) : Chan :=
  { x with sr := x.dat, last := some x.dat, len := x.rng.toNat, pos := 0, sta := true }

/-- `LOAD_LAST(c)`, the last word given (R143); it loads a word, so it sets `STA[c]` (R31, D13; log entry 21). -/
def Chan.loadLast (x : Chan) (v : Word) : Chan := { x with sr := v, len := x.rng.toNat, pos := 0, sta := true }

/-- `UNDERRUN(c)`'s effect on the channel (R141, R144). -/
def Chan.underrun (x : Chan) : Chan := { x with gapo := true, sta := false }.emit x.ctl.sbit

/-- Where an idle slot's next word comes from (R138): the FIFO's head, the last word again, nothing, or the data
register. -/
inductive WordSource where
  | fifo (v : Word) (rest : List Word)
  | last (v : Word)
  | dat
  | dry
  deriving DecidableEq, Repr

def State.wordSource (s : State) (c : ChanId) : WordSource :=
  let x := s.chan c
  if x.ctl.usef then
    match s.fifo with
    | v :: rest => .fifo v rest
    | [] =>
      if x.ctl.rptl then
        match x.last with
        | some v => .last v
        | none => .dry
      else .dry
  else .dat

/-- `WSCFG(c)` (R12), the admitted configuration. -/
def State.inWsCfg (s : State) (c : ChanId) : Bool :=
  let x := s.chan c
  decide (x.ctl.mode = .serializer) && x.ctl.usef && !x.ctl.rptl && !x.ctl.sbit && !x.ctl.pola && !x.ctl.msen &&
  decide (x.rng = 32#32) && !(s.chan (otherChan c)).ctl.usef

/-- The parameters admit a serializer step of the channel as it is configured (R12, D3; log entry 6). -/
def State.admitsTick (s : State) (c : ChanId) : Bool := !s.cfg.wsOnly || s.inWsCfg c

/-- A tick of an enabled Serializer channel (R138). A load needs `RNG[c] >= 1` (R139, U3). -/
def State.tick (s : State) (c : ChanId) : Host.Outcome State Fault Refusal :=
  let x := s.chan c
  if x.pos = x.len then
    match s.wordSource c with
    | .dry => .next { s.setChan c x.underrun with rerr := true }
    | .fifo v rest =>
      if x.rng = 0#32 then .refused (.rangeZeroAtLoad c)
      else .next { s.setChan c (x.loadFifo v).shift with fifo := rest }
    | .last v => if x.rng = 0#32 then .refused (.rangeZeroAtLoad c) else .next (s.setChan c (x.loadLast v).shift)
    | .dat => if x.rng = 0#32 then .refused (.rangeZeroAtLoad c) else .next (s.setChan c x.loadDat.shift)
  else .next (s.setChan c x.shift)

/-- A tick of the bit clock at an enabled Balance channel: `SER[c]` has no step, and the level on the line is
open (R138, U7). Log entry 7. -/
def State.balanceTick (s : State) (c : ChanId) : State :=
  { s.setChan c { s.chan c with out := Config.freeLevel s.fresh } with fresh := s.fresh + 1 }

/-- `BERR_ORACLE` allows the bus-error flag to be raised now (R148). -/
def State.busMayErr (s : State) : Bool :=
  match s.cfg.berrOracle with
  | .never => false
  | .after regs =>
    match s.lastWr with
    | none => false
    | some r => decide (r ∈ regs)

end Sys2Proof.Machine
end

