-- ==== Sys2Proof/Machine/HostTurn.lean ====
section
/-! DEFINITION. The host inside an operation of several steps: one register transaction, one poll read or one
look at a timed wait a turn (R69, R73, R74), and the step sequences of the host operations (R114). -/

namespace Sys2Proof.Machine

/-- The step in hand is done: go on with the rest; the operation returns when nothing is left. -/
def State.advance (s : State) (rest : List Micro) : State :=
  let s' := { s with host := { s.host with todo := rest, polls := 0 } }
  if rest = [] then s'.answer .done else s'

/-- The limit of a poll (R8, R226). -/
def pollLimit (cfg : Config) : Poll → Option Nat
  | .clk => cfg.pollLimitClk
  | .berr => cfg.pollLimitBerr
  | .full => cfg.pollLimitFull

/-- One poll read (R226): `ready` goes on; the wrong value leaves the host where it is, and raises
`TimingStall` when it is the limit's last. -/
def State.pollOnce (s : State) (p : Poll) (ready : Bool) (rest : List Micro) : State :=
  if ready then s.advance rest
  else match pollLimit s.cfg p with
    | none => s
    | some limit =>
      if limit ≤ s.host.polls + 1 then s.raise (.timingStall p)
      else { s with host := { s.host with polls := s.host.polls + 1 } }

/-- The number of `SER_TICK c` steps since the last `ENABLE c` (R213). -/
def State.ticksSinceEnable (s : State) (c : ChanId) : Nat := (s.chan c).tx.length - (s.chan c).mark

/-- `ENABLE c` marks its place in `TX[c]` (R45, R213); log entry 14. -/
def State.markEnable (s : State) (c : ChanId) : State :=
  s.setChan c { s.chan c with mark := (s.chan c).tx.length }

/-- The control word step 4 of `CONFIGURE` writes (R160). -/
def modeWord (l : Layout) (c : ChanId) (mode : Mode) (useFifo : Bool) (v : Word) : Word :=
  let m := mask (l.ctlBits c).mode
  let u := mask (l.ctlBits c).usef
  match mode with
  | .serializer => v ||| m ||| u
  | .balance => if useFifo then (v &&& ~~~m) ||| u else (v &&& ~~~m) &&& ~~~u

/-- `k` masked to the fields the layout defines (R160). -/
def cmctlFieldsOf (l : Layout) (k : Word) : Word := k &&& (mask l.cmEnab ||| mask l.cmBusy)

/-- `PW` (R160). -/
def passWord (l : Layout) : Word :=
  match l.pass with
  | none => 0#32
  | some pw => pw.value.setWidth 32 <<< pw.lsb

/-- One host step, `rest` the steps after it. -/
def State.micro (s : State) (m : Micro) (rest : List Micro) : State :=
  let l := s.cfg.layout
  match m with
  | .readCtl => { s with host := { s.host with v := s.readCtl } }.advance rest
  | .clearPwen c => (s.writeCtl (s.host.v &&& ~~~mask (l.ctlBits c).pwen)).advance rest
  | .setPwen c => ((s.writeCtl (s.host.v ||| mask (l.ctlBits c).pwen)).markEnable c).advance rest
  | .setClrf => (s.writeCtl (s.host.v ||| mask l.clrf)).advance rest
  | .setMode c mode uf => (s.writeCtl (modeWord l c mode uf s.host.v)).advance rest
  | .readCmctl => { s with host := { s.host with k := s.readCmctl } }.advance rest
  | .stopClock => (s.writeCmctl (passWord l ||| (cmctlFieldsOf l s.host.k &&& ~~~mask l.cmEnab))).advance rest
  | .writeDivisor d =>
    (s.writeCmdiv (passWord l ||| ((BitVec.ofNat 32 d &&& 0xFFF#32) <<< l.diviLsb))).advance rest
  | .startClock => (s.writeCmctl (passWord l ||| (cmctlFieldsOf l s.host.k ||| mask l.cmEnab))).advance rest
  | .pollClk => s.pollOnce .clk (!s.readCmctl.getLsbD l.cmBusy) rest
  | .writeRange c range => (s.writeRng c range).advance rest
  | .clearBerr => (s.writeSta (mask l.sta.berr)).advance rest
  | .pollBerr => s.pollOnce .berr (!s.readSta.getLsbD l.sta.berr) rest
  | .pollFull => s.pollOnce .full (!s.readSta.getLsbD l.sta.full) rest
  | .push v => (s.writeFif v).advance rest
  | .awaitTicks c n => if n ≤ s.ticksSinceEnable c then s.advance rest else s
  | .latch => s.advance rest

/-- A turn of the host: its next step, or nothing when no operation is in hand. -/
def State.hostTurn (s : State) : State :=
  match s.host.todo with
  | [] => s
  | m :: rest => s.micro m rest

/-- The host starts an operation of these steps and takes the first (log entry 13); an operation of no steps
returns at once. -/
def State.startSeq (s : State) (seq : List Micro) : State :=
  match seq with
  | [] => s.answer .done
  | _ :: _ => { s with host := { s.host with todo := seq ++ s.host.todo, polls := 0 } }.hostTurn

/-! ### The step sequences -/

/-- `PUSHWORD v` (R167). -/
def pushWordSeq (v : Word) : List Micro := [.pollFull, .push v]

/-- `PUSHFIFO words` (R168). -/
def pushFifoSeq (words : List Word) : List Micro := words.flatMap pushWordSeq

/-- `ENABLE c` (R169). -/
def enableSeq (c : ChanId) : List Micro := [.readCtl, .setPwen c]

/-- `DISABLE c` (R170). -/
def disableSeq (c : ChanId) : List Micro := [.readCtl, .clearPwen c]

/-- `CLEARFIFO` (R171). -/
def clearFifoSeq : List Micro := [.readCtl, .setClrf]

/-- The five steps of `CONFIGURE` in order (R160, R161). -/
def configureSeq (c : ChanId) (range : Word) (divisor : Nat) (mode : Mode) (uf : Bool) : List Micro :=
  [.readCtl, .clearPwen c,
   .readCmctl, .stopClock, .writeDivisor divisor, .startClock, .pollClk,
   .writeRange c range,
   .readCtl, .setMode c mode uf,
   .clearBerr, .pollBerr]

/-- `PUSHFRAME` after its checks, the frame given (R210). -/
def frameSeq (c : ChanId) (frame : List Word) (npixels : Nat) : List Micro :=
  pushFifoSeq frame ++ enableSeq c ++ [.awaitTicks c (72 * npixels)] ++ disableSeq c ++ clearFifoSeq ++ [.latch]

end Sys2Proof.Machine
end

