-- ==== Sys2Proof/Machine/Agents.lean ====
section
/-! DEFINITION. Family AGT: the steps of the hardware agents (R138 to R148). An agent that is given a turn in
which it has no step leaves the state as it is (log entry 12). -/

namespace Sys2Proof.Machine

/-- `SER_TICK c` (R138), and R12's refusal outside `WSCFG`, unless the parameters lift it. -/
def execSerTick (c : ChanId) (s : State) : Host.Outcome State Fault Refusal :=
  if (s.chan c).ctl.pwen && s.clockRuns then
    match (s.chan c).ctl.mode with
    | .serializer => if s.admitsTick c then s.tick c else .refused (.outsideWsCfg c)
    | .balance => .next (s.balanceTick c)
  else .next s

/-- `CM_SETTLE` (R147): with `CM.BUSY = 0` there is no step, and clearing it changes nothing. -/
def execCmSettle (s : State) : Host.Outcome State Fault Refusal := .next { s with cm := { s.cm with busy := false } }

/-- `BUS_ERR` (R148). -/
def execBusErr (s : State) : Host.Outcome State Fault Refusal :=
  if s.busMayErr then .next { s with berr := true } else .next s

end Sys2Proof.Machine
end

