-- ==== Sys2Proof/Machine/Encoder.lean ====
section
/-! DEFINITION. Family ENC: the encoder's operations (R180 to R200), and the three placement forms (R189 to
R191). None of them reads or writes a register, a flag, the FIFO or the line. -/

namespace Sys2Proof.Machine

/-- `SCALE ch, b` (R181); outside [0, 1] it is refused on its own (U8). -/
def execScale (ch : Byte) (b : Brightness) (s : State) : Host.Outcome State Fault Refusal :=
  if brtInRange b then .next (s.answer (.byte (scaleFn s.cfg ch b))) else .refused .brightnessOutsideRange

/-- `COLORWORD R', G', B'` (R182). -/
def execColorWord (r g b : Byte) (s : State) : Host.Outcome State Fault Refusal :=
  .next ({ s with enc := { s.enc with cw := colorWordOf r g b } }.answer (.cword (colorWordOf r g b)))

/-- `BITSEL cw, p` (R183); past the last bit, `p` above 23, the bit is a free value (log entry 33). -/
def execBitSel (cw : CWord) (p : Nat) (s : State) : Host.Outcome State Fault Refusal :=
  if p ≤ 23 then .next (s.answer (.bit (bitSelOf cw p)))
  else .next { s.answer (.bit (Config.freeBit s.fresh)) with fresh := s.fresh + 1 }

/-- `SYMBOL bit` (R184). -/
def execSymbol (bit : Bool) (s : State) : Host.Outcome State Fault Refusal :=
  .next ({ s with enc := { s.enc with sym := symbolOf bit } }.answer (.sym (symbolOf bit)))

/-- `FRAMELEN N` (R185). -/
def execFrameLen (n : Nat) (s : State) : Host.Outcome State Fault Refusal := .next (s.answer (.nat (frameLenOf n)))

/-- `LOCATE g` (R186). -/
def execLocate (g : Nat) (s : State) : Host.Outcome State Fault Refusal :=
  .next (s.answer (.location (wordIndex g) (offsetFromTop g) (formOf g)))

/-- `CLEARFRAME FW` (R187). -/
def execClearFrame (fw : Nat) (s : State) : Host.Outcome State Fault Refusal :=
  .next ({ s with enc := { s.enc with w := List.replicate fw 0#32 } }.answer .done)

/-- The working frame replaced, or the refusal of a write outside it: the last bit written lies at `last`. -/
def State.placeInFrame (s : State) (g last : Nat) (w : List Word) : Host.Outcome State Fault Refusal :=
  if last < 32 * s.enc.w.length then .next ({ s with enc := { s.enc with w := w } }.answer .done)
  else .refused (.outsideFrame g)

/-- `PLACE g, sym` (R188). -/
def execPlace (g : Nat) (sym : Sym) (s : State) : Host.Outcome State Fault Refusal :=
  s.placeInFrame g (g + 2) (placeAt s.enc.w g sym)

/-- `ENCPIXEL i, (R, G, B), b` (R192). -/
def execEncPixel (i : Nat) (px : Pixel) (b : Brightness) (s : State) : Host.Outcome State Fault Refusal :=
  if brtInRange b then
    if 72 * i + 71 < 32 * s.enc.w.length then .next ({ s with enc := s.enc.pixel s.cfg i px b }.answer .done)
    else .refused (.outsideFrame (72 * i))
  else .refused .brightnessOutsideRange

/-- `ENCODE pixels, b` (R193, R195, R196): the inputs are given to the encoder, the frame is returned, and
nothing of the working registers stays behind (R27; log entry 5). -/
def execEncodeFrame (pixels : List Pixel) (b : Brightness) (s : State) : Host.Outcome State Fault Refusal :=
  if brtInRange b then
    .next ({ s with enc := { s.enc with pix := pixels, brt := b } }.answer (.frame (encodeOf s.cfg pixels b)))
  else .next (s.raise (.brightnessRange b))

/-- `SYMDEC s` (R199). -/
def execSymDec (sym : Sym) (s : State) : Host.Outcome State Fault Refusal :=
  match symDecOf sym with
  | some b => .next (s.answer (.bit b))
  | none => .next (s.raise (.badSymbol sym none))

/-- `DECODE W, N` (R200). -/
def execDecodeFrame (w : List Word) (n : Nat) (s : State) : Host.Outcome State Fault Refusal :=
  if 72 * n ≤ 32 * w.length then
    match decodeOf w n with
    | .ok cws => .next (s.answer (.cwords cws))
    | .error e => .next (s.raise e)
  else .refused (.decodePastFrame n w.length)

/-- `PLACE` form A (R189): word `w`, offset `off`. -/
def execPlaceA (w off : Nat) (sym : Sym) (s : State) : Host.Outcome State Fault Refusal :=
  s.placeInFrame (32 * w + (29 - off)) (32 * w + 31) (placeFormA s.enc.w w off sym)

/-- `PLACE` form B (R190): words `w` and `w + 1`. -/
def execPlaceB (w : Nat) (sym : Sym) (s : State) : Host.Outcome State Fault Refusal :=
  s.placeInFrame (32 * w + 30) (32 * w + 32) (placeFormB s.enc.w w sym)

/-- `PLACE` form C (R191): words `w` and `w + 1`. -/
def execPlaceC (w : Nat) (sym : Sym) (s : State) : Host.Outcome State Fault Refusal :=
  s.placeInFrame (32 * w + 31) (32 * w + 33) (placeFormC s.enc.w w sym)

end Sys2Proof.Machine
end

