-- ==== Sys2Proof/Machine/Formats.lean ====
section
/-! DEFINITION. The fixed-width formats of the table (R92, R93, R101 to R106): the word the format makes of its
fields is returned, and nothing else changes (log entry 18). -/

namespace Sys2Proof.Machine

/-- `SYM0` (R93): the symbol of logical 0. -/
def execSym0 (s : State) : Host.Outcome State Fault Refusal := .next (s.answer (.sym 0b100#3))

/-- `SYM1` (R93): the symbol of logical 1. -/
def execSym1 (s : State) : Host.Outcome State Fault Refusal := .next (s.answer (.sym 0b110#3))

/-- `SYM` (R93): `1b0`. -/
def execSym (bit : Bool) (s : State) : Host.Outcome State Fault Refusal := .next (s.answer (.sym (symbolOf bit)))

/-- `CW` (R92). -/
def execCw (g r b : Byte) (s : State) : Host.Outcome State Fault Refusal :=
  .next (s.answer (.cword (colorWordOf r g b)))

/-- `CTLW` (R101) under the machine's layout. -/
def execCtlw (f : CtlFields) (s : State) : Host.Outcome State Fault Refusal :=
  .next (s.answer (.word (s.cfg.layout.ctlWord f)))

/-- `STAW` (R102) under the machine's layout. -/
def execStaw (f : StaFields) (s : State) : Host.Outcome State Fault Refusal :=
  .next (s.answer (.word (s.cfg.layout.staWord f)))

/-- `RNGW` (R103). -/
def execRngw (v : Word) (s : State) : Host.Outcome State Fault Refusal := .next (s.answer (.word v))

/-- `DATW` (R103). -/
def execDatw (v : Word) (s : State) : Host.Outcome State Fault Refusal := .next (s.answer (.word v))

/-- `FIFW` (R103). -/
def execFifw (v : Word) (s : State) : Host.Outcome State Fault Refusal := .next (s.answer (.word v))

/-- `CMCTLW` (R105) under the machine's layout. -/
def execCmctlw (p : Byte) (busy enab : Bool) (s : State) : Host.Outcome State Fault Refusal :=
  .next (s.answer (.word (s.cfg.layout.cmctlWord p busy enab)))

/-- `CMDIVW` (R106) under the machine's layout. -/
def execCmdivw (p : Byte) (divi : BitVec 12) (s : State) : Host.Outcome State Fault Refusal :=
  .next (s.answer (.word (s.cfg.layout.cmdivWord p divi)))

end Sys2Proof.Machine
end

