-- ==== Sys2Proof/Machine/Frame.lean ====
section
/-! DEFINITION. Family FRM: the frame cycle (R210 to R214). -/

namespace Sys2Proof.Machine

/-- `PUSHFRAME c, pixels, b` (R210): `ENCODE` and the two checks in R229's order are its first step, before any
register is touched; the host's later turns take the transactions. -/
def execPushFrame (c : ChanId) (pixels : List Pixel) (b : Brightness) (s : State) :
    Host.Outcome State Fault Refusal :=
  if brtInRange b then
    let frame := encodeOf s.cfg pixels b
    if s.cfg.fifoDepth < frame.length then .next (s.raise (.frameTooLong pixels.length frame.length))
    else .next { s with
      enc := { s.enc with pix := pixels, brt := b }
      host := { s.host with todo := frameSeq c frame pixels.length ++ s.host.todo, polls := 0 } }
  else .next (s.raise (.brightnessRange b))

/-- `HOLD c, nbits` (R213). -/
def execHold (c : ChanId) (nbits : Nat) (s : State) : Host.Outcome State Fault Refusal :=
  .next (s.startSeq [.awaitTicks c nbits])

/-- `LATCHWAIT` (R214): "a step with no effect". -/
def execLatchWait (s : State) : Host.Outcome State Fault Refusal := .next (s.answer .done)

end Sys2Proof.Machine
end

