-- ==== Sys2Proof/Machine/HostOps.lean ====
section
/-! DEFINITION. Family HOST: the host operations on the PWM channel (R160 to R171). An operation of several
steps takes its first; the host's later turns take the others. -/

namespace Sys2Proof.Machine

/-- `CONFIGURE c, range, divisor, mode, useFifo` (R160, R162). -/
def execConfigure (c : Nat) (range : Word) (divisor : Nat) (mode : Mode) (uf : Bool) (s : State) :
    Host.Outcome State Fault Refusal :=
  match chanOfId c with
  | none => .next (s.raise (.invalidChannel c))
  | some ch => .next (s.startSeq (configureSeq ch range divisor mode uf))

/-- `PUSHWORD v` (R167). -/
def execPushWord (v : Word) (s : State) : Host.Outcome State Fault Refusal := .next (s.startSeq (pushWordSeq v))

/-- `PUSHFIFO words` (R168). -/
def execPushFifo (words : List Word) (s : State) : Host.Outcome State Fault Refusal :=
  .next (s.startSeq (pushFifoSeq words))

/-- `ENABLE c` (R169). -/
def execEnable (c : ChanId) (s : State) : Host.Outcome State Fault Refusal := .next (s.startSeq (enableSeq c))

/-- `DISABLE c` (R170). -/
def execDisable (c : ChanId) (s : State) : Host.Outcome State Fault Refusal := .next (s.startSeq (disableSeq c))

/-- `CLEARFIFO` (R171). -/
def execClearFifo (s : State) : Host.Outcome State Fault Refusal := .next (s.startSeq clearFifoSeq)

end Sys2Proof.Machine
end

