-- ==== Sys2Proof/Machine/Register.lean ====
section
/-! DEFINITION. Family REG: the register transactions (R120 to R137). -/

namespace Sys2Proof.Machine

/-- `RD_CTL` (R121). -/
def execRdCtl (s : State) : Host.Outcome State Fault Refusal := .next (s.answer (.word s.readCtl))

/-- `WR_CTL v` (R122). -/
def execWrCtl (v : Word) (s : State) : Host.Outcome State Fault Refusal := .next ((s.writeCtl v).answer .done)

/-- `RD_STA` (R123). -/
def execRdSta (s : State) : Host.Outcome State Fault Refusal := .next (s.answer (.word s.readSta))

/-- `WR_STA v` (R124). -/
def execWrSta (v : Word) (s : State) : Host.Outcome State Fault Refusal := .next ((s.writeSta v).answer .done)

/-- `RD_RNG c` (R125). -/
def execRdRng (c : ChanId) (s : State) : Host.Outcome State Fault Refusal := .next (s.answer (.word (s.chan c).rng))

/-- `WR_RNG c, v` (R126). -/
def execWrRng (c : ChanId) (v : Word) (s : State) : Host.Outcome State Fault Refusal :=
  .next ((s.writeRng c v).answer .done)

/-- `RD_DAT c` (R127). -/
def execRdDat (c : ChanId) (s : State) : Host.Outcome State Fault Refusal := .next (s.answer (.word (s.chan c).dat))

/-- `WR_DAT c, v` (R128). -/
def execWrDat (c : ChanId) (v : Word) (s : State) : Host.Outcome State Fault Refusal :=
  .next ((s.writeDat c v).answer .done)

/-- `WR_FIF v` (R129). -/
def execWrFif (v : Word) (s : State) : Host.Outcome State Fault Refusal := .next ((s.writeFif v).answer .done)

/-- `RD_FIF` (R130): a free 32-bit value; nothing is popped and no register changes. -/
def execRdFif (s : State) : Host.Outcome State Fault Refusal :=
  .next { s.answer (.word (Config.freeWord s.fresh)) with fresh := s.fresh + 1 }

/-- `RD_CMCTL` (R133). -/
def execRdCmctl (s : State) : Host.Outcome State Fault Refusal := .next (s.answer (.word s.readCmctl))

/-- `WR_CMCTL v` (R134). -/
def execWrCmctl (v : Word) (s : State) : Host.Outcome State Fault Refusal :=
  .next ((s.writeCmctl v).answer .done)

/-- `RD_CMDIV` (R135). -/
def execRdCmdiv (s : State) : Host.Outcome State Fault Refusal := .next (s.answer (.word s.readCmdiv))

/-- `WR_CMDIV v` (R136). -/
def execWrCmdiv (v : Word) (s : State) : Host.Outcome State Fault Refusal :=
  .next ((s.writeCmdiv v).answer .done)

/-- `UNMAPPED block, offset` (R137): "A model refuses it: the operation has no step". -/
def execUnmapped (blk : Block) (off : Nat) (_s : State) : Host.Outcome State Fault Refusal :=
  .refused (.unmappedAccess blk off)

end Sys2Proof.Machine
end

