-- ==== Sys2Proof/Machine/Dispatch.lean ====
section
/-! DEFINITION. The meaning of each operation: one arm per constructor of `Instr`. -/

namespace Sys2Proof.Machine

def exec (i : Instr) (s : State) : Host.Outcome State Fault Refusal :=
  match i with
  -- family REG
  | .rdCtl => Sys2Proof.Machine.execRdCtl s
  | .wrCtl v => Sys2Proof.Machine.execWrCtl v s
  | .rdSta => Sys2Proof.Machine.execRdSta s
  | .wrSta v => Sys2Proof.Machine.execWrSta v s
  | .rdRng c => Sys2Proof.Machine.execRdRng c s
  | .wrRng c v => Sys2Proof.Machine.execWrRng c v s
  | .rdDat c => Sys2Proof.Machine.execRdDat c s
  | .wrDat c v => Sys2Proof.Machine.execWrDat c v s
  | .wrFif v => Sys2Proof.Machine.execWrFif v s
  | .rdFif => Sys2Proof.Machine.execRdFif s
  | .rdCmctl => Sys2Proof.Machine.execRdCmctl s
  | .wrCmctl v => Sys2Proof.Machine.execWrCmctl v s
  | .rdCmdiv => Sys2Proof.Machine.execRdCmdiv s
  | .wrCmdiv v => Sys2Proof.Machine.execWrCmdiv v s
  | .unmapped blk off => Sys2Proof.Machine.execUnmapped blk off s
  -- family AGT
  | .serTick c => Sys2Proof.Machine.execSerTick c s
  | .cmSettle => Sys2Proof.Machine.execCmSettle s
  | .busErr => Sys2Proof.Machine.execBusErr s
  -- family HOST
  | .configure c range divisor mode uf => Sys2Proof.Machine.execConfigure c range divisor mode uf s
  | .pushWord v => Sys2Proof.Machine.execPushWord v s
  | .pushFifo words => Sys2Proof.Machine.execPushFifo words s
  | .enable c => Sys2Proof.Machine.execEnable c s
  | .disable c => Sys2Proof.Machine.execDisable c s
  | .clearFifo => Sys2Proof.Machine.execClearFifo s
  -- family ENC
  | .scale ch b => Sys2Proof.Machine.execScale ch b s
  | .colorWord r g b => Sys2Proof.Machine.execColorWord r g b s
  | .bitSel cw p => Sys2Proof.Machine.execBitSel cw p s
  | .symbol bit => Sys2Proof.Machine.execSymbol bit s
  | .frameLen n => Sys2Proof.Machine.execFrameLen n s
  | .locate g => Sys2Proof.Machine.execLocate g s
  | .clearFrame fw => Sys2Proof.Machine.execClearFrame fw s
  | .place g sym => Sys2Proof.Machine.execPlace g sym s
  | .encPixel k px b => Sys2Proof.Machine.execEncPixel k px b s
  | .encodeFrame pixels b => Sys2Proof.Machine.execEncodeFrame pixels b s
  | .symDec sym => Sys2Proof.Machine.execSymDec sym s
  | .decodeFrame w n => Sys2Proof.Machine.execDecodeFrame w n s
  -- family FRM
  | .pushFrame c pixels b => Sys2Proof.Machine.execPushFrame c pixels b s
  | .hold c nbits => Sys2Proof.Machine.execHold c nbits s
  | .latchWait => Sys2Proof.Machine.execLatchWait s
  -- the placement forms
  | .placeA w off sym => Sys2Proof.Machine.execPlaceA w off sym s
  | .placeB w sym => Sys2Proof.Machine.execPlaceB w sym s
  | .placeC w sym => Sys2Proof.Machine.execPlaceC w sym s
  -- the fixed-width formats
  | .sym0 => Sys2Proof.Machine.execSym0 s
  | .sym1 => Sys2Proof.Machine.execSym1 s
  | .sym bit => Sys2Proof.Machine.execSym bit s
  | .cw g r b => Sys2Proof.Machine.execCw g r b s
  | .ctlw f => Sys2Proof.Machine.execCtlw f s
  | .staw f => Sys2Proof.Machine.execStaw f s
  | .rngw v => Sys2Proof.Machine.execRngw v s
  | .datw v => Sys2Proof.Machine.execDatw v s
  | .fifw v => Sys2Proof.Machine.execFifw v s
  | .cmctlw p busy enab => Sys2Proof.Machine.execCmctlw p busy enab s
  | .cmdivw p divi => Sys2Proof.Machine.execCmdivw p divi s

end Sys2Proof.Machine
end

