-- ==== Sys2Proof/Machine/Fetch.lean ====
section
/-! DEFINITION. What stands ahead in the run, and placing a descriptor there. -/

namespace Sys2Proof.Machine

/-- The host has no operation in hand. -/
def State.hostIdle (s : State) : Bool := s.host.todo.isEmpty

/-- The operation may be issued now: an agent's step at any time, a host operation when the host is idle (R73:
"each completes ... before the next begins"; R74). -/
def State.mayIssue (s : State) (i : Instr) : Bool := decide (i.agent ≠ .host) || s.hostIdle

/-- The least number of frame words an encoder sub-operation writes into (R188 to R192). -/
def frameNeed : Instr → Nat
  | .place g _ => (g + 2) / 32 + 1
  | .placeA w _ _ => w + 1
  | .placeB w _ => w + 2
  | .placeC w _ => w + 2
  | .encPixel i _ _ => (72 * i + 71) / 32 + 1
  | _ => 0

/-- The working frame made long enough for a sub-operation by zero words, and otherwise as it is. A
sub-operation exists only inside an `ENCODE`, after its `CLEARFRAME` (R27, R63, R187); log entry 19. -/
def State.withFrameFor (s : State) (i : Instr) : State :=
  { s with enc := { s.enc with w := s.enc.w ++ List.replicate (frameNeed i - s.enc.w.length) 0#32 } }

/-- A descriptor placed at the front of the run. -/
def State.placeTurn (s : State) (t : Turn) : State := { s with run := t :: s.run }

/-- The host idle, so that a host operation at the front of the run is issued by the next step. -/
def State.withHostIdle (s : State) : State := { s with host := { s.host with todo := [] } }

/-- A table word placed where the next step takes its descriptor, and what running it takes: an idle host for a
host operation, an open frame for an encoder sub-operation. Bytes no space decodes are placed as an
operation's. -/
def State.placeWord (s : State) (nbits w : Nat) : State :=
  let bs := tableBytes nbits w
  match firstDecoding bs (spacesOfWidth nbits w) with
  | none => s.withHostIdle.placeTurn (.issue .op bs)
  | some (sp, i) =>
    let s' := s.withFrameFor i
    (if i.agent = .host then s'.withHostIdle else s').placeTurn (.issue sp bs)

end Sys2Proof.Machine
end

