-- ==== Sys2Proof/Machine/Step.lean ====
section
/-! DEFINITION. One step of the machine: the next entry of the run (R74). -/

namespace Sys2Proof.Machine

/-- With nothing ahead the host takes its turn; so it does at an entry that gives it one, and at a host
operation that must wait until the one in hand has returned. Any other descriptor is decoded, taken off the run
and executed. -/
def step (s : State) : Host.Outcome State Fault Refusal :=
  match s.run with
  | [] => .next s.hostTurn
  | .host :: rest => .next { s with run := rest }.hostTurn
  | .issue sp bs :: rest =>
    match decode sp bs with
    | .error e => .refused (.badDescriptor e)
    | .ok i => if s.mayIssue i then exec i { s with run := rest } else .next s.hostTurn

/-- `s` with a table word stored where `step` takes its next descriptor. -/
def State.withFetchWord (s : State) (nbits w : Nat) : State := s.placeWord nbits w

end Sys2Proof.Machine
end

