-- ==== Sys2Proof/Safety.lean ====
section
/-! DEFINITION. The terms claims are stated in: well-formed layouts and configurations, the invariant of the
machine, the admitted configuration and the frame cycle's precondition, and several steps in a row. -/

namespace Sys2Proof.Machine

/-! ### Layouts and configurations -/

/-- The bit positions of the fields of `CTL` (R101). -/
def ctlPositions (l : Layout) : List Nat :=
  [l.ctl1.pwen, l.ctl1.mode, l.ctl1.rptl, l.ctl1.sbit, l.ctl1.pola, l.ctl1.usef, l.ctl1.msen,
   l.ctl2.pwen, l.ctl2.mode, l.ctl2.rptl, l.ctl2.sbit, l.ctl2.pola, l.ctl2.usef, l.ctl2.msen, l.clrf]

/-- The bit positions of the fields of `STA` (R102). -/
def staPositions (l : Layout) : List Nat :=
  [l.sta.full, l.sta.empt, l.sta.werr, l.sta.rerr, l.sta.gapo1, l.sta.gapo2, l.sta.berr, l.sta.sta1, l.sta.sta2]

/-- The bit positions of the write password, none when the layout has none. -/
def passPositions (l : Layout) : List Nat :=
  match l.pass with
  | none => []
  | some pw => (List.range 8).map (pw.lsb + ·)

/-- The bit positions of the fields of `CMCTL` (R105). -/
def cmctlPositions (l : Layout) : List Nat := l.cmEnab :: l.cmBusy :: passPositions l

/-- The bit positions of the fields of `CMDIV` (R106). -/
def cmdivPositions (l : Layout) : List Nat := (List.range 12).map (l.diviLsb + ·) ++ passPositions l

/-- The positions are distinct and below 32. -/
def positionsOk (ps : List Nat) : Bool := decide ps.Nodup && ps.all (fun k => decide (k < 32))

/-- The requirements of R104 on any layout: "offsets within a block are distinct multiples of 4; bit positions
within one register are distinct and below 32". -/
def layoutOk (l : Layout) : Bool :=
  decide (allRegs.map (regPlace l)).Nodup && allRegs.all (fun r => decide ((regPlace l r).2 % 4 = 0)) &&
  positionsOk (ctlPositions l) && positionsOk (staPositions l) && positionsOk (cmctlPositions l) &&
  positionsOk (cmdivPositions l)

/-- The thresholds of the exact product at channel value `n`: `1/n`, `2/n`, to `n/n`. -/
def exactCuts (n : Nat) : List ScaleCut :=
  (List.range n).map fun (k : Nat) => { point := { num := (k : Int) + 1, denPred := n - 1 }, above := false }

/-- The thresholds of a table at channel value `n`. -/
def cutsAt (rows : List ScaleRow) (n : Nat) : List ScaleCut :=
  match rowOf rows (BitVec.ofNat 8 n) with
  | some r => r.cuts
  | none => exactCuts n

/-- Whatever brightness has passed the threshold `t` has passed `u`. -/
def cutWithin (t u : ScaleCut) : Bool := brtLe u.point t.point && (t.above || !u.above || !brtLe t.point u.point)

/-- The thresholds of one channel value, one by one, are passed no later at the next (monotony in `ch`). -/
def cutsBelow (ts us : List ScaleCut) : Bool := (List.zip ts us).all fun q => cutWithin q.1 q.2

/-- The laws of R181 for one row of a table: at channel value `n` there are `n` thresholds, none passed at
brightness 0 and all at 1, and against the channel values on either side the row is monotone. -/
def scaleRowOk (rows : List ScaleRow) (r : ScaleRow) : Bool :=
  let n := r.ch.toNat
  let ts := cutsAt rows n
  decide (ts.length = n) && ts.all (fun t => !cutPassed { num := 0, denPred := 0 } t) &&
  ts.all (cutPassed { num := 1, denPred := 0 }) &&
  cutsBelow (cutsAt rows (n - 1)) ts && (decide (n = 255) || cutsBelow ts (cutsAt rows (n + 1)))

/-- The laws of R181 for the parameter `SCALE_FN` (log entry 17). -/
def scaleFnOk : ScaleFn → Bool
  | .exact => true
  | .table rows => rows.all (scaleRowOk rows)
  | .lawful => true

/-- What R8 requires of the parameters. -/
def configOk (cfg : Config) : Bool := decide (1 ≤ cfg.fifoDepth) && layoutOk cfg.layout && scaleFnOk cfg.scaleFn

/-! ### The invariant -/

/-- What every step keeps of a channel: R42's bound, and of a disabled channel a low line when not inverted
(R44), an idle slot where disabling aborts it (R122), no transmitting flag (R122). -/
structure ChanInv (cfg : Config) (x : Chan) : Prop where
  pos_le_len : x.pos ≤ x.len
  off_low : x.ctl.pwen = false → x.ctl.pola = false → x.out = false
  off_idle : x.ctl.pwen = false → cfg.disableAborts = true → x.pos = 0 ∧ x.len = 0
  off_quiet : x.ctl.pwen = false → x.sta = false
  mark_le : x.mark ≤ x.tx.length

/-- What every step keeps of the machine: legal parameters, R35's bound on the FIFO, and both channels'. -/
structure Inv (s : State) : Prop where
  cfg_ok : configOk s.cfg = true
  fifo_le : s.fifo.length ≤ s.cfg.fifoDepth
  chan1 : ChanInv s.cfg s.ch1
  chan2 : ChanInv s.cfg s.ch2

/-! ### The admitted configuration and the frame cycle's precondition -/

/-- `WSCFG(c)` (R12). -/
structure WsCfg (s : State) (c : ChanId) : Prop where
  mode : (s.chan c).ctl.mode = .serializer
  usef : (s.chan c).ctl.usef = true
  rptl : (s.chan c).ctl.rptl = false
  sbit : (s.chan c).ctl.sbit = false
  pola : (s.chan c).ctl.pola = false
  msen : (s.chan c).ctl.msen = false
  rng : (s.chan c).rng = 32#32
  other : (s.chan (otherChan c)).ctl.usef = false

/-- Ready to send (R149, R211): `WSCFG(c)`, the channel disabled, its slot idle, the clock running. -/
structure ReadyToSend (s : State) (c : ChanId) : Prop where
  ws : WsCfg s c
  off : (s.chan c).ctl.pwen = false
  idle : (s.chan c).pos = (s.chan c).len
  clock : s.clockRuns = true

/-! ### Time (R138, R213; no step depends on it, R274) -/

/-- `T_SLOT = CM.DIVI / F_SRC`, in seconds, none where `F_SRC` is open (R213, R234). -/
def State.slotTime (s : State) : Option ℚ := s.cfg.fSrc.map fun f => (s.cm.divi.toNat : ℚ) / (f : ℚ)

/-- The least time `HOLD c, nbits` stands for: `nbits * T_SLOT` (R213). -/
def State.holdTime (s : State) (nbits : Nat) : Option ℚ := s.slotTime.map fun t => (nbits : ℚ) * t

/-! ### Several steps in a row -/

/-- `n` turns of the host with no agent's step between. -/
def hostTurns : Nat → State → State
  | 0, s => s
  | n + 1, s => hostTurns n s.hostTurn

/-- Operations executed one after the other, to the first that does not answer a next state. -/
def execAll : List Instr → State → Host.Outcome State Fault Refusal
  | [], s => .next s
  | i :: is, s =>
    match exec i s with
    | .next t => execAll is t
    | .fault f => .fault f
    | .refused r => .refused r

/-- `n` ticks of channel `c` with no other step between. -/
def ticks (c : ChanId) (n : Nat) (s : State) : Host.Outcome State Fault Refusal :=
  execAll (List.replicate n (.serTick c)) s

/-- A move while the host has an operation in hand: a turn of it, or a hardware agent's step. -/
inductive Move where
  | host
  | tick (c : ChanId)
  | settle
  | busErr
  deriving DecidableEq, Repr

/-- One move. -/
def Move.take (s : State) : Move → Host.Outcome State Fault Refusal
  | .host => .next s.hostTurn
  | .tick c => exec (.serTick c) s
  | .settle => exec .cmSettle s
  | .busErr => exec .busErr s

/-- Moves one after the other, in any order of host and agents (R74), to the first that does not answer a next
state. -/
def runMoves : List Move → State → Host.Outcome State Fault Refusal
  | [], s => .next s
  | m :: ms, s =>
    match m.take s with
    | .next t => runMoves ms t
    | .fault f => .fault f
    | .refused r => .refused r

/-! ### Polls (R76, R226) -/

/-- The step that reads for a poll. -/
def pollMicro : Poll → Micro
  | .clk => .pollClk
  | .berr => .pollBerr
  | .full => .pollFull

/-- The poll would read the wrong value now: the clock manager busy, the bus-error flag set, the FIFO full. -/
def State.pollWrong (s : State) : Poll → Bool
  | .clk => s.cm.busy
  | .berr => s.berr
  | .full => decide (s.fifo.length = s.cfg.fifoDepth)

/-- The channel's ticks take words from the FIFO: enabled, Serializer mode, FIFO-fed, the clock running. -/
def State.drains (s : State) (c : ChanId) : Bool :=
  (s.chan c).ctl.pwen && decide ((s.chan c).ctl.mode = .serializer) && (s.chan c).ctl.usef && s.clockRuns

/-- The state but for what belongs to the encoder and to what the host was answered: the registers, the FIFO,
the line, the clock, the parameters, the run. -/
def hardwareOf (s : State) : State := { s with enc := Enc.idle, res := .none }

end Sys2Proof.Machine
end

