-- ==== Sys2Proof/Certificates/Slice0/Obligations.lean ====
section
/-! DEFINITION. The statements for the provers. Every statement is about every state and every operand its
hypotheses admit; a clause that rests on a choice of the model names its log entry. -/

open Sys2Proof Sys2Proof.Machine

/-! ### The step -/

/-- A step runs the decoded operation: an agent's at any time, the host's when no operation is in hand (R73,
R74). The descriptor is taken off the run and `exec` does the rest. The run as an input is the model's form of
R74's "any sequence" (log entry 2). -/
def Obligations.StepRunsTheDecodedOperation : Prop :=
  ∀ (s : State) (sp : Space) (bs : List Byte) (rest : List Turn) (i : Instr),
    s.run = .issue sp bs :: rest → decode sp bs = .ok i → (i.agent ≠ .host ∨ s.host.todo = []) →
    step s = exec i { s with run := rest }

/-- What else a step does (log entry 2): at the end of the run, at an entry that gives the host a turn, and at a
host operation that must wait, the host takes its next turn; bytes the decoder rejects are refused. -/
def Obligations.StepWithoutAnOperationIsAHostTurn : Prop :=
  ∀ s : State,
    (s.run = [] → step s = .next s.hostTurn) ∧
    (∀ rest, s.run = .host :: rest → step s = .next { s with run := rest }.hostTurn) ∧
    (∀ sp bs rest i, s.run = .issue sp bs :: rest → decode sp bs = .ok i → i.agent = .host → s.host.todo ≠ [] →
      step s = .next s.hostTurn) ∧
    (∀ sp bs rest e, s.run = .issue sp bs :: rest → decode sp bs = .error e → step s = .refused (.badDescriptor e))

/-- Some descriptors written out from R110's selectors, R112's forms and the patterns of R92, R93, R101, R102,
R105 and R106 decode to what they stand for. Operand bytes are the model's (log entry 1). -/
def Obligations.SampleDescriptorsDecode : Prop :=
  decode .op [0x03#8] = .ok .rdSta ∧
  decode .op [0x02#8, 0x22#8, 0x00#8, 0x00#8, 0x00#8] = .ok (.wrCtl 0x00000022#32) ∧
  decode .op [0x10#8, 0x00#8] = .ok (.serTick .ch1) ∧
  decode .op [0x24#8, 0x01#8] = .ok (.disable .ch2) ∧
  decode .op [0x33#8, 0x01#8] = .ok (.symbol true) ∧
  decode .op [0x42#8] = .ok .latchWait ∧
  decode .placeForm [0x1E#8, 0x06#8] = .ok (.placeB 0 0b110#3) ∧
  decode .symConst [0x04#8] = .ok .sym0 ∧
  decode .cw [0x80#8, 0xFF#8, 0x00#8] = .ok (.cw 0x00#8 0xFF#8 0x80#8) ∧
  decode .ctlw [0x22#8, 0x81#8, 0x00#8, 0x00#8] = .ok (.ctlw
    { c1 := { pwen := false, mode := .serializer, rptl := false, sbit := false, pola := false, usef := true,
              msen := false },
      c2 := { pwen := true, mode := .balance, rptl := false, sbit := false, pola := false, usef := false,
              msen := true },
      clrf := false }) ∧
  decode .staw [0x1A#8, 0x02#8, 0x00#8, 0x00#8] = .ok (.staw
    { full := false, empt := true, werr := false, rerr := true, gapo1 := true, gapo2 := false, berr := false,
      sta1 := true, sta2 := false }) ∧
  decode .cmctlw [0x90#8, 0x00#8, 0x00#8, 0x5A#8] = .ok (.cmctlw 0x5A#8 true true) ∧
  decode .cmdivw [0x00#8, 0x80#8, 0x00#8, 0x5A#8] = .ok (.cmdivw 0x5A#8 8#12)

/-- Decode and encode agree: for every well-formed operation, decoding its descriptor, whatever bytes follow it,
gives it back with every operand. -/
def Obligations.DecodingAnEncodedOperationGivesItBack : Prop :=
  ∀ (i : Instr) (tail : List Byte), i.wf = true → decode (encode i).1 ((encode i).2 ++ tail) = .ok i

/-- R110: the selectors of the operation map, and "Every other `OPSEL` value names no operation; a decoder
refuses it", whatever bytes follow. -/
def Obligations.OtherSelectorsAreRefused : Prop :=
  ∀ (b : Byte) (bs : List Byte),
    ¬ (0x01 ≤ b.toNat ∧ b.toNat ≤ 0x12) → ¬ (0x20 ≤ b.toNat ∧ b.toNat ≤ 0x25) →
    ¬ (0x30 ≤ b.toNat ∧ b.toNat ≤ 0x3B) → ¬ (0x40 ≤ b.toNat ∧ b.toNat ≤ 0x42) →
    decode .op (b :: bs) = .error (.unknownOpsel b)

/-! ### Invariants -/

/-- The invariant is kept by every step (R35, R42, R44, R122). -/
def Obligations.EveryStepKeepsTheInvariant : Prop :=
  ∀ s t : State, Inv s → step s = .next t → Inv t

/-- The invariant holds after every reset with legal parameters, whatever the registers R50 leaves open hold. -/
def Obligations.ResetMeetsTheInvariant : Prop :=
  ∀ (cfg : Config) (u : OpenAtReset), configOk cfg = true → Inv (State.resetWith cfg u)

/-- No step changes a parameter of the run (R47). -/
def Obligations.NoStepChangesTheParameters : Prop :=
  ∀ s t : State, step s = .next t → t.cfg = s.cfg

/-- The state after reset (R50): every control field of both channels 0 (disabled, Balance, no FIFO), the FIFO
empty, the flags clear, the slots idle, no last word, the lines low, nothing emitted, the clock stopped and not
busy, nothing in the encoder (the values written for that are the model's choice, log entry 32), no host operation in
hand; `RNG`, `DAT`, `SR` and `CM.DIVI` are whatever `u` says (U17). `State.reset` is that reset under the default
parameters (log entries 3 and 4). -/
def Obligations.ResetLeavesTheStatedValues : Prop :=
  (∀ (cfg : Config) (u : OpenAtReset), 1 ≤ cfg.fifoDepth →
    let s := State.resetWith cfg u
    (∀ c, (s.chan c).ctl = ctlReset ∧ (s.chan c).pos = 0 ∧ (s.chan c).len = 0 ∧ (s.chan c).last = none ∧
      (s.chan c).out = false ∧ (s.chan c).tx = [] ∧ (s.chan c).gapo = false ∧ (s.chan c).sta = false) ∧
    ctlReset.pwen = false ∧ ctlReset.mode = .balance ∧ ctlReset.rptl = false ∧ ctlReset.sbit = false ∧
    ctlReset.pola = false ∧ ctlReset.usef = false ∧ ctlReset.msen = false ∧
    s.fifo = [] ∧ s.full = false ∧ s.empt = true ∧ s.werr = false ∧ s.rerr = false ∧ s.berr = false ∧
    s.cm.enab = false ∧ s.cm.busy = false ∧ s.enc = Enc.idle ∧ s.host.todo = [] ∧
    s.ch1.rng = u.rng1 ∧ s.ch2.rng = u.rng2 ∧ s.ch1.dat = u.dat1 ∧ s.ch2.dat = u.dat2 ∧
    s.ch1.sr = u.sr1 ∧ s.ch2.sr = u.sr2 ∧ s.cm.divi = u.divi) ∧
  State.reset = State.resetWith Config.default OpenAtReset.default

/-! ### Register transactions -/

/-- `RD_CTL` (R121): the word returned holds every control field at its position, 0 for `CLRF` and 0 in every
reserved bit; nothing else changes. -/
def Obligations.ReadingControlGivesTheFields : Prop :=
  ∀ s : State, layoutOk s.cfg.layout = true →
    ∃ r : Word, exec .rdCtl s = .next { s with res := .word r } ∧
      (∀ c, (s.cfg.layout.ctlBits c).fields r = (s.chan c).ctl) ∧ r.getLsbD s.cfg.layout.clrf = false ∧
      ∀ k, k ∉ ctlPositions s.cfg.layout → r.getLsbD k = false

/-- `RD_STA` (R123): `FULL` and `EMPT` say whether the FIFO is full or empty at this instant, every other flag is
at its position, every reserved bit is 0, and reading clears nothing. -/
def Obligations.ReadingStatusGivesTheFlags : Prop :=
  ∀ s : State, layoutOk s.cfg.layout = true →
    ∃ r : Word, exec .rdSta s = .next { s with res := .word r } ∧
      s.cfg.layout.staFields r =
        { full := decide (s.fifo.length = s.cfg.fifoDepth), empt := decide (s.fifo.length = 0), werr := s.werr,
          rerr := s.rerr, gapo1 := s.ch1.gapo, gapo2 := s.ch2.gapo, berr := s.berr, sta1 := s.ch1.sta,
          sta2 := s.ch2.sta } ∧
      ∀ k, k ∉ staPositions s.cfg.layout → r.getLsbD k = false

/-- `RD_CMCTL` and `RD_CMDIV` (R133, R135): the fields at their positions, 0 elsewhere; nothing changes. -/
def Obligations.ReadingTheClockManagerGivesItsFields : Prop :=
  ∀ s : State, layoutOk s.cfg.layout = true →
    (∃ r : Word, exec .rdCmctl s = .next { s with res := .word r } ∧
      r.getLsbD s.cfg.layout.cmEnab = s.cm.enab ∧ r.getLsbD s.cfg.layout.cmBusy = s.cm.busy ∧
      ∀ k, k ≠ s.cfg.layout.cmEnab → k ≠ s.cfg.layout.cmBusy → r.getLsbD k = false) ∧
    (∃ r : Word, exec .rdCmdiv s = .next { s with res := .word r } ∧
      r.extractLsb' s.cfg.layout.diviLsb 12 = s.cm.divi ∧
      ∀ k, k < s.cfg.layout.diviLsb ∨ s.cfg.layout.diviLsb + 12 ≤ k → r.getLsbD k = false)

/-- `RD_FIF` (R130): some word is returned and no register, flag or FIFO word changes; in particular nothing is
popped. The word is a free value and `fresh` the model's count of them (log entry 9); the statement holds
whatever it is. -/
def Obligations.ReadingTheFifoPortPopsNothing : Prop :=
  ∀ s : State, ∃ x : Word, exec .rdFif s = .next { s with res := .word x, fresh := s.fresh + 1 }

/-- `RD_RNG`, `WR_RNG`, `RD_DAT`, `WR_DAT` (R125 to R128): a read returns the register and changes nothing, a
write changes the one register (and which register was written last, log entry 16); so a read after a write gives
the word written, and a read of the other channel's register what it held. -/
def Obligations.RangeAndDataRegistersHoldWhatIsWritten : Prop :=
  ∀ (s : State) (c : ChanId) (v : Word),
    exec (.rdRng c) s = .next { s with res := .word (s.chan c).rng } ∧
    exec (.rdDat c) s = .next { s with res := .word (s.chan c).dat } ∧
    (∃ t, exec (.wrRng c v) s = .next t ∧
      t = { s.setChan c { s.chan c with rng := v } with res := .done, lastWr := some (.rng c) } ∧
      exec (.rdRng c) t = .next { t with res := .word v } ∧
      exec (.rdRng (otherChan c)) t = .next { t with res := .word (s.chan (otherChan c)).rng }) ∧
    (∃ t, exec (.wrDat c v) s = .next t ∧
      t = { s.setChan c { s.chan c with dat := v } with res := .done, lastWr := some (.dat c) } ∧
      exec (.rdDat c) t = .next { t with res := .word v } ∧
      exec (.rdDat (otherChan c)) t = .next { t with res := .word (s.chan (otherChan c)).dat })

/-- `WR_CTL` (R122): it answers a next state in which each channel's fields are those of the word; `CLRF`
empties the FIFO; a channel disabled by it has no transmitting flag, an idle slot under `DISABLE_ABORTS_SLOT`,
and a low line when not inverted; a channel that stays as it was, or is enabled, keeps its slot, its flag and,
in Serializer mode, its level. Nothing else changes but the count of free values and the register written last
(log entries 8 and 16). -/
def Obligations.WritingControlSetsTheFields : Prop :=
  ∀ (s : State) (v : Word), ∃ t, exec (.wrCtl v) s = .next t ∧
    t.fifo = (if v.getLsbD s.cfg.layout.clrf then [] else s.fifo) ∧
    t = { s with ch1 := t.ch1, ch2 := t.ch2, fifo := t.fifo, res := .done, lastWr := some .ctl, fresh := t.fresh } ∧
    ∀ c, ∃ pos len out sta,
      t.chan c = { s.chan c with
        ctl := (s.cfg.layout.ctlBits c).fields v, pos := pos, len := len, out := out, sta := sta } ∧
      let was := (s.chan c).ctl
      let now := (s.cfg.layout.ctlBits c).fields v
      (was.pwen = true → now.pwen = false →
        sta = false ∧ (s.cfg.disableAborts = true → pos = 0 ∧ len = 0) ∧
        (s.cfg.disableAborts = false → pos = (s.chan c).pos ∧ len = (s.chan c).len) ∧
        (now.pola = false → out = false)) ∧
      (was.pwen = false ∨ now.pwen = true → pos = (s.chan c).pos ∧ len = (s.chan c).len ∧ sta = (s.chan c).sta) ∧
      (now.pwen = true → now.mode = .serializer → out = (s.chan c).out) ∧
      (was.pwen = false → now.pwen = false → was.pola = now.pola → (was.pola = false → (s.chan c).out = false) →
        out = (s.chan c).out)

/-- `WR_CTL` then `RD_CTL` (R108, R121, R122): a field's bit reads as written, `CLRF` and every reserved bit
read 0. -/
def Obligations.ControlReadsBackAsWritten : Prop :=
  ∀ (s : State) (v : Word), layoutOk s.cfg.layout = true →
    ∃ t u r, exec (.wrCtl v) s = .next t ∧ exec .rdCtl t = .next u ∧ u.res = .word r ∧
      ∀ k, r.getLsbD k =
        (v.getLsbD k && decide (k ∈ ctlPositions s.cfg.layout) && decide (k ≠ s.cfg.layout.clrf))

/-- `WR_STA` (R124): each sticky flag is cleared by a 1 at its position and kept by a 0; nothing else changes but
the register written last (log entry 16). The clearing is the spec's general knowledge (log entry 10). -/
def Obligations.WritingStatusClearsTheFlagsGiven : Prop :=
  ∀ (s : State) (v : Word),
    let p := s.cfg.layout.sta
    ∃ t, exec (.wrSta v) s = .next t ∧
      t.werr = (if v.getLsbD p.werr then false else s.werr) ∧
      t.rerr = (if v.getLsbD p.rerr then false else s.rerr) ∧
      t.ch1.gapo = (if v.getLsbD p.gapo1 then false else s.ch1.gapo) ∧
      t.ch2.gapo = (if v.getLsbD p.gapo2 then false else s.ch2.gapo) ∧
      t.berr = (if v.getLsbD p.berr then false else s.berr) ∧
      t = { s with werr := t.werr, rerr := t.rerr, berr := t.berr, ch1 := { s.ch1 with gapo := t.ch1.gapo },
                   ch2 := { s.ch2 with gapo := t.ch2.gapo }, res := .done, lastWr := some .sta }

/-- `WR_FIF` (R129): with room the word goes to the tail and `WERR` keeps its value; without, the word is lost
and `WERR` is set. Nothing else changes but the register written last (log entry 16). -/
def Obligations.WritingTheFifoPortPushesOrFlags : Prop :=
  ∀ (s : State) (v : Word),
    (s.fifo.length < s.cfg.fifoDepth →
      exec (.wrFif v) s = .next { s with fifo := s.fifo ++ [v], res := .done, lastWr := some .fif }) ∧
    (s.cfg.fifoDepth ≤ s.fifo.length →
      exec (.wrFif v) s = .next { s with werr := true, res := .done, lastWr := some .fif })

/-- `WR_CMCTL` and `WR_CMDIV` (R134, R136): a word that carries the password, or any word when the layout has
none, sets `CM.ENAB` or the 12-bit `CM.DIVI` and `CM.BUSY` (log entry 27), and is the register written last (log entry
16); any other word is ignored, and that register is as it was (log entry 26). -/
def Obligations.WritingTheClockManagerNeedsThePassword : Prop :=
  ∀ (s : State) (v : Word),
    let accepted := ∀ pw, s.cfg.layout.pass = some pw → v.extractLsb' pw.lsb 8 = pw.value
    (accepted →
      exec (.wrCmctl v) s = .next { s with
        cm := { s.cm with enab := v.getLsbD s.cfg.layout.cmEnab, busy := true }, res := .done,
        lastWr := some .cmctl } ∧
      exec (.wrCmdiv v) s = .next { s with
        cm := { s.cm with divi := v.extractLsb' s.cfg.layout.diviLsb 12, busy := true }, res := .done,
        lastWr := some .cmdiv }) ∧
    (¬ accepted →
      exec (.wrCmctl v) s = .next { s with res := .done } ∧ exec (.wrCmdiv v) s = .next { s with res := .done })

/-- `UNMAPPED` (R137): "A model refuses it: the operation has no step". -/
def Obligations.UnmappedAccessIsRefused : Prop :=
  ∀ (s : State) (blk : Block) (off : Nat), exec (.unmapped blk off) s = .refused (.unmappedAccess blk off)

/-- The register space (R61, R62, R71, R104): under a legal layout every register is the one found at its own
place, at a multiple of 4, and what is found at a place is a register the layout puts there. -/
def Obligations.EveryRegisterIsFoundAtItsPlace : Prop :=
  ∀ l : Layout, layoutOk l = true →
    (∀ r, regAt l (regPlace l r).1 (regPlace l r).2 = some r ∧ (regPlace l r).2 % 4 = 0) ∧
    (∀ blk off r, regAt l blk off = some r → regPlace l r = (blk, off))

/-! ### The hardware agents -/

/-- `SER_TICK c` loading from the FIFO (R138, R139, R142): an enabled Serializer channel with a running clock,
an idle slot, `USEF = 1`, a word in the FIFO and a range of at least 1 takes the head, latches the range, sets
its transmitting flag (R31; general knowledge, log entry 10) and emits bit 31 of the word. Nothing else changes.
Inverted polarity, a range other than 32 and a second FIFO-fed channel are outside `WSCFG`, where the step rests on
the spec's general knowledge (log entry 6) and is asserted only where the parameters admit it. -/
def Obligations.TickLoadsTheFifosHead : Prop :=
  ∀ (s : State) (c : ChanId) (v : Word) (rest : List Word),
    let x := s.chan c
    x.ctl.pwen = true → x.ctl.mode = .serializer → s.cm.enab = true → s.cm.divi ≠ 0#12 →
    x.pos = x.len → x.ctl.usef = true → s.fifo = v :: rest → x.rng ≠ 0#32 →
    (s.cfg.wsOnly = true → WsCfg s c) →
    let level := v.getLsbD 31 ^^ x.ctl.pola
    exec (.serTick c) s = .next { s.setChan c { x with
        sr := v, last := some v, len := x.rng.toNat, pos := 1, sta := true, out := level,
        tx := x.tx ++ [level] } with fifo := rest }

/-- `SER_TICK c` inside a slot (R142): the bit at the slot position goes out, bit 31 first; only the position, the
line and the record of it change. Inverted polarity (R145), a slot of other than 32 ticks and the 0 past the word's
end are outside `WSCFG` and the spec's general knowledge (log entry 6), asserted only where the parameters admit such
a step. -/
def Obligations.TickShiftsTheNextBitOut : Prop :=
  ∀ (s : State) (c : ChanId),
    let x := s.chan c
    x.ctl.pwen = true → x.ctl.mode = .serializer → s.cm.enab = true → s.cm.divi ≠ 0#12 → x.pos < x.len →
    (s.cfg.wsOnly = true → WsCfg s c) →
    let level := (if x.pos < 32 then x.sr.getLsbD (31 - x.pos) else false) ^^ x.ctl.pola
    exec (.serTick c) s =
      .next (s.setChan c { x with pos := x.pos + 1, out := level, tx := x.tx ++ [level] })

/-- `SER_TICK c` with nothing to send (R141): the silence bit goes out, the gap and read-error flags are set and the
transmitting flag is cleared. The flags' causes are general knowledge (log entry 10); so are the silence bit's and
the polarity's effect (R144, R145) and repeat-last (R143), which are outside `WSCFG` (log entry 6) and asserted only
where the parameters admit such a step. -/
def Obligations.TickUnderrunsOnAnEmptyFifo : Prop :=
  ∀ (s : State) (c : ChanId),
    let x := s.chan c
    x.ctl.pwen = true → x.ctl.mode = .serializer → s.cm.enab = true → s.cm.divi ≠ 0#12 →
    x.pos = x.len → x.ctl.usef = true → s.fifo = [] → (x.ctl.rptl = false ∨ x.last = none) →
    (s.cfg.wsOnly = true → WsCfg s c) →
    let level := x.ctl.sbit ^^ x.ctl.pola
    exec (.serTick c) s = .next { s.setChan c { x with
        gapo := true, sta := false, out := level, tx := x.tx ++ [level] } with rerr := true }

/-- `SER_TICK c` from the data register (R140) and of the last word again (R143). Outside the admitted
configuration: the spec's own supplied rules (log entry 6), asserted where the parameters admit such a step. Either
load makes the word the last word (R43) and sets the transmitting flag (R31), which the rules' pseudocode does not
write out in both (log entries 10 and 21). -/
def Obligations.TickSendsTheDataRegisterOrTheLastWord : Prop :=
  ∀ (s : State) (c : ChanId),
    let x := s.chan c
    x.ctl.pwen = true → x.ctl.mode = .serializer → s.cm.enab = true → s.cm.divi ≠ 0#12 →
    x.pos = x.len → x.rng ≠ 0#32 → s.cfg.wsOnly = false →
    (x.ctl.usef = false →
      let level := x.dat.getLsbD 31 ^^ x.ctl.pola
      exec (.serTick c) s = .next (s.setChan c { x with
        sr := x.dat, last := some x.dat, len := x.rng.toNat, pos := 1, sta := true, out := level,
        tx := x.tx ++ [level] })) ∧
    (∀ v, x.ctl.usef = true → s.fifo = [] → x.ctl.rptl = true → x.last = some v →
      let level := v.getLsbD 31 ^^ x.ctl.pola
      exec (.serTick c) s = .next (s.setChan c { x with
        sr := v, len := x.rng.toNat, pos := 1, sta := true, out := level, tx := x.tx ++ [level] }))

/-- A load needs a range of at least 1 (R139, R140; U3: refused). A tick that loads nothing does not. That a
repeated last word needs it too is the model's reading (log entry 11). A range of 0 is outside `WSCFG`, so the
parameters must admit the step (log entry 6). -/
def Obligations.LoadWithRangeZeroIsRefused : Prop :=
  ∀ (s : State) (c : ChanId),
    let x := s.chan c
    x.ctl.pwen = true → x.ctl.mode = .serializer → s.cm.enab = true → s.cm.divi ≠ 0#12 →
    x.pos = x.len → x.rng = 0#32 → s.cfg.wsOnly = false →
    (x.ctl.usef = false ∨ s.fifo ≠ [] ∨ (x.ctl.rptl = true ∧ x.last ≠ none)) →
    exec (.serTick c) s = .refused (.rangeZeroAtLoad c)

/-- `SER_TICK c` is enabled only for an enabled channel with a running clock (R138): otherwise its turn changes
nothing (log entry 12). In Balance mode nothing is recorded as emitted, and at most the line's level and the
count of free values change (U7, log entry 7). A serializer step outside `WSCFG` is refused by name (R12, D3, U14),
unless the parameters lift that (log entry 6). -/
def Obligations.TickNeedsAnEnabledChannelAndARunningClock : Prop :=
  ∀ (s : State) (c : ChanId),
    ((s.chan c).ctl.pwen = false ∨ s.cm.enab = false ∨ s.cm.divi = 0#12 → exec (.serTick c) s = .next s) ∧
    ((s.chan c).ctl.mode = .balance → ∃ out fresh,
      exec (.serTick c) s = .next { s.setChan c { s.chan c with out := out } with fresh := fresh }) ∧
    ((s.chan c).ctl.pwen = true → s.cm.enab = true → s.cm.divi ≠ 0#12 → (s.chan c).ctl.mode = .serializer →
      s.cfg.wsOnly = true → ¬ WsCfg s c → exec (.serTick c) s = .refused (.outsideWsCfg c))

/-- `CM_SETTLE` (R147) clears `CM.BUSY` and nothing else. `BUS_ERR` (R148) sets `BERR` when the oracle allows it
after the register written last, and otherwise its turn changes nothing; the default oracle never does (log
entries 12 and 16). -/
def Obligations.ClockSettlesAndBusMayErr : Prop :=
  ∀ s : State,
    exec .cmSettle s = .next { s with cm := { s.cm with busy := false } } ∧
    (∀ regs r, s.cfg.berrOracle = .after regs → s.lastWr = some r → r ∈ regs →
      exec .busErr s = .next { s with berr := true }) ∧
    (∀ regs r, s.cfg.berrOracle = .after regs → s.lastWr = some r → r ∉ regs → exec .busErr s = .next s) ∧
    (s.cfg.berrOracle = .never ∨ s.lastWr = none → exec .busErr s = .next s)

/-- The stream theorem (R149). From a ready state, after the write that enables the channel, in every run of
hardware agents' steps without a host step, `m` ticks of the channel emit the first `m` bits of the stream of the
queued words and then zeros; the FIFO loses one word at ticks 1, 33, 65, …; after tick `32 * n`, for `n` words, the
slot is idle, the FIFO empty and `STA[c]` set; the first later tick sets `GAPO[c]` and `RERR` and clears `STA[c]`
(the flags' causes are general knowledge, log entry 10). And the ticks can happen. -/
def Obligations.EnabledChannelSendsTheQueuedStream : Prop :=
  ∀ (s : State) (c : ChanId), layoutOk s.cfg.layout = true → ReadyToSend s c →
    ∃ t, exec (.wrCtl (s.readCtl ||| mask (s.cfg.layout.ctlBits c).pwen)) s = .next t ∧
      (∀ m, ∃ u, ticks c m t = .next u) ∧
      ∀ (is : List Instr) (u : State), (∀ i ∈ is, i.agent ≠ .host) → execAll is t = .next u →
        let m := is.count (.serTick c)
        let n := s.fifo.length
        (u.chan c).tx = (s.chan c).tx ++ (List.range m).map (bitAt s.fifo) ∧
        u.fifo = s.fifo.drop ((m + 31) / 32) ∧
        (m = 32 * n → (u.chan c).pos = (u.chan c).len ∧ u.fifo = [] ∧ (1 ≤ n → (u.chan c).sta = true)) ∧
        (32 * n < m → (u.chan c).gapo = true ∧ u.rerr = true ∧ (u.chan c).sta = false ∧ (u.chan c).out = false) ∧
        (m ≤ 32 * n → (u.chan c).gapo = (s.chan c).gapo ∧ u.rerr = s.rerr)

/-! ### Host operations -/

/-- `CONFIGURE` of a channel id outside {1, 2} (R162, R230): the usage error, with no state changed. -/
def Obligations.ConfigureOfNoChannelIsAUsageError : Prop :=
  ∀ (s : State) (c : Nat) (range : Word) (divisor : Nat) (mode : Mode) (uf : Bool),
    c ≠ 1 → c ≠ 2 → s.host.todo = [] →
    exec (.configure c range divisor mode uf) s = .next { s with res := .failed (.invalidChannel c) }

/-- `CONFIGURE` (R160, R161) with the clock settling after its restart, its writes one by one (host turns: log entry
13). After one host turn the channel is disabled, clock, range, mode and `BERR` as they were; after three the clock
is stopped and after four it has the masked divisor; after five it is restarted, range, mode and `BERR` still as they
were. After `CM_SETTLE` and two more turns the range is written, mode and `BERR` as they were; after four the mode is
written, `USEF` forced to 1 in Serializer mode and taken from the argument in Balance mode, `BERR` as it was; after
five `BERR` is clear; after six the host is idle with the result `done`. The other fields, the other channel's fields,
the other flags and the FIFO are as they were. -/
def Obligations.ConfigureRunsItsFiveSteps : Prop :=
  ∀ (s : State) (c : ChanId) (id : Nat) (range : Word) (divisor : Nat) (mode : Mode) (uf : Bool),
    layoutOk s.cfg.layout = true → chanOfId id = some c → s.host.todo = [] →
    ∃ t u w, exec (.configure id range divisor mode uf) s = .next t ∧
      ((hostTurns 1 t).chan c).ctl = { (s.chan c).ctl with pwen := false } ∧
      ((hostTurns 1 t).chan c).rng = (s.chan c).rng ∧ (hostTurns 1 t).cm = s.cm ∧ (hostTurns 1 t).berr = s.berr ∧
      (hostTurns 3 t).cm = { enab := false, busy := true, divi := s.cm.divi } ∧
      (hostTurns 4 t).cm = { enab := false, busy := true, divi := BitVec.ofNat 12 divisor } ∧
      hostTurns 5 t = u ∧ u.cm = { enab := true, busy := true, divi := BitVec.ofNat 12 divisor } ∧
      (u.chan c).rng = (s.chan c).rng ∧ (u.chan c).ctl = { (s.chan c).ctl with pwen := false } ∧ u.berr = s.berr ∧
      execAll [.cmSettle] u = .next w ∧
      ((hostTurns 2 w).chan c).rng = range ∧
      ((hostTurns 2 w).chan c).ctl = { (s.chan c).ctl with pwen := false } ∧ (hostTurns 2 w).berr = s.berr ∧
      ((hostTurns 4 w).chan c).ctl = { (s.chan c).ctl with
        pwen := false, mode := mode, usef := (if mode = .serializer then true else uf) } ∧
      (hostTurns 4 w).berr = s.berr ∧ (hostTurns 5 w).berr = false ∧
      let e := hostTurns 6 w
      e.host.todo = [] ∧ e.res = .done ∧
      e.cm = { enab := true, busy := false, divi := BitVec.ofNat 12 divisor } ∧
      (e.chan c).rng = range ∧
      (e.chan c).ctl = { (s.chan c).ctl with
        pwen := false, mode := mode, usef := (if mode = .serializer then true else uf) } ∧
      (e.chan (otherChan c)).ctl = (s.chan (otherChan c)).ctl ∧
      (e.chan (otherChan c)).rng = (s.chan (otherChan c)).rng ∧
      e.berr = false ∧ e.werr = s.werr ∧ e.rerr = s.rerr ∧ e.fifo = s.fifo ∧ e.run = s.run ∧
      (∀ d, (e.chan d).dat = (s.chan d).dat ∧ (e.chan d).tx = (s.chan d).tx ∧ (e.chan d).gapo = (s.chan d).gapo)

/-- `PUSHWORD` with room (R167): the poll reads not full, the next turn pushes the word, and the operation
returns; `WERR` is not touched, and the register written last is `FIF` (log entry 16). -/
def Obligations.PushWordPushesWhenThereIsRoom : Prop :=
  ∀ (s : State) (v : Word), layoutOk s.cfg.layout = true → s.host.todo = [] →
    s.fifo.length < s.cfg.fifoDepth →
    ∃ t, exec (.pushWord v) s = .next t ∧ t.fifo = s.fifo ∧ hardwareOf t = { hardwareOf s with host := t.host } ∧
      hardwareOf t.hostTurn =
        { hardwareOf s with fifo := s.fifo ++ [v], lastWr := some .fif, host := t.hostTurn.host } ∧
      t.hostTurn.host.todo = [] ∧ t.hostTurn.res = .done

/-- `PUSHWORD` never overflows (R167): between the poll that reads not full and the push, whatever steps the
hardware agents take, there stays room, so the push appends the word and `WERR` keeps its value. -/
def Obligations.NoAgentFillsTheFifo : Prop :=
  ∀ (s t : State) (is : List Instr) (v : Word) (rest : List Micro),
    s.host.todo = .push v :: rest → s.fifo.length < s.cfg.fifoDepth → (∀ i ∈ is, i.agent ≠ .host) →
    execAll is s = .next t →
    t.host.todo = .push v :: rest ∧ t.hostTurn.fifo = t.fifo ++ [v] ∧ t.hostTurn.werr = s.werr ∧
      ∃ k, t.fifo = s.fifo.drop k

/-- The three polls without a limit (R76, R226, R263). A host that waits for `CMCTL.BUSY`, for `STA.BERR` or for
`STA.FULL` waits on while nothing brings the value it waits for: in every run of host turns and agents' steps with no
`CM_SETTLE`; in every run at all once `BERR` is set; in every run whose ticks take no word from the full FIFO. The
host's place is unchanged, and FIFO and `WERR` are as they were. `PUSHWORD` to a full FIFO and `CONFIGURE` with its
clock restarted come to such a wait. -/
def Obligations.PollsWithoutALimitWaitForEver : Prop :=
  (∀ (s t : State) (ms : List Move) (p : Poll) (rest : List Micro), layoutOk s.cfg.layout = true →
    pollLimit s.cfg p = none → s.host.todo = pollMicro p :: rest → s.pollWrong p = true → runMoves ms s = .next t →
    (p = .clk → Move.settle ∉ ms) → (p = .full → ∀ c, Move.tick c ∈ ms → s.drains c = false) →
    t.host = s.host ∧ t.pollWrong p = true ∧ t.werr = s.werr ∧ (p = .full → t.fifo = s.fifo)) ∧
  (∀ (s : State) (v : Word), layoutOk s.cfg.layout = true → s.cfg.pollLimitFull = none →
    s.fifo.length = s.cfg.fifoDepth → s.host.todo = [] →
    ∃ t, exec (.pushWord v) s = .next t ∧ t.host.todo = [pollMicro .full, .push v] ∧
      hardwareOf t = { hardwareOf s with host := t.host }) ∧
  (∀ (s : State) (c : ChanId) (id : Nat) (range : Word) (divisor : Nat) (mode : Mode) (uf : Bool),
    layoutOk s.cfg.layout = true → chanOfId id = some c → s.host.todo = [] →
    ∃ t, exec (.configure id range divisor mode uf) s = .next t ∧
      (hostTurns 5 t).host.todo.head? = some (pollMicro .clk) ∧ (hostTurns 5 t).pollWrong .clk = true)

/-- The three polls under a limit (R226): of `n + 1` reads of the wrong value in a row the last raises `TimingStall`
with the poll's name, and the operation has ended with the writes before the poll in place and none after it (log
entry 15). So `PUSHWORD` to a full FIFO pushes nothing, and `CONFIGURE` with a clock that does not settle leaves the
channel disabled and the divisor written, range, mode and `BERR` as they were. -/
def Obligations.PollLimitsEndTheWait : Prop :=
  (∀ (s : State) (p : Poll) (n : Nat) (rest : List Micro), layoutOk s.cfg.layout = true →
    pollLimit s.cfg p = some (n + 1) → s.host.todo = pollMicro p :: rest → s.host.polls = 0 → s.pollWrong p = true →
    (∀ k ≤ n, hostTurns k s = { s with host := { s.host with polls := k } }) ∧
    hostTurns (n + 1) s =
      { s with host := { s.host with todo := [], polls := n }, res := .failed (.timingStall p) }) ∧
  (∀ (s : State) (v : Word) (n : Nat), layoutOk s.cfg.layout = true → s.cfg.pollLimitFull = some (n + 1) →
    s.fifo.length = s.cfg.fifoDepth → s.host.todo = [] →
    ∃ t, exec (.pushWord v) s = .next t ∧
      (∀ k < n, (hostTurns k t).host.todo ≠ []) ∧
      (hostTurns n t).host.todo = [] ∧ (hostTurns n t).res = .failed (.timingStall .full) ∧
      (hostTurns n t).fifo = s.fifo ∧ (hostTurns n t).werr = s.werr) ∧
  (∀ (s : State) (c : ChanId) (id : Nat) (range : Word) (divisor : Nat) (mode : Mode) (uf : Bool) (n : Nat),
    layoutOk s.cfg.layout = true → chanOfId id = some c → s.cfg.pollLimitClk = some (n + 1) → s.host.todo = [] →
    ∃ t, exec (.configure id range divisor mode uf) s = .next t ∧
      let e := hostTurns (5 + (n + 1)) t
      e.host.todo = [] ∧ e.res = .failed (.timingStall .clk) ∧
      e.cm = { enab := true, busy := true, divi := BitVec.ofNat 12 divisor } ∧
      (e.chan c).ctl = { (s.chan c).ctl with pwen := false } ∧ (e.chan c).rng = (s.chan c).rng ∧
      e.berr = s.berr)

/-- `PUSHFIFO` (R168): words that fit are appended in order, one poll and one push a word, and the operation
returns; the empty list reads and writes no register (turns of the host: log entry 13). -/
def Obligations.PushFifoAppendsTheWordsInOrder : Prop :=
  ∀ (s : State) (words : List Word), layoutOk s.cfg.layout = true → s.host.todo = [] →
    s.fifo.length + words.length ≤ s.cfg.fifoDepth →
    ∃ t, exec (.pushFifo words) s = .next t ∧
      (words = [] → t = { s with res := .done }) ∧
      (hostTurns (2 * words.length - 1) t).fifo = s.fifo ++ words ∧
      (hostTurns (2 * words.length - 1) t).host.todo = [] ∧ (hostTurns (2 * words.length - 1) t).res = .done ∧
      hardwareOf (hostTurns (2 * words.length - 1) t) =
        { hardwareOf s with
          fifo := s.fifo ++ words
          host := (hostTurns (2 * words.length - 1) t).host
          lastWr := (hostTurns (2 * words.length - 1) t).lastWr }

/-- `ENABLE c` (R169): after its two transactions `PWEN[c]` is 1 and nothing else of registers, FIFO, flags and clock
has changed but the register written last (log entry 16). The line keeps its level, but for a channel enabled into
Balance mode, where it is open (U7, log entry 7). The place in `TX[c]` is marked for `HOLD` (log entry 14). -/
def Obligations.EnableSetsTheEnableBitOnly : Prop :=
  ∀ (s : State) (c : ChanId), Inv s → s.host.todo = [] →
    let x := s.chan c
    ∃ t out fresh, exec (.enable c) s = .next t ∧ t.hostTurn.host.todo = [] ∧
      t.hostTurn = { s.setChan c { x with ctl := { x.ctl with pwen := true }, out := out, mark := x.tx.length } with
        host := t.hostTurn.host, res := .done, lastWr := some .ctl, fresh := fresh } ∧
      (x.ctl.mode = .serializer ∨ x.ctl.pwen = true → out = x.out ∧ fresh = s.fresh)

/-- `DISABLE c` (R170, R122): after its two transactions `PWEN[c]` is 0 and the transmitting flag clear; the slot
is idle under `DISABLE_ABORTS_SLOT` and as it was otherwise; a line that is not inverted is low, and an inverted
one's level is open (U6, log entry 8); the FIFO keeps its words and nothing else changes but the
register written last (log entry 16). A channel already disabled is left as it is. -/
def Obligations.DisableIdlesTheChannel : Prop :=
  ∀ (s : State) (c : ChanId), Inv s → s.host.todo = [] →
    let x := s.chan c
    ∃ t pos len out fresh, exec (.disable c) s = .next t ∧ t.hostTurn.host.todo = [] ∧
      t.hostTurn = { s.setChan c { x with
          ctl := { x.ctl with pwen := false }, pos := pos, len := len, sta := false, out := out } with
        host := t.hostTurn.host, res := .done, lastWr := some .ctl, fresh := fresh } ∧
      (s.cfg.disableAborts = true → pos = 0 ∧ len = 0) ∧
      (s.cfg.disableAborts = false → pos = x.pos ∧ len = x.len) ∧
      (x.ctl.pola = false → out = false ∧ fresh = s.fresh) ∧
      (x.ctl.pwen = false → pos = x.pos ∧ len = x.len ∧ out = x.out ∧ fresh = s.fresh ∧ x.sta = false)

/-- `CLEARFIFO` (R171): after its two transactions the FIFO is empty and every control field, the shifters, the
sticky flags and the lines are as they were; the register written last is `CTL` (log entry 16). -/
def Obligations.ClearFifoEmptiesTheFifoOnly : Prop :=
  ∀ s : State, Inv s → s.host.todo = [] →
    ∃ t, exec .clearFifo s = .next t ∧ t.hostTurn.host.todo = [] ∧
      t.hostTurn = { s with fifo := [], host := t.hostTurn.host, res := .done, lastWr := some .ctl }

/-! ### The encoder -/

/-- `SCALE` (R181) by the exact product, the default of D6: the result is the greatest natural number not above `ch * b`, written
without division, and nothing changes. -/
def Obligations.ScaleIsTheFloorOfTheExactProduct : Prop :=
  ∀ (s : State) (ch : Byte) (b : Brightness), s.cfg.scaleFn = .exact → brtInRange b = true →
    ∃ r : Byte, exec (.scale ch b) s = .next { s with res := .byte r } ∧
      (r.toNat : Int) * (brtDen b : Int) ≤ (ch.toNat : Int) * b.num ∧
      (ch.toNat : Int) * b.num < ((r.toNat : Int) + 1) * (brtDen b : Int)

/-- The laws of `SCALE_FN` (R181) under any legal parameters: 0 at `b = 0`, `ch` at `b = 1`, 0 at `ch = 0`, never
above `ch`, monotone in both arguments; and `SCALE` returns its value and changes nothing (log entry 17). -/
def Obligations.ScaleKeepsItsLaws : Prop :=
  ∀ (s : State) (ch : Byte) (b : Brightness), configOk s.cfg = true → brtInRange b = true →
    exec (.scale ch b) s = .next { s with res := .byte (scaleFn s.cfg ch b) } ∧
    (b.num = 0 → scaleFn s.cfg ch b = 0#8) ∧ (b.num = (brtDen b : Int) → scaleFn s.cfg ch b = ch) ∧
    scaleFn s.cfg 0#8 b = 0#8 ∧ scaleFn s.cfg ch b ≤ ch ∧
    ∀ (ch' : Byte) (b' : Brightness), brtInRange b' = true → ch ≤ ch' →
      b.num * (brtDen b' : Int) ≤ b'.num * (brtDen b : Int) → scaleFn s.cfg ch b ≤ scaleFn s.cfg ch' b'

/-- Encoder operations outside their operand domains. A brightness outside [0, 1] (U8), a placement or a pixel past
the end of the frame (R188) and more pixels than the frame holds (R200) are refused by name (log entries 29 and 30).
`BITSEL` past the last bit runs, its answer some bit that the spec does not state (a free value, log entry 33). -/
def Obligations.EncoderOperandsOutsideTheirDomains : Prop :=
  ∀ (s : State),
    (∀ ch b, brtInRange b = false → exec (.scale ch b) s = .refused .brightnessOutsideRange) ∧
    (∀ i px b, brtInRange b = false → exec (.encPixel i px b) s = .refused .brightnessOutsideRange) ∧
    (∀ i px b, brtInRange b = true → 32 * s.enc.w.length ≤ 72 * i + 71 →
      exec (.encPixel i px b) s = .refused (.outsideFrame (72 * i))) ∧
    (∀ g sym, 32 * s.enc.w.length ≤ g + 2 → exec (.place g sym) s = .refused (.outsideFrame g)) ∧
    (∀ k off sym, s.enc.w.length ≤ k →
      exec (.placeA k off sym) s = .refused (.outsideFrame (32 * k + (29 - off)))) ∧
    (∀ k sym, s.enc.w.length ≤ k + 1 →
      exec (.placeB k sym) s = .refused (.outsideFrame (32 * k + 30)) ∧
      exec (.placeC k sym) s = .refused (.outsideFrame (32 * k + 31))) ∧
    (∀ cw p, 23 < p → ∃ b, exec (.bitSel cw p) s = .next { s with res := .bit b, fresh := s.fresh + 1 }) ∧
    (∀ w n, 32 * w.length < 72 * n → exec (.decodeFrame w n) s = .refused (.decodePastFrame n w.length))

/-- `COLORWORD` (R182), the format `CW` (R92) and `UNPACK` (R200): green on top, red in the middle, blue at the
bottom. `COLORWORD` writes `CW` as well as returning it; the format row only returns it (log entry 18). -/
def Obligations.ColorWordPutsGreenOnTop : Prop :=
  ∀ (s : State) (r g b : Byte), ∃ w : CWord,
    exec (.colorWord r g b) s = .next { s with enc := { s.enc with cw := w }, res := .cword w } ∧
    exec (.cw g r b) s = .next { s with res := .cword w } ∧
    w.extractLsb' 16 8 = g ∧ w.extractLsb' 8 8 = r ∧ w.extractLsb' 0 8 = b ∧ unpack w = { r := r, g := g, b := b }

/-- `BITSEL` (R183) is `cw[23 - p]`; so `p = 0` is the top bit of green and `p = 23` the bottom bit of blue. -/
def Obligations.BitSelCountsFromTheTop : Prop :=
  ∀ (s : State) (cw : CWord) (p : Nat), p ≤ 23 →
    exec (.bitSel cw p) s = .next { s with res := .bit (cw.getLsbD (23 - p)) } ∧
    exec (.bitSel cw p) s = .next { s with res := .bit (cw.getMsbD p) }

/-- `SYMBOL` (R184), the symbol formats (R93) and `SYMDEC` (R199): 1 is `110` and 0 is `100`; decoding a symbol
gives its bit, and each of the six other values fails with `BadSymbol`, nothing changed. That `SYMDEC` on its own
reports no position is the model's choice (log entry 29). -/
def Obligations.SymbolsAreOneHundredAndOneHundredTen : Prop :=
  ∀ s : State,
    exec (.symbol true) s = .next { s with enc := { s.enc with sym := 0b110#3 }, res := .sym 0b110#3 } ∧
    exec (.symbol false) s = .next { s with enc := { s.enc with sym := 0b100#3 }, res := .sym 0b100#3 } ∧
    exec .sym0 s = .next { s with res := .sym 0b100#3 } ∧ exec .sym1 s = .next { s with res := .sym 0b110#3 } ∧
    (∀ b, ∃ y : Sym, exec (.sym b) s = .next { s with res := .sym y } ∧
      y.getLsbD 2 = true ∧ y.getLsbD 1 = b ∧ y.getLsbD 0 = false ∧
      exec (.symDec y) s = .next { s with res := .bit b }) ∧
    (∀ y : Sym, y ≠ 0b110#3 → y ≠ 0b100#3 → s.host.todo = [] →
      exec (.symDec y) s = .next { s with res := .failed (.badSymbol y none) })

/-- `FRAMELEN` (R185): the least number of 32-bit words that hold `72*N` stream bits. -/
def Obligations.FrameLengthIsTheLeastThatHoldsThePixels : Prop :=
  ∀ (s : State) (n : Nat), ∃ fw, exec (.frameLen n) s = .next { s with res := .nat fw } ∧
    72 * n ≤ 32 * fw ∧ ∀ k, 72 * n ≤ 32 * k → fw ≤ k

/-- `LOCATE` (R186, R112): the word and the offset say where the symbol's last bit goes, and the form follows
from the offset's sign. That the answer holds the form too is the model's (log entry 23). R186's `g`
is a multiple of 3; that any other `g` follows the same formulas is the model's reading (log entry 20). -/
def Obligations.LocateGivesWordOffsetAndForm : Prop :=
  ∀ (s : State) (g : Nat), ∃ (w : Nat) (off : Int) (f : Form),
    exec (.locate g) s = .next { s with res := .location w off f } ∧
    (g : Int) = 32 * (w : Int) + 29 - off ∧ -2 ≤ off ∧ off ≤ 29 ∧
    (f = .A ↔ 0 ≤ off) ∧ (f = .B ↔ off = -1) ∧ (f = .C ↔ off = -2)

/-- `CLEARFRAME` (R187): the frame is `FW` zero words whatever it held, every bit of its stream is 0, and nothing
else changes. -/
def Obligations.ClearFrameZeroesTheFrame : Prop :=
  ∀ (s : State) (fw : Nat), ∃ w : List Word,
    exec (.clearFrame fw) s = .next { s with enc := { s.enc with w := w }, res := .done } ∧
    w.length = fw ∧ (∀ k < fw, w[k]? = some 0#32) ∧ ∀ g, bitAt w g = false

/-- `PLACE` (R188): whatever the frame held, its three bits are the symbol's, first-sent bit first, every other
bit is as it was, and nothing but the frame changes. R188's `g` is a multiple of 3; that `PLACE` does the same at any
other `g` is the model's reading (log entry 20). -/
def Obligations.PlaceWritesItsThreeBits : Prop :=
  ∀ (s : State) (g : Nat) (sym : Sym), g + 2 < 32 * s.enc.w.length →
    ∃ w : List Word, exec (.place g sym) s = .next { s with enc := { s.enc with w := w }, res := .done } ∧
      w.length = s.enc.w.length ∧
      bitAt w g = sym.getLsbD 2 ∧ bitAt w (g + 1) = sym.getLsbD 1 ∧ bitAt w (g + 2) = sym.getLsbD 0 ∧
      ∀ k, k ≠ g → k ≠ g + 1 → k ≠ g + 2 → bitAt w k = bitAt s.enc.w k

/-- The three forms (R189 to R191) are `PLACE` where their condition holds (R112, R188). That a form is an operation of
its own is the model's (log entry 18), and so is `PLACE` at a position that is no multiple of 3 (log entry 20). -/
def Obligations.PlacementFormsArePlace : Prop :=
  ∀ (s : State) (k : Nat) (sym : Sym),
    (∀ off, off ≤ 29 → k < s.enc.w.length →
      ∃ t, exec (.placeA k off sym) s = .next t ∧ exec (.place (32 * k + (29 - off)) sym) s = .next t) ∧
    (k + 1 < s.enc.w.length →
      (∃ t, exec (.placeB k sym) s = .next t ∧ exec (.place (32 * k + 30) sym) s = .next t) ∧
      (∃ t, exec (.placeC k sym) s = .next t ∧ exec (.place (32 * k + 31) sym) s = .next t))

/-- `ENCPIXEL` (R192): stream bits `72*i` to `72*i + 71` become the pixel's 24 symbols and every other bit of the
frame is as it was; `CW` holds `COLORWORD` of the three channels' `SCALE`s, the cursor stands at the next pixel (R26), and nothing
outside the encoder changes. -/
def Obligations.EncPixelWritesItsSeventyTwoBits : Prop :=
  ∀ (s : State) (i : Nat) (px : Pixel) (b : Brightness), brtInRange b = true →
    72 * i + 71 < 32 * s.enc.w.length →
    ∃ e : Enc, exec (.encPixel i px b) s = .next { s with enc := e, res := .done } ∧
      e.w.length = s.enc.w.length ∧
      e.cw = colorWordOf (scaleFn s.cfg px.r b) (scaleFn s.cfg px.g b) (scaleFn s.cfg px.b b) ∧
      e.i = i + 1 ∧ e.p = 0 ∧ e.g = 72 * (i + 1) ∧
      (∀ p < 24, bitAt e.w (72 * i + 3 * p) = true ∧
        bitAt e.w (72 * i + 3 * p + 1) =
          (colorWordOf (scaleFn s.cfg px.r b) (scaleFn s.cfg px.g b) (scaleFn s.cfg px.b b)).getLsbD (23 - p) ∧
        bitAt e.w (72 * i + 3 * p + 2) = false) ∧
      ∀ k, k < 72 * i ∨ 72 * i + 72 ≤ k → bitAt e.w k = bitAt s.enc.w k

/-- The closed form of `ENCODE` (R194, R96, R195): the frame has `FW(N)` words, stream bit `g` of pixel
`g div 72` is 1, a bit of `COLORWORD` of the pixel's three `SCALE`s, or 0 as `g mod 3` says, the padding is 0, and of
the machine only the encoder's inputs and the answer change (log entry 5). -/
def Obligations.EncodeMeetsItsClosedForm : Prop :=
  ∀ (s : State) (pixels : List Pixel) (b : Brightness), brtInRange b = true →
    ∃ F : List Word, exec (.encodeFrame pixels b) s =
        .next { s with enc := { s.enc with pix := pixels, brt := b }, res := .frame F } ∧
      F.length = frameLenOf pixels.length ∧
      (∀ (i p : Nat) (px : Pixel), pixels[i]? = some px → p < 24 →
        bitAt F (72 * i + 3 * p) = true ∧
        bitAt F (72 * i + 3 * p + 1) =
          (colorWordOf (scaleFn s.cfg px.r b) (scaleFn s.cfg px.g b) (scaleFn s.cfg px.b b)).getLsbD (23 - p) ∧
        bitAt F (72 * i + 3 * p + 2) = false) ∧
      ∀ g, 72 * pixels.length ≤ g → bitAt F g = false

/-- Brightness outside [0, 1] (R196, R222, R230): `ENCODE` returns the usage error and changes nothing; the bounds
themselves are accepted. -/
def Obligations.EncodeReportsBrightnessOutsideTheRange : Prop :=
  ∀ (s : State) (pixels : List Pixel) (b : Brightness), s.host.todo = [] →
    (b.num < 0 ∨ (brtDen b : Int) < b.num →
      exec (.encodeFrame pixels b) s = .next { s with res := .failed (.brightnessRange b) }) ∧
    (b.num = 0 ∨ b.num = (brtDen b : Int) → ∃ t F, exec (.encodeFrame pixels b) s = .next t ∧ t.res = .frame F)

/-- The round trip (R201): decoding the frame `ENCODE` returns gives each pixel's colour word, `COLORWORD` of its
three `SCALE`s, for any number of pixels and any brightness in range. -/
def Obligations.DecodingAnEncodedFrameGivesTheColorWords : Prop :=
  ∀ (s : State) (pixels : List Pixel) (b : Brightness), brtInRange b = true →
    ∃ t F, exec (.encodeFrame pixels b) s = .next t ∧ t.res = .frame F ∧
      exec (.decodeFrame F pixels.length) t =
        .next { t with res := .cwords (pixels.map fun px =>
          colorWordOf (scaleFn s.cfg px.r b) (scaleFn s.cfg px.g b) (scaleFn s.cfg px.b b)) }

/-- `DECODE` (R199, R200, R229): with every symbol of the `N` pixels legal it returns `N` colour words, bit
`23 - p` of word `i` being the logical bit of the symbol at `72*i + 3*p`; otherwise it reports the bad symbol of
lowest position. Nothing else changes. That the answer holds the position is R221's record (log entry 29). -/
def Obligations.DecodeReadsEverySymbolOrReportsTheFirstBad : Prop :=
  ∀ (s : State) (w : List Word) (n : Nat), 72 * n ≤ 32 * w.length →
    ((∀ j < 24 * n, symDecOf (symAt w (3 * j)) ≠ none) →
      ∃ cws : List CWord, exec (.decodeFrame w n) s = .next { s with res := .cwords cws } ∧ cws.length = n ∧
        ∀ (i p : Nat) (cw : CWord), cws[i]? = some cw → p < 24 →
          symDecOf (symAt w (72 * i + 3 * p)) = some (cw.getLsbD (23 - p))) ∧
    (∀ k < 24 * n, s.host.todo = [] → (∀ j < k, symDecOf (symAt w (3 * j)) ≠ none) →
      symDecOf (symAt w (3 * k)) = none →
      exec (.decodeFrame w n) s = .next { s with res := .failed (.badSymbol (symAt w (3 * k)) (some (3 * k))) })

/-- The encoder performs no hardware I/O (R195): no operation of its family, form or format changes a register,
a flag, the FIFO, a line, the clock or the host's place. At most the model's count of free values moves, with a
`BITSEL` past the colour word (log entry 33). -/
def Obligations.EncoderTouchesNoHardware : Prop :=
  ∀ (s t : State) (i : Instr), s.host.todo = [] → exec i s = .next t →
    (match i with
      | .scale _ _ | .colorWord _ _ _ | .bitSel _ _ | .symbol _ | .frameLen _ | .locate _ | .clearFrame _
      | .place _ _ | .encPixel _ _ _ | .encodeFrame _ _ | .symDec _ | .decodeFrame _ _
      | .placeA _ _ _ | .placeB _ _ | .placeC _ _ | .sym0 | .sym1 | .sym _ | .cw _ _ _ | .ctlw _ | .staw _
      | .rngw _ | .datw _ | .fifw _ | .cmctlw _ _ _ | .cmdivw _ _ => True
      | _ => False) →
    hardwareOf { t with fresh := s.fresh } = hardwareOf s

/-- The register word formats (R101 to R106): the word returned holds each field at its position under the
machine's layout, the password in its field, 0 in the reserved bits, and nothing changes (log entry 18). -/
def Obligations.FormatWordsHoldTheirFields : Prop :=
  ∀ s : State, layoutOk s.cfg.layout = true →
    (∀ f, ∃ r, exec (.ctlw f) s = .next { s with res := .word r } ∧ s.cfg.layout.ctlFields r = f ∧
      ∀ k, k ∉ ctlPositions s.cfg.layout → r.getLsbD k = false) ∧
    (∀ f, ∃ r, exec (.staw f) s = .next { s with res := .word r } ∧ s.cfg.layout.staFields r = f ∧
      ∀ k, k ∉ staPositions s.cfg.layout → r.getLsbD k = false) ∧
    (∀ v, exec (.rngw v) s = .next { s with res := .word v } ∧ exec (.datw v) s = .next { s with res := .word v } ∧
      exec (.fifw v) s = .next { s with res := .word v }) ∧
    (∀ p busy enab, ∃ r, exec (.cmctlw p busy enab) s = .next { s with res := .word r } ∧
      r.getLsbD s.cfg.layout.cmBusy = busy ∧ r.getLsbD s.cfg.layout.cmEnab = enab ∧
      (∀ pw, s.cfg.layout.pass = some pw → r.extractLsb' pw.lsb 8 = p) ∧
      ∀ k, k ∉ cmctlPositions s.cfg.layout → r.getLsbD k = false) ∧
    (∀ p d, ∃ r, exec (.cmdivw p d) s = .next { s with res := .word r } ∧
      r.extractLsb' s.cfg.layout.diviLsb 12 = d ∧
      (∀ pw, s.cfg.layout.pass = some pw → r.extractLsb' pw.lsb 8 = p) ∧
      ∀ k, k ∉ cmdivPositions s.cfg.layout → r.getLsbD k = false)

/-! ### The frame cycle -/

/-- The checks of `PUSHFRAME` in order (R210, R212, R229, R230): brightness first, then the frame's length
against `FIFO_DEPTH`; either failure leaves the state as it was. -/
def Obligations.PushFrameChecksBeforeItWrites : Prop :=
  ∀ (s : State) (c : ChanId) (pixels : List Pixel) (b : Brightness), s.host.todo = [] →
    (brtInRange b = false →
      exec (.pushFrame c pixels b) s = .next { s with res := .failed (.brightnessRange b) }) ∧
    (brtInRange b = true → s.cfg.fifoDepth < frameLenOf pixels.length →
      exec (.pushFrame c pixels b) s =
        .next { s with res := .failed (.frameTooLong pixels.length (frameLenOf pixels.length)) })

/-- `PUSHFRAME` puts its frame on the line (R210, R211, R215): from a ready state with an empty FIFO and a frame that
fits, in every run of host turns and agents' steps in which it returns, `TX[c]` has grown by the first `m` bits of
the frame's stream followed by zeros, for some `m >= 72*N`, the result is `done`, and the precondition holds again:
channel disabled and in `WSCFG`, FIFO empty, slot idle, line low. The flags say whether `m` went past the frame's
words (log entry 10). And for every `m >= 72*N` it returns in the run whose `m` ticks all fall into the hold (host
turns: log entry 13). -/
def Obligations.PushFramePutsItsFrameOnTheLine : Prop :=
  ∀ (s : State) (c : ChanId) (pixels : List Pixel) (b : Brightness),
    Inv s → ReadyToSend s c → s.fifo = [] → s.host.todo = [] → s.cfg.disableAborts = true →
    brtInRange b = true → frameLenOf pixels.length ≤ s.cfg.fifoDepth →
    ∃ t F, exec (.pushFrame c pixels b) s = .next t ∧ F = encodeOf s.cfg pixels b ∧
      (∀ (ms : List Move) (e : State), runMoves ms t = .next e → e.host.todo = [] →
        ∃ m, 72 * pixels.length ≤ m ∧ e.res = .done ∧
          (e.chan c).tx = (s.chan c).tx ++ (List.range m).map (bitAt F) ∧
          ReadyToSend e c ∧ e.fifo = [] ∧ (e.chan c).out = false ∧ (e.chan c).sta = false ∧
          (32 * F.length < m → (e.chan c).gapo = true ∧ e.rerr = true) ∧
          (m ≤ 32 * F.length → (e.chan c).gapo = (s.chan c).gapo ∧ e.rerr = s.rerr)) ∧
      ∀ m, 72 * pixels.length ≤ m → ∃ e,
        runMoves (List.replicate (2 * F.length + 2) .host ++ List.replicate m (.tick c) ++
          List.replicate 6 .host) t = .next e ∧
        e.host.todo = [] ∧ (e.chan c).tx = (s.chan c).tx ++ (List.range m).map (bitAt F)

/-- `HOLD` (R213): it returns when `nbits` ticks have been emitted since the `ENABLE`, at once for `nbits = 0`,
and waits otherwise, changing nothing but the host's place; each look of a waiting host changes nothing.
`LATCHWAIT` (R214) has no effect. Where `HOLD` counts from is the model's mark (log entry 14). -/
def Obligations.HoldWaitsForItsTicks : Prop :=
  ∀ (s : State) (c : ChanId) (n : Nat), s.host.todo = [] →
    let emitted := (s.chan c).tx.length - (s.chan c).mark
    (n ≤ emitted → ∃ t, exec (.hold c n) s = .next t ∧ t.res = .done ∧ t.host.todo = [] ∧
      hardwareOf t = { hardwareOf s with host := t.host }) ∧
    (emitted < n → ∃ t, exec (.hold c n) s = .next t ∧ t.host.todo ≠ [] ∧
      hardwareOf t = { hardwareOf s with host := t.host } ∧ t.hostTurn = t) ∧
    exec .latchWait s = .next { s with res := .done }
end

