-- ==== Sys2Proof/Laws/State.lean ====
section
/-! SUPPORT. One lemma per field per update of the state: reading a channel after writing one, and what each
update of the state leaves alone. -/

namespace Sys2Proof.Machine

variable (s : State) (c : ChanId) (x : Chan)

/-! ### `chan` after `setChan` -/

@[simp] theorem chan_ch1 : s.chan .ch1 = s.ch1 := rfl
@[simp] theorem chan_ch2 : s.chan .ch2 = s.ch2 := rfl

@[simp] theorem chan_setChan_self : (s.setChan c x).chan c = x := by cases c <;> rfl

@[simp] theorem chan_setChan_other : (s.setChan c x).chan (otherChan c) = s.chan (otherChan c) := by
  cases c <;> rfl

@[simp] theorem otherChan_otherChan : otherChan (otherChan c) = c := by cases c <;> rfl

theorem otherChan_ne : otherChan c ≠ c := by cases c <;> simp [otherChan]

theorem chan_setChan_of_ne {c d : ChanId} (h : d ≠ c) : (s.setChan c x).chan d = s.chan d := by
  cases c <;> cases d <;> first | rfl | exact absurd rfl h

@[simp] theorem setChan_chan_self : s.setChan c (s.chan c) = s := by cases c <;> rfl

@[simp] theorem setChan_setChan (y : Chan) : (s.setChan c x).setChan c y = s.setChan c y := by cases c <;> rfl

/-- A channel is channel 1 or channel 2, seen from any one of them. -/
theorem eq_or_eq_other (d : ChanId) : d = c ∨ d = otherChan c := by cases c <;> cases d <;> simp [otherChan]

/-! ### The other fields after `setChan` -/

@[simp] theorem setChan_cfg : (s.setChan c x).cfg = s.cfg := by cases c <;> rfl
@[simp] theorem setChan_fifo : (s.setChan c x).fifo = s.fifo := by cases c <;> rfl
@[simp] theorem setChan_werr : (s.setChan c x).werr = s.werr := by cases c <;> rfl
@[simp] theorem setChan_rerr : (s.setChan c x).rerr = s.rerr := by cases c <;> rfl
@[simp] theorem setChan_berr : (s.setChan c x).berr = s.berr := by cases c <;> rfl
@[simp] theorem setChan_cm : (s.setChan c x).cm = s.cm := by cases c <;> rfl
@[simp] theorem setChan_enc : (s.setChan c x).enc = s.enc := by cases c <;> rfl
@[simp] theorem setChan_host : (s.setChan c x).host = s.host := by cases c <;> rfl
@[simp] theorem setChan_res : (s.setChan c x).res = s.res := by cases c <;> rfl
@[simp] theorem setChan_lastWr : (s.setChan c x).lastWr = s.lastWr := by cases c <;> rfl
@[simp] theorem setChan_run : (s.setChan c x).run = s.run := by cases c <;> rfl
@[simp] theorem setChan_fresh : (s.setChan c x).fresh = s.fresh := by cases c <;> rfl

/-! ### `chan` after an update of another field -/

@[simp] theorem chan_cfg (v : Config) : ({ s with cfg := v } : State).chan c = s.chan c := by cases c <;> rfl
@[simp] theorem chan_fifo (v : List Word) : ({ s with fifo := v } : State).chan c = s.chan c := by cases c <;> rfl
@[simp] theorem chan_werr (v : Bool) : ({ s with werr := v } : State).chan c = s.chan c := by cases c <;> rfl
@[simp] theorem chan_rerr (v : Bool) : ({ s with rerr := v } : State).chan c = s.chan c := by cases c <;> rfl
@[simp] theorem chan_berr (v : Bool) : ({ s with berr := v } : State).chan c = s.chan c := by cases c <;> rfl
@[simp] theorem chan_cm (v : ClockMgr) : ({ s with cm := v } : State).chan c = s.chan c := by cases c <;> rfl
@[simp] theorem chan_enc (v : Enc) : ({ s with enc := v } : State).chan c = s.chan c := by cases c <;> rfl
@[simp] theorem chan_host (v : HostSeq) : ({ s with host := v } : State).chan c = s.chan c := by cases c <;> rfl
@[simp] theorem chan_res (v : Result) : ({ s with res := v } : State).chan c = s.chan c := by cases c <;> rfl
@[simp] theorem chan_lastWr (v : Option Reg) : ({ s with lastWr := v } : State).chan c = s.chan c := by
  cases c <;> rfl
@[simp] theorem chan_run (v : List Turn) : ({ s with run := v } : State).chan c = s.chan c := by cases c <;> rfl
@[simp] theorem chan_fresh (v : Nat) : ({ s with fresh := v } : State).chan c = s.chan c := by cases c <;> rfl

/-! ### `answer` and `raise` -/

@[simp] theorem answer_res (r : Result) : (s.answer r).res = r := rfl
@[simp] theorem answer_cfg (r : Result) : (s.answer r).cfg = s.cfg := rfl
@[simp] theorem answer_chan (r : Result) : (s.answer r).chan c = s.chan c := by cases c <;> rfl
@[simp] theorem answer_ch1 (r : Result) : (s.answer r).ch1 = s.ch1 := rfl
@[simp] theorem answer_ch2 (r : Result) : (s.answer r).ch2 = s.ch2 := rfl
@[simp] theorem answer_fifo (r : Result) : (s.answer r).fifo = s.fifo := rfl
@[simp] theorem answer_werr (r : Result) : (s.answer r).werr = s.werr := rfl
@[simp] theorem answer_rerr (r : Result) : (s.answer r).rerr = s.rerr := rfl
@[simp] theorem answer_berr (r : Result) : (s.answer r).berr = s.berr := rfl
@[simp] theorem answer_cm (r : Result) : (s.answer r).cm = s.cm := rfl
@[simp] theorem answer_enc (r : Result) : (s.answer r).enc = s.enc := rfl
@[simp] theorem answer_host (r : Result) : (s.answer r).host = s.host := rfl
@[simp] theorem answer_lastWr (r : Result) : (s.answer r).lastWr = s.lastWr := rfl
@[simp] theorem answer_run (r : Result) : (s.answer r).run = s.run := rfl
@[simp] theorem answer_fresh (r : Result) : (s.answer r).fresh = s.fresh := rfl

@[simp] theorem raise_res (e : Err) : (s.raise e).res = .failed e := rfl
@[simp] theorem raise_cfg (e : Err) : (s.raise e).cfg = s.cfg := rfl
@[simp] theorem raise_chan (e : Err) : (s.raise e).chan c = s.chan c := by cases c <;> rfl
@[simp] theorem raise_ch1 (e : Err) : (s.raise e).ch1 = s.ch1 := rfl
@[simp] theorem raise_ch2 (e : Err) : (s.raise e).ch2 = s.ch2 := rfl
@[simp] theorem raise_fifo (e : Err) : (s.raise e).fifo = s.fifo := rfl
@[simp] theorem raise_werr (e : Err) : (s.raise e).werr = s.werr := rfl
@[simp] theorem raise_rerr (e : Err) : (s.raise e).rerr = s.rerr := rfl
@[simp] theorem raise_berr (e : Err) : (s.raise e).berr = s.berr := rfl
@[simp] theorem raise_cm (e : Err) : (s.raise e).cm = s.cm := rfl
@[simp] theorem raise_enc (e : Err) : (s.raise e).enc = s.enc := rfl
@[simp] theorem raise_todo (e : Err) : (s.raise e).host.todo = [] := rfl
@[simp] theorem raise_run (e : Err) : (s.raise e).run = s.run := rfl
@[simp] theorem raise_fresh (e : Err) : (s.raise e).fresh = s.fresh := rfl

/-- A failure raised while no operation is in hand changes only what the host was answered (R230). -/
theorem raise_of_idle (e : Err) (h : s.host.todo = []) : s.raise e = { s with res := .failed e } := by
  obtain ⟨cfg, ch1, ch2, fifo, werr, rerr, berr, cm, enc, ⟨todo, v, k, polls⟩, res, lastWr, run, fresh⟩ := s
  cases h; rfl

end Sys2Proof.Machine
end

