-- ==== Sys2Proof/Laws/Words.lean ====
section
/-! SUPPORT. Words built of single bits: what a bit of such a word is, and from it the register word formats read
back under a legal layout (R101 to R106). -/

namespace Sys2Proof

/-! ### Masks and one-bit words -/

theorem getLsbD_mask (k j : Nat) : (mask k).getLsbD j = (decide (j = k) && decide (k < 32)) := by
  by_cases h : j = k
  · subst h; by_cases h' : j < 32 <;> simp [mask, h']
  · by_cases h' : j < k
    · simp [mask, h, h']
    · have : j - k ≠ 0 := by omega
      simp [mask, h, this]

theorem getLsbD_bitWord (k j : Nat) (b : Bool) :
    (bitWord k b).getLsbD j = (b && decide (j = k) && decide (k < 32)) := by
  cases b <;> simp [bitWord, getLsbD_mask]

theorem getLsbD_setBit (v : Word) {k : Nat} (h : k < 32) (j : Nat) :
    (v ||| mask k).getLsbD j = (v.getLsbD j || decide (j = k)) := by
  simp [getLsbD_mask, h]

theorem getLsbD_clearBit (v : Word) (k j : Nat) :
    (v &&& ~~~mask k).getLsbD j = (v.getLsbD j && !decide (j = k)) := by
  by_cases hj : j < 32
  · by_cases e : j = k
    · subst e; rw [BitVec.getLsbD_and, BitVec.getLsbD_not, getLsbD_mask]; simp [hj]
    · rw [BitVec.getLsbD_and, BitVec.getLsbD_not, getLsbD_mask]; simp [e, hj]
  · simp [BitVec.getLsbD_of_ge v j (by omega)]

/-- The word made of the bits listed, each at its position. -/
def wordOf : List (Nat × Bool) → Word
  | [] => 0#32
  | (k, b) :: rest => bitWord k b ||| wordOf rest

theorem getLsbD_wordOf_of_notMem {l : List (Nat × Bool)} {j : Nat} (h : j ∉ l.map Prod.fst) :
    (wordOf l).getLsbD j = false := by
  induction l with
  | nil => simp [wordOf]
  | cons x l ih =>
    obtain ⟨k, b⟩ := x
    simp only [List.map_cons, List.mem_cons, not_or] at h
    simp [wordOf, getLsbD_bitWord, h.1, ih h.2]

theorem getLsbD_wordOf_of_mem {l : List (Nat × Bool)} {k : Nat} {b : Bool} (nd : (l.map Prod.fst).Nodup)
    (lt : ∀ j ∈ l.map Prod.fst, j < 32) (h : (k, b) ∈ l) : (wordOf l).getLsbD k = b := by
  induction l with
  | nil => simp at h
  | cons x l ih =>
    obtain ⟨j, c⟩ := x
    simp only [List.map_cons, List.nodup_cons] at nd
    rcases List.mem_cons.1 h with h | h
    · obtain ⟨rfl, rfl⟩ := Prod.mk.inj h
      have := lt k (by simp)
      rw [wordOf, BitVec.getLsbD_or, getLsbD_bitWord, getLsbD_wordOf_of_notMem nd.1]
      simp [this]
    · have hk : k ∈ l.map Prod.fst := List.mem_map.2 ⟨_, h, rfl⟩
      have hne : k ≠ j := fun e => nd.1 (e ▸ hk)
      simp [wordOf, getLsbD_bitWord, hne, ih nd.2 (fun i hi => lt i (by simp [hi])) h]

/-! ### The control word -/

@[simp] theorem Mode.ofBit_toBit (m : Mode) : Mode.ofBit m.toBit = m := by cases m <;> rfl

@[simp] theorem Mode.ofBit_true : Mode.ofBit true = .serializer := rfl

@[simp] theorem Mode.ofBit_false : Mode.ofBit false = .balance := rfl

@[simp] theorem Mode.toBit_ofBit (b : Bool) : (Mode.ofBit b).toBit = b := by cases b <;> rfl

namespace Machine

/-- The fields of a control word with their positions. -/
def ctlPairs (l : Layout) (f : CtlFields) : List (Nat × Bool) :=
  [(l.ctl1.pwen, f.c1.pwen), (l.ctl1.mode, f.c1.mode.toBit), (l.ctl1.rptl, f.c1.rptl), (l.ctl1.sbit, f.c1.sbit),
   (l.ctl1.pola, f.c1.pola), (l.ctl1.usef, f.c1.usef), (l.ctl1.msen, f.c1.msen),
   (l.ctl2.pwen, f.c2.pwen), (l.ctl2.mode, f.c2.mode.toBit), (l.ctl2.rptl, f.c2.rptl), (l.ctl2.sbit, f.c2.sbit),
   (l.ctl2.pola, f.c2.pola), (l.ctl2.usef, f.c2.usef), (l.ctl2.msen, f.c2.msen), (l.clrf, f.clrf)]

theorem ctlPairs_fst (l : Layout) (f : CtlFields) : (ctlPairs l f).map Prod.fst = ctlPositions l := rfl

theorem ctlWord_eq_wordOf (l : Layout) (f : CtlFields) : l.ctlWord f = wordOf (ctlPairs l f) := by
  simp [Layout.ctlWord, CtlBits.word, wordOf, ctlPairs, BitVec.or_assoc]

/-- The fields of a status word with their positions. -/
def staPairs (l : Layout) (f : StaFields) : List (Nat × Bool) :=
  [(l.sta.full, f.full), (l.sta.empt, f.empt), (l.sta.werr, f.werr), (l.sta.rerr, f.rerr), (l.sta.gapo1, f.gapo1),
   (l.sta.gapo2, f.gapo2), (l.sta.berr, f.berr), (l.sta.sta1, f.sta1), (l.sta.sta2, f.sta2)]

theorem staPairs_fst (l : Layout) (f : StaFields) : (staPairs l f).map Prod.fst = staPositions l := rfl

theorem staWord_eq_wordOf (l : Layout) (f : StaFields) : l.staWord f = wordOf (staPairs l f) := by
  simp [Layout.staWord, wordOf, staPairs, BitVec.or_assoc]

/-! ### What a legal layout gives -/

theorem positionsOk_iff {ps : List Nat} : positionsOk ps = true ↔ ps.Nodup ∧ ∀ k ∈ ps, k < 32 := by
  simp [positionsOk]

variable {l : Layout}

theorem layoutOk_ctl (h : layoutOk l = true) : (ctlPositions l).Nodup ∧ ∀ k ∈ ctlPositions l, k < 32 := by
  simp only [layoutOk, Bool.and_eq_true] at h
  exact positionsOk_iff.1 h.1.1.1.2

theorem layoutOk_sta (h : layoutOk l = true) : (staPositions l).Nodup ∧ ∀ k ∈ staPositions l, k < 32 := by
  simp only [layoutOk, Bool.and_eq_true] at h
  exact positionsOk_iff.1 h.1.1.2

theorem layoutOk_cmctl (h : layoutOk l = true) : (cmctlPositions l).Nodup ∧ ∀ k ∈ cmctlPositions l, k < 32 := by
  simp only [layoutOk, Bool.and_eq_true] at h
  exact positionsOk_iff.1 h.1.2

theorem layoutOk_cmdiv (h : layoutOk l = true) : (cmdivPositions l).Nodup ∧ ∀ k ∈ cmdivPositions l, k < 32 := by
  simp only [layoutOk, Bool.and_eq_true] at h
  exact positionsOk_iff.1 h.2

/-- A control word's bit at a field's position is the field (R101). -/
theorem ctlWord_bit (h : layoutOk l = true) {f : CtlFields} {k : Nat} {b : Bool} (hk : (k, b) ∈ ctlPairs l f) :
    (l.ctlWord f).getLsbD k = b := by
  rw [ctlWord_eq_wordOf]
  exact getLsbD_wordOf_of_mem (ctlPairs_fst l f ▸ (layoutOk_ctl h).1) (ctlPairs_fst l f ▸ (layoutOk_ctl h).2) hk

/-- A control word's reserved bits are 0 (R108). -/
theorem ctlWord_reserved (f : CtlFields) {k : Nat} (hk : k ∉ ctlPositions l) : (l.ctlWord f).getLsbD k = false := by
  rw [ctlWord_eq_wordOf]; exact getLsbD_wordOf_of_notMem hk

/-- A status word's bit at a field's position is the field (R102). -/
theorem staWord_bit (h : layoutOk l = true) {f : StaFields} {k : Nat} {b : Bool} (hk : (k, b) ∈ staPairs l f) :
    (l.staWord f).getLsbD k = b := by
  rw [staWord_eq_wordOf]
  exact getLsbD_wordOf_of_mem (staPairs_fst l f ▸ (layoutOk_sta h).1) (staPairs_fst l f ▸ (layoutOk_sta h).2) hk

/-- A status word's reserved bits are 0 (R108). -/
theorem staWord_reserved (f : StaFields) {k : Nat} (hk : k ∉ staPositions l) : (l.staWord f).getLsbD k = false := by
  rw [staWord_eq_wordOf]; exact getLsbD_wordOf_of_notMem hk

/-- The fields of a control word made of fields are those fields. -/
theorem ctlFields_ctlWord (h : layoutOk l = true) (f : CtlFields) : l.ctlFields (l.ctlWord f) = f := by
  have bit : ∀ {k b}, (k, b) ∈ ctlPairs l f → (l.ctlWord f).getLsbD k = b := fun hk => ctlWord_bit h hk
  obtain ⟨⟨a1, a2, a3, a4, a5, a6, a7⟩, ⟨b1, b2, b3, b4, b5, b6, b7⟩, d⟩ := f
  simp only [Layout.ctlFields, CtlBits.fields]
  rw [bit (b := a1) (by simp [ctlPairs]), bit (k := l.ctl1.mode) (b := a2.toBit) (by simp [ctlPairs]),
    bit (k := l.ctl1.rptl) (b := a3) (by simp [ctlPairs]), bit (k := l.ctl1.sbit) (b := a4) (by simp [ctlPairs]),
    bit (k := l.ctl1.pola) (b := a5) (by simp [ctlPairs]), bit (k := l.ctl1.usef) (b := a6) (by simp [ctlPairs]),
    bit (k := l.ctl1.msen) (b := a7) (by simp [ctlPairs]),
    bit (k := l.ctl2.pwen) (b := b1) (by simp [ctlPairs]), bit (k := l.ctl2.mode) (b := b2.toBit) (by simp [ctlPairs]),
    bit (k := l.ctl2.rptl) (b := b3) (by simp [ctlPairs]), bit (k := l.ctl2.sbit) (b := b4) (by simp [ctlPairs]),
    bit (k := l.ctl2.pola) (b := b5) (by simp [ctlPairs]), bit (k := l.ctl2.usef) (b := b6) (by simp [ctlPairs]),
    bit (k := l.ctl2.msen) (b := b7) (by simp [ctlPairs]), bit (k := l.clrf) (b := d) (by simp [ctlPairs])]
  simp

/-- The fields of a status word made of fields are those fields. -/
theorem staFields_staWord (h : layoutOk l = true) (f : StaFields) : l.staFields (l.staWord f) = f := by
  have bit : ∀ {k b}, (k, b) ∈ staPairs l f → (l.staWord f).getLsbD k = b := fun hk => staWord_bit h hk
  obtain ⟨f1, f2, f3, f4, f5, f6, f7, f8, f9⟩ := f
  simp only [Layout.staFields]
  rw [bit (b := f1) (by simp [staPairs]), bit (k := l.sta.empt) (b := f2) (by simp [staPairs]),
    bit (k := l.sta.werr) (b := f3) (by simp [staPairs]), bit (k := l.sta.rerr) (b := f4) (by simp [staPairs]),
    bit (k := l.sta.gapo1) (b := f5) (by simp [staPairs]), bit (k := l.sta.gapo2) (b := f6) (by simp [staPairs]),
    bit (k := l.sta.berr) (b := f7) (by simp [staPairs]), bit (k := l.sta.sta1) (b := f8) (by simp [staPairs]),
    bit (k := l.sta.sta2) (b := f9) (by simp [staPairs])]

/-- The control word's fields, one channel at a time. -/
theorem ctlFields_chan (l : Layout) (v : Word) (c : ChanId) :
    (l.ctlBits c).fields v = match c with | .ch1 => (l.ctlFields v).c1 | .ch2 => (l.ctlFields v).c2 := by
  cases c <;> rfl

end Machine
end Sys2Proof
end

