-- ==== Sys2Proof/Laws/Ops.lean ====
section
/-! SUPPORT. One spec lemma per shared operation over registers, FIFO and line: what it leaves, so that no caller
unfolds it. -/

namespace Sys2Proof.Machine

variable (s : State) (c : ChanId)

/-! ### The control register -/

theorem levelAfter_serializer {was now : CtlChan} {out : Bool} (h : now.pwen = true) (m : now.mode = .serializer) :
    levelAfter was now out = some out := by
  simp [levelAfter, h, m]

theorem levelAfter_low {was now : CtlChan} {out : Bool} (h : now.pwen = false) (p : now.pola = false) :
    levelAfter was now out = some false := by
  simp [levelAfter, h, p]

/-- Control fields written as they are leave the level of a line that is low where it must be. -/
theorem levelAfter_same {f : CtlChan} {out : Bool} (low : f.pwen = false → f.pola = false → out = false) :
    levelAfter f f out = some out := by
  obtain ⟨pwen, mode, rptl, sbit, pola, usef, msen⟩ := f
  cases pwen <;> cases mode <;> cases pola <;> simp_all [levelAfter]

/-- What a write of one channel's control fields leaves (R122). -/
theorem writeCtlChan_eq (now : CtlChan) :
    s.writeCtlChan c now =
      { s.setChan c { s.chan c with
          ctl := now
          pos := if (s.chan c).ctl.pwen && !now.pwen && s.cfg.disableAborts then 0 else (s.chan c).pos
          len := if (s.chan c).ctl.pwen && !now.pwen && s.cfg.disableAborts then 0 else (s.chan c).len
          sta := (s.chan c).sta && !((s.chan c).ctl.pwen && !now.pwen)
          out := (levelAfter (s.chan c).ctl now (s.chan c).out).getD (Config.freeLevel s.fresh) } with
        fresh := if (levelAfter (s.chan c).ctl now (s.chan c).out).isSome then s.fresh else s.fresh + 1 } := by
  cases h : levelAfter (s.chan c).ctl now (s.chan c).out <;> simp only [State.writeCtlChan, h] <;> cases c <;> rfl

/-- Control fields written as they are change nothing. -/
theorem writeCtlChan_same (low : (s.chan c).ctl.pwen = false → (s.chan c).ctl.pola = false → (s.chan c).out = false) :
    s.writeCtlChan c (s.chan c).ctl = s := by
  rw [writeCtlChan_eq, levelAfter_same low]
  cases c <;> simp [State.setChan, State.chan]

@[simp] theorem writeCtlChan_cfg (now : CtlChan) : (s.writeCtlChan c now).cfg = s.cfg := by
  rw [writeCtlChan_eq]; cases c <;> rfl

@[simp] theorem writeCtlChan_fifo (now : CtlChan) : (s.writeCtlChan c now).fifo = s.fifo := by
  rw [writeCtlChan_eq]; cases c <;> rfl

@[simp] theorem writeCtlChan_host (now : CtlChan) : (s.writeCtlChan c now).host = s.host := by
  rw [writeCtlChan_eq]; cases c <;> rfl

/-- The channel after a write of its control fields (R122). -/
theorem writeCtlChan_chan (now : CtlChan) :
    (s.writeCtlChan c now).chan c =
      { s.chan c with
          ctl := now
          pos := if (s.chan c).ctl.pwen && !now.pwen && s.cfg.disableAborts then 0 else (s.chan c).pos
          len := if (s.chan c).ctl.pwen && !now.pwen && s.cfg.disableAborts then 0 else (s.chan c).len
          sta := (s.chan c).sta && !((s.chan c).ctl.pwen && !now.pwen)
          out := (levelAfter (s.chan c).ctl now (s.chan c).out).getD (Config.freeLevel s.fresh) } := by
  rw [writeCtlChan_eq]; cases c <;> rfl

@[simp] theorem writeCtlChan_other (now : CtlChan) :
    (s.writeCtlChan c now).chan (otherChan c) = s.chan (otherChan c) := by
  rw [writeCtlChan_eq]; cases c <;> rfl

/-- The control fields of a channel in a word. -/
def chanFields (f : CtlFields) : ChanId → CtlChan
  | .ch1 => f.c1
  | .ch2 => f.c2

theorem fields_eq_chanFields (l : Layout) (v : Word) : (l.ctlBits c).fields v = chanFields (l.ctlFields v) c := by
  cases c <;> rfl

/-- A write of `CTL` that gives the other channel its own fields and no clear bit writes one channel (R69, R122). -/
theorem writeCtl_one {v : Word} {now : CtlChan} (hc : chanFields (s.cfg.layout.ctlFields v) c = now)
    (ho : chanFields (s.cfg.layout.ctlFields v) (otherChan c) = (s.chan (otherChan c)).ctl)
    (low : (s.chan (otherChan c)).ctl.pwen = false → (s.chan (otherChan c)).ctl.pola = false →
      (s.chan (otherChan c)).out = false) :
    s.writeCtl v =
      { ((s.writeCtlChan c now).clearIf (s.cfg.layout.ctlFields v).clrf) with lastWr := some .ctl } := by
  subst hc
  cases c
  · have : ((s.writeCtlChan .ch1 (s.cfg.layout.ctlFields v).c1).writeCtlChan .ch2 (s.cfg.layout.ctlFields v).c2) =
        s.writeCtlChan .ch1 (s.cfg.layout.ctlFields v).c1 := by
      have e : (s.writeCtlChan .ch1 (s.cfg.layout.ctlFields v).c1).chan .ch2 = s.chan .ch2 :=
        writeCtlChan_other s .ch1 _
      have := writeCtlChan_same (s.writeCtlChan .ch1 (s.cfg.layout.ctlFields v).c1) .ch2 (by rw [e]; exact low)
      rw [e] at this
      exact (show (s.cfg.layout.ctlFields v).c2 = (s.chan .ch2).ctl from ho) ▸ this
    simp only [State.writeCtl, this, chanFields]
  · have : s.writeCtlChan .ch1 (s.cfg.layout.ctlFields v).c1 = s := by
      rw [show (s.cfg.layout.ctlFields v).c1 = (s.chan .ch1).ctl from ho]
      exact writeCtlChan_same s .ch1 low
    simp only [State.writeCtl, this, chanFields]

/-! ### Read, modify, write of the control register (R69, R108, R121) -/

variable {l : Layout}

/-- Distinct positions of `CTL`'s fields, as rewriting facts in both directions, and all below 32. -/
theorem ctl_distinct (h : layoutOk l = true) :
    (ctlPositions l).Pairwise (fun a b => (a = b) = False ∧ (b = a) = False) ∧ ∀ k ∈ ctlPositions l, k < 32 :=
  ⟨(layoutOk_ctl h).1.imp fun ne => ⟨eq_false ne, eq_false (Ne.symm ne)⟩, (layoutOk_ctl h).2⟩

theorem chanFields_or_pwen (h : layoutOk l = true) (v : Word) (d : ChanId) :
    chanFields (l.ctlFields (v ||| mask (l.ctlBits c).pwen)) d =
      if d = c then { chanFields (l.ctlFields v) d with pwen := true } else chanFields (l.ctlFields v) d := by
  obtain ⟨ne, lt⟩ := ctl_distinct h
  simp only [ctlPositions, List.pairwise_cons, List.forall_mem_cons, List.mem_nil_iff] at ne lt
  cases c <;> cases d <;>
    simp only [chanFields, Layout.ctlFields, CtlBits.fields, Layout.ctlBits, getLsbD_setBit, lt] <;> simp [ne]

theorem chanFields_and_pwen (h : layoutOk l = true) (v : Word) (d : ChanId) :
    chanFields (l.ctlFields (v &&& ~~~mask (l.ctlBits c).pwen)) d =
      if d = c then { chanFields (l.ctlFields v) d with pwen := false } else chanFields (l.ctlFields v) d := by
  obtain ⟨ne, lt⟩ := ctl_distinct h
  simp only [ctlPositions, List.pairwise_cons, List.forall_mem_cons, List.mem_nil_iff] at ne lt
  cases c <;> cases d <;>
    simp only [chanFields, Layout.ctlFields, CtlBits.fields, Layout.ctlBits, getLsbD_clearBit] <;> simp [ne]

theorem chanFields_or_clrf (h : layoutOk l = true) (v : Word) (d : ChanId) :
    chanFields (l.ctlFields (v ||| mask l.clrf)) d = chanFields (l.ctlFields v) d := by
  obtain ⟨ne, lt⟩ := ctl_distinct h
  simp only [ctlPositions, List.pairwise_cons, List.forall_mem_cons, List.mem_nil_iff] at ne lt
  cases d <;> simp only [chanFields, Layout.ctlFields, CtlBits.fields, getLsbD_setBit, lt] <;> simp [ne]

theorem clrf_or_pwen (h : layoutOk l = true) (v : Word) :
    (l.ctlFields (v ||| mask (l.ctlBits c).pwen)).clrf = (l.ctlFields v).clrf := by
  obtain ⟨ne, lt⟩ := ctl_distinct h
  simp only [ctlPositions, List.pairwise_cons, List.forall_mem_cons, List.mem_nil_iff] at ne lt
  cases c <;> simp only [Layout.ctlFields, Layout.ctlBits, getLsbD_setBit, lt] <;> simp [ne]

theorem clrf_and_pwen (h : layoutOk l = true) (v : Word) :
    (l.ctlFields (v &&& ~~~mask (l.ctlBits c).pwen)).clrf = (l.ctlFields v).clrf := by
  obtain ⟨ne, lt⟩ := ctl_distinct h
  simp only [ctlPositions, List.pairwise_cons, List.forall_mem_cons, List.mem_nil_iff] at ne lt
  cases c <;> simp only [Layout.ctlFields, Layout.ctlBits, getLsbD_clearBit] <;> simp [ne]

theorem clrf_or_clrf (h : layoutOk l = true) (v : Word) : (l.ctlFields (v ||| mask l.clrf)).clrf = true := by
  simp only [Layout.ctlFields, getLsbD_setBit v ((layoutOk_ctl h).2 l.clrf (by simp [ctlPositions]))]
  simp

/-- Step 4 of `CONFIGURE` changes the mode and the FIFO use of one channel (R160). -/
theorem chanFields_modeWord (h : layoutOk l = true) (mode : Mode) (uf : Bool) (v : Word) (d : ChanId) :
    chanFields (l.ctlFields (modeWord l c mode uf v)) d =
      if d = c then
        { chanFields (l.ctlFields v) d with mode := mode, usef := if mode = .serializer then true else uf }
      else chanFields (l.ctlFields v) d := by
  obtain ⟨ne, lt⟩ := ctl_distinct h
  simp only [ctlPositions, List.pairwise_cons, List.forall_mem_cons, List.mem_nil_iff] at ne lt
  cases mode <;> cases uf <;> cases c <;> cases d <;>
    simp only [modeWord, chanFields, Layout.ctlFields, CtlBits.fields, Layout.ctlBits, getLsbD_setBit,
      getLsbD_clearBit, lt, Bool.false_eq_true, if_false, if_true] <;> simp [ne]

theorem clrf_modeWord (h : layoutOk l = true) (mode : Mode) (uf : Bool) (v : Word) :
    (l.ctlFields (modeWord l c mode uf v)).clrf = (l.ctlFields v).clrf := by
  obtain ⟨ne, lt⟩ := ctl_distinct h
  simp only [ctlPositions, List.pairwise_cons, List.forall_mem_cons, List.mem_nil_iff] at ne lt
  cases mode <;> cases uf <;> cases c <;>
    simp only [modeWord, Layout.ctlFields, Layout.ctlBits, getLsbD_setBit, getLsbD_clearBit, lt, Bool.false_eq_true,
      if_false, if_true] <;> simp [ne]

/-- Reading `CTL` and taking its fields gives the control fields, with a clear bit of 0 (R121). -/
theorem ctlFields_readCtl (h : layoutOk s.cfg.layout = true) : s.cfg.layout.ctlFields s.readCtl = s.ctlFields :=
  ctlFields_ctlWord h _

theorem chanFields_ctlFields : chanFields s.ctlFields c = (s.chan c).ctl := by cases c <;> rfl

/-! ### The status register -/

/-- A bit of the status word read is its field (R123). -/
theorem staFields_readSta (h : layoutOk s.cfg.layout = true) : s.cfg.layout.staFields s.readSta = s.staFields :=
  staFields_staWord h _

theorem readSta_full (h : layoutOk s.cfg.layout = true) : s.readSta.getLsbD s.cfg.layout.sta.full = s.full :=
  congrArg StaFields.full (staFields_readSta s h)

theorem readSta_berr (h : layoutOk s.cfg.layout = true) : s.readSta.getLsbD s.cfg.layout.sta.berr = s.berr :=
  congrArg StaFields.berr (staFields_readSta s h)

/-- Distinct positions of `STA`'s fields, as rewriting facts in both directions, and all below 32. -/
theorem sta_distinct (h : layoutOk l = true) :
    (staPositions l).Pairwise (fun a b => (a = b) = False ∧ (b = a) = False) ∧ ∀ k ∈ staPositions l, k < 32 :=
  ⟨(layoutOk_sta h).1.imp fun ne => ⟨eq_false ne, eq_false (Ne.symm ne)⟩, (layoutOk_sta h).2⟩

/-- The write of `CONFIGURE`'s step 5 clears `BERR` and no other flag (R124, R160). -/
theorem writeSta_berr (h : layoutOk s.cfg.layout = true) :
    s.writeSta (mask s.cfg.layout.sta.berr) = { s with berr := false, lastWr := some .sta } := by
  obtain ⟨ne, lt⟩ := sta_distinct h
  simp only [staPositions, List.pairwise_cons, List.forall_mem_cons, List.mem_nil_iff] at ne lt
  simp only [State.writeSta, Layout.staFields, getLsbD_mask, clearedBy, ne, lt]
  simp

/-! ### The clock manager -/

theorem readCmctl_busy (h : layoutOk s.cfg.layout = true) :
    s.readCmctl.getLsbD s.cfg.layout.cmBusy = s.cm.busy := by
  obtain ⟨nd, lt⟩ := layoutOk_cmctl h
  simp only [cmctlPositions, List.nodup_cons, List.mem_cons, not_or] at nd lt
  have := lt _ (.inr (.inl rfl))
  rw [State.readCmctl, BitVec.getLsbD_or, getLsbD_bitWord, getLsbD_bitWord]
  simp [this, Ne.symm nd.1.1]

theorem readCmctl_enab (h : layoutOk s.cfg.layout = true) :
    s.readCmctl.getLsbD s.cfg.layout.cmEnab = s.cm.enab := by
  obtain ⟨nd, lt⟩ := layoutOk_cmctl h
  simp only [cmctlPositions, List.nodup_cons, List.mem_cons, not_or] at nd lt
  have := lt _ (.inl rfl)
  rw [State.readCmctl, BitVec.getLsbD_or, getLsbD_bitWord, getLsbD_bitWord]
  simp [this, nd.1.1]

/-- A word that carries the password in its field, over a word that has nothing there, is accepted (R134, R160). -/
theorem passOk_passWord (v : Word)
    (h : ∀ pw, s.cfg.layout.pass = some pw → pw.lsb + 7 < 32 ∧ ∀ j < 8, v.getLsbD (pw.lsb + j) = false) :
    s.passOk (passWord s.cfg.layout ||| v) = true := by
  unfold State.passOk passWord
  cases hp : s.cfg.layout.pass with
  | none => rfl
  | some pw =>
    obtain ⟨hl, hv⟩ := h pw hp
    refine decide_eq_true (BitVec.eq_of_getLsbD_eq fun j hj => ?_)
    have h1 : pw.lsb + j < 32 := by omega
    rw [BitVec.getLsbD_extractLsb', BitVec.getLsbD_or, hv j hj]
    simp [hj, h1]

/-! ### The FIFO -/

/-- A push with room (R129). -/
theorem writeFif_room (v : Word) (h : s.fifo.length < s.cfg.fifoDepth) :
    s.writeFif v = { s with fifo := s.fifo ++ [v], lastWr := some .fif } := if_pos h

/-- A push into a full FIFO (R129). -/
theorem writeFif_full (v : Word) (h : s.cfg.fifoDepth ≤ s.fifo.length) :
    s.writeFif v = { s with werr := true, lastWr := some .fif } := if_neg (Nat.not_lt.2 h)

/-- A push keeps the FIFO's bound (R35). -/
theorem writeFif_bound (v : Word) (h : s.fifo.length ≤ s.cfg.fifoDepth) :
    (s.writeFif v).fifo.length ≤ s.cfg.fifoDepth := by
  by_cases hf : s.fifo.length < s.cfg.fifoDepth
  · rw [writeFif_room s v hf]; simpa using hf
  · rw [writeFif_full s v (by omega)]; exact h

/-! ### The host's turns -/

theorem hostTurn_cons {m : Micro} {rest : List Micro} (h : s.host.todo = m :: rest) : s.hostTurn = s.micro m rest := by
  simp [State.hostTurn, h]

theorem hostTurn_nil (h : s.host.todo = []) : s.hostTurn = s := by
  simp [State.hostTurn, h]

/-- Starting a sequence is taking the first of its turns. -/
theorem startSeq_cons (m : Micro) (rest : List Micro) :
    s.startSeq (m :: rest) =
      { s with host := { s.host with todo := m :: (rest ++ s.host.todo), polls := 0 } }.micro m
        (rest ++ s.host.todo) := rfl

theorem startSeq_nil : s.startSeq [] = s.answer .done := rfl

theorem hostTurns_succ (n : Nat) : hostTurns (n + 1) s = hostTurns n s.hostTurn := rfl

theorem hostTurns_add (m n : Nat) : hostTurns (m + n) s = hostTurns n (hostTurns m s) := by
  induction m generalizing s with
  | zero => simp [hostTurns]
  | succ m ih => rw [Nat.add_right_comm, hostTurns, ih]; rfl

/-- A sequence not yet at its end goes on. -/
theorem advance_cons (m : Micro) (rest : List Micro) :
    s.advance (m :: rest) = { s with host := { s.host with todo := m :: rest, polls := 0 } } := rfl

/-- A sequence at its end returns. -/
theorem advance_nil :
    s.advance [] = { s with host := { s.host with todo := [], polls := 0 }, res := .done } := rfl

/-! ### The serializer -/

/-- What a tick that loads and emits can do: each case of R138 with its state after. -/
theorem tick_cases {t : State} (h : s.tick c = .next t) :
    let x := s.chan c
    (x.pos ≠ x.len ∧ t = s.setChan c x.shift) ∨
    (x.pos = x.len ∧ s.wordSource c = .dry ∧ t = { s.setChan c x.underrun with rerr := true }) ∨
    (x.pos = x.len ∧ x.rng ≠ 0#32 ∧ ∃ v rest, s.wordSource c = .fifo v rest ∧
      t = { s.setChan c (x.loadFifo v).shift with fifo := rest }) ∨
    (x.pos = x.len ∧ x.rng ≠ 0#32 ∧ ∃ v, s.wordSource c = .last v ∧ t = s.setChan c (x.loadLast v).shift) ∨
    (x.pos = x.len ∧ x.rng ≠ 0#32 ∧ s.wordSource c = .dat ∧ t = s.setChan c x.loadDat.shift) := by
  unfold State.tick at h
  by_cases hp : (s.chan c).pos = (s.chan c).len
  · simp only [hp, if_true] at h
    cases hw : s.wordSource c with
    | dry => simp only [hw] at h; cases h; simp [hp]
    | fifo v rest =>
      simp only [hw] at h
      by_cases hr : (s.chan c).rng = 0#32
      · simp [hr] at h
      · rw [if_neg hr] at h; cases h; simp [hp, hr]
    | last v =>
      simp only [hw] at h
      by_cases hr : (s.chan c).rng = 0#32
      · simp [hr] at h
      · rw [if_neg hr] at h; cases h; simp [hp, hr]
    | dat =>
      simp only [hw] at h
      by_cases hr : (s.chan c).rng = 0#32
      · simp [hr] at h
      · rw [if_neg hr] at h; cases h; simp [hp, hr]
  · rw [if_neg hp] at h; cases h; simp [hp]

end Sys2Proof.Machine
end

