-- ==== Sys2Proof/Laws/Agents.lean ====
section
/-! SUPPORT. When a tick has a step, and where an idle slot's next word comes from: one lemma per case (R138). -/

namespace Sys2Proof.Machine

variable (s : State) (c : ChanId)

/-- The test of the admitted configuration is R12's predicate. -/
theorem inWsCfg_iff : s.inWsCfg c = true ↔ WsCfg s c := by
  simp only [State.inWsCfg, Bool.and_eq_true, decide_eq_true_eq, Bool.not_eq_true']
  constructor
  · rintro ⟨⟨⟨⟨⟨⟨⟨h1, h2⟩, h3⟩, h4⟩, h5⟩, h6⟩, h7⟩, h8⟩
    exact ⟨h1, h2, h3, h4, h5, h6, h7, h8⟩
  · rintro ⟨h1, h2, h3, h4, h5, h6, h7, h8⟩
    exact ⟨⟨⟨⟨⟨⟨⟨h1, h2⟩, h3⟩, h4⟩, h5⟩, h6⟩, h7⟩, h8⟩

/-- A serializer step is admitted unless the parameters refuse it outside `WSCFG` (R12, D3). -/
theorem admitsTick_iff : s.admitsTick c = true ↔ (s.cfg.wsOnly = true → WsCfg s c) := by
  rw [State.admitsTick, Bool.or_eq_true, inWsCfg_iff]
  cases s.cfg.wsOnly <;> simp

/-- An enabled Serializer channel with a running clock ticks, where its step is admitted (R138, R12). -/
theorem execSerTick_enabled (on : (s.chan c).ctl.pwen = true) (ser : (s.chan c).ctl.mode = .serializer)
    (clock : s.clockRuns = true) (ws : s.cfg.wsOnly = true → WsCfg s c) : execSerTick c s = s.tick c := by
  simp [execSerTick, on, ser, clock, (admitsTick_iff s c).2 ws]

/-- Outside `WSCFG` it is refused where the parameters ask for that (R12, D3). -/
theorem execSerTick_refused (on : (s.chan c).ctl.pwen = true) (ser : (s.chan c).ctl.mode = .serializer)
    (clock : s.clockRuns = true) (only : s.cfg.wsOnly = true) (out : ¬ WsCfg s c) :
    execSerTick c s = .refused (.outsideWsCfg c) := by
  have : ¬ s.admitsTick c = true := fun h => out ((admitsTick_iff s c).1 h only)
  simp [execSerTick, on, ser, clock, this]

/-- Without an enabled channel or a running clock the turn changes nothing (R138; log entry 12). -/
theorem execSerTick_off (h : (s.chan c).ctl.pwen = false ∨ s.clockRuns = false) : execSerTick c s = .next s := by
  rcases h with h | h <;> simp [execSerTick, h]

theorem clockRuns_of (en : s.cm.enab = true) (d : s.cm.divi ≠ 0#12) : s.clockRuns = true := by
  simp [State.clockRuns, en, d]

theorem wordSource_of_head {v : Word} {rest : List Word} (u : (s.chan c).ctl.usef = true) (f : s.fifo = v :: rest) :
    s.wordSource c = .fifo v rest := by
  simp [State.wordSource, u, f]

theorem wordSource_of_repeat {v : Word} (u : (s.chan c).ctl.usef = true) (f : s.fifo = [])
    (r : (s.chan c).ctl.rptl = true) (l : (s.chan c).last = some v) : s.wordSource c = .last v := by
  simp [State.wordSource, u, f, r, l]

theorem wordSource_of_dry (u : (s.chan c).ctl.usef = true) (f : s.fifo = [])
    (n : (s.chan c).ctl.rptl = false ∨ (s.chan c).last = none) : s.wordSource c = .dry := by
  rcases n with n | n <;> simp only [State.wordSource, u, f, n]
  · rfl
  · cases (s.chan c).ctl.rptl <;> rfl

theorem wordSource_of_data (u : (s.chan c).ctl.usef = false) : s.wordSource c = .dat := by
  simp [State.wordSource, u]

/-- A tick inside a slot shifts (R142). -/
theorem tick_inside (h : (s.chan c).pos ≠ (s.chan c).len) : s.tick c = .next (s.setChan c (s.chan c).shift) := by
  simp [State.tick, h]

/-! ### Frames -/

/-- Whatever a tick of channel `c` does: parameters, host, flags other than the read error, clock, the other channel
and all control fields are as they were, and the FIFO too unless the channel drains it (R138). -/
theorem serTick_frame {t : State} (e : exec (.serTick c) s = .next t) :
    t.cfg = s.cfg ∧ t.host = s.host ∧ t.werr = s.werr ∧ t.berr = s.berr ∧ t.cm = s.cm ∧
    t.chan (otherChan c) = s.chan (otherChan c) ∧ (t.chan c).ctl = (s.chan c).ctl ∧
    (s.drains c = false → t.fifo = s.fifo) := by
  change execSerTick c s = .next t at e
  unfold execSerTick at e
  split at e
  case isFalse => cases e; simp
  case isTrue on =>
    simp only [Bool.and_eq_true] at on
    split at e
    case h_2 =>
      cases e
      refine ⟨?_, ?_, ?_, ?_, ?_, ?_, ?_, fun _ => ?_⟩ <;> cases c <;> rfl
    case h_1 ser =>
      split at e
      case isFalse => cases e
      case isTrue =>
        rcases tick_cases s c e with ⟨_, rfl⟩ | ⟨_, _, rfl⟩ | ⟨_, _, v, _, hw, rfl⟩ | ⟨_, _, _, _, rfl⟩ | ⟨_, _, _, rfl⟩
        case inr.inr.inl =>
          refine ⟨by cases c <;> rfl, by cases c <;> rfl, by cases c <;> rfl, by cases c <;> rfl, by cases c <;> rfl,
            by cases c <;> rfl, by cases c <;> rfl, fun hd => ?_⟩
          have fed : (s.chan c).ctl.usef = true := by
            by_contra hu
            rw [wordSource_of_data s c (by simpa using hu)] at hw
            cases hw
          simp [State.drains, on.1, on.2, ser, fed] at hd
        all_goals
          refine ⟨?_, ?_, ?_, ?_, ?_, ?_, ?_, fun _ => ?_⟩ <;> cases c <;> rfl

/-- What every move that may occur keeps, a run of such moves keeps. -/
theorem runMoves_keeps {P : State → Prop} {ok : Move → Prop}
    (step : ∀ s m t, P s → ok m → m.take s = .next t → P t) {ms : List Move} {s t : State} (hms : ∀ m ∈ ms, ok m)
    (hs : P s) (e : runMoves ms s = .next t) : P t := by
  induction ms generalizing s with
  | nil => cases e; exact hs
  | cons m ms ih =>
    simp only [runMoves] at e
    cases hm : m.take s with
    | next u =>
      rw [hm] at e
      exact ih (fun m h => hms m (by simp [h])) (step s m u hs (hms m (by simp)) hm) e
    | fault f => cases f
    | refused r => simp [hm] at e

end Sys2Proof.Machine
end

