-- ==== Sys2Proof/Laws/Bytes.lean ====
section
/-! SUPPORT. Each reader takes back what its writer wrote, whatever bytes follow; and the fixed-width words of the
default layout read back. -/

namespace Sys2Proof

variable {α : Type} (tail : List Byte)

/-! ### Readers -/

theorem andThen_ok {α β : Type} {p : Reader α} {f : α → Reader β} {bs rest : List Byte} {a : α}
    (h : p bs = .ok (a, rest)) : p.andThen f bs = f a rest := by
  simp [Reader.andThen, h]

@[simp] theorem getByte_cons (b : Byte) : getByte (b :: tail) = .ok (b, tail) := rfl

@[simp] theorem give_apply (a : α) : Reader.give a tail = .ok (a, tail) := rfl

@[simp] theorem getWord_putWord (v : Word) : getWord (putWord v ++ tail) = .ok (v, tail) := by
  simp only [putWord, List.cons_append, List.nil_append, getWord]
  congr 2
  ext i hi
  simp only [BitVec.getElem_append, BitVec.getElem_extractLsb']
  split
  · simp [BitVec.getLsbD_eq_getElem hi]
  · split
    · rw [show 8 + (i - 8) = i by omega]; simp [BitVec.getLsbD_eq_getElem hi]
    · split
      · rw [show 16 + (i - 8 - 8) = i by omega]; simp [BitVec.getLsbD_eq_getElem hi]
      · rw [show 24 + (i - 8 - 8 - 8) = i by omega]; simp [BitVec.getLsbD_eq_getElem hi]

@[simp] theorem getCWord_putCWord (v : CWord) : getCWord (putCWord v ++ tail) = .ok (v, tail) := by
  simp only [putCWord, List.cons_append, List.nil_append, getCWord]
  congr 2
  ext i hi
  simp only [BitVec.getElem_append, BitVec.getElem_extractLsb']
  split
  · simp [BitVec.getLsbD_eq_getElem hi]
  · split
    · rw [show 8 + (i - 8) = i by omega]; simp [BitVec.getLsbD_eq_getElem hi]
    · rw [show 16 + (i - 8 - 8) = i by omega]; simp [BitVec.getLsbD_eq_getElem hi]

/-- Enough groups write a number that reads back. -/
theorem getNat_putNatGroups (fuel n : Nat) (h : n ≤ fuel) :
    getNat (putNatGroups fuel n ++ tail) = .ok (n, tail) := by
  induction fuel generalizing n with
  | zero =>
    obtain rfl : n = 0 := Nat.le_zero.1 h
    rfl
  | succ fuel ih =>
    unfold putNatGroups
    by_cases hn : n < 128
    · rw [if_pos hn]
      have e : (BitVec.ofNat 8 n).toNat = n := by simp; omega
      simp only [List.cons_append, List.nil_append, getNat, e, if_pos hn]
    · rw [if_neg hn]
      have e : (BitVec.ofNat 8 (n % 128 + 128)).toNat = n % 128 + 128 := by simp; omega
      simp only [List.cons_append, getNat, e]
      rw [if_neg (by omega), ih (n / 128) (by omega)]
      dsimp only
      rw [show n % 128 + 128 - 128 + 128 * (n / 128) = n by omega]

@[simp] theorem getNat_putNat (n : Nat) : getNat (putNat n ++ tail) = .ok (n, tail) :=
  getNat_putNatGroups tail n n (Nat.le_refl n)

@[simp] theorem getBool_putBool (b : Bool) : getBool (putBool b ++ tail) = .ok (b, tail) := by cases b <;> rfl

@[simp] theorem getChan_putChan (c : ChanId) : getChan (putChan c ++ tail) = .ok (c, tail) := by cases c <;> rfl

@[simp] theorem getMode_putMode (m : Mode) : getMode (putMode m ++ tail) = .ok (m, tail) := by cases m <;> rfl

@[simp] theorem getBlock_putBlock (b : Block) : getBlock (putBlock b ++ tail) = .ok (b, tail) := by
  cases b <;> rfl

@[simp] theorem getSym_putSym (y : Sym) : getSym (putSym y ++ tail) = .ok (y, tail) := by
  have lt : (y.setWidth 8).toNat < 8 := by
    rw [BitVec.toNat_setWidth]
    omega
  have back : (y.setWidth 8).setWidth 3 = y := BitVec.eq_of_toNat_eq (by simp)
  have : getByte ([y.setWidth 8] ++ tail) = .ok (y.setWidth 8, tail) := rfl
  rw [putSym, getSym, andThen_ok this, if_pos lt, give_apply, back]

@[simp] theorem getInt_putInt (x : Int) : getInt (putInt x ++ tail) = .ok (x, tail) := by
  rw [putInt, List.append_assoc, getInt, andThen_ok (getBool_putBool _ _), andThen_ok (getNat_putNat _ _)]
  by_cases h : x < 0
  · rw [if_pos (by simpa using h), if_neg (by omega), give_apply, show -(x.natAbs : Int) = x by omega]
  · rw [if_neg (by simpa using h), give_apply, show (x.natAbs : Int) = x by omega]

@[simp] theorem getBrightness_putBrightness (b : Brightness) :
    getBrightness (putBrightness b ++ tail) = .ok (b, tail) := by
  rw [putBrightness, List.append_assoc, getBrightness, andThen_ok (getInt_putInt _ _),
    andThen_ok (getNat_putNat _ _)]
  rfl

@[simp] theorem getPixel_putPixel (px : Pixel) : getPixel (putPixel px ++ tail) = .ok (px, tail) := rfl

/-- Values in a row, each reading back. -/
theorem getMany_flatMap {p : Reader α} {f : α → List Byte} (h : ∀ a tail, p (f a ++ tail) = .ok (a, tail))
    (xs : List α) : getMany p xs.length (xs.flatMap f ++ tail) = .ok (xs, tail) := by
  induction xs with
  | nil => rfl
  | cons x xs ih =>
    rw [List.flatMap_cons, List.append_assoc, List.length_cons, getMany, andThen_ok (h _ _), andThen_ok ih]
    rfl

/-- A list whose elements read back reads back. -/
theorem getList_putList {p : Reader α} {f : α → List Byte} (h : ∀ a tail, p (f a ++ tail) = .ok (a, tail))
    (xs : List α) : getList p (putList f xs ++ tail) = .ok (xs, tail) := by
  rw [putList, List.append_assoc, getList, andThen_ok (getNat_putNat _ _), getMany_flatMap tail h]

/-! ### Each selector's operands (R110) -/

section Selectors

open Reader

@[simp] theorem readOperands_01 : readOperands 0x01#8 = give .rdCtl := rfl
@[simp] theorem readOperands_02 : readOperands 0x02#8 = getWord.andThen fun v => give (.wrCtl v) := rfl
@[simp] theorem readOperands_03 : readOperands 0x03#8 = give .rdSta := rfl
@[simp] theorem readOperands_04 : readOperands 0x04#8 = getWord.andThen fun v => give (.wrSta v) := rfl
@[simp] theorem readOperands_05 : readOperands 0x05#8 = getChan.andThen fun c => give (.rdRng c) := rfl
@[simp] theorem readOperands_06 : readOperands 0x06#8 =
    getChan.andThen fun c => getWord.andThen fun v => give (.wrRng c v) := rfl
@[simp] theorem readOperands_07 : readOperands 0x07#8 = getChan.andThen fun c => give (.rdDat c) := rfl
@[simp] theorem readOperands_08 : readOperands 0x08#8 =
    getChan.andThen fun c => getWord.andThen fun v => give (.wrDat c v) := rfl
@[simp] theorem readOperands_09 : readOperands 0x09#8 = getWord.andThen fun v => give (.wrFif v) := rfl
@[simp] theorem readOperands_0a : readOperands 0x0A#8 = give .rdFif := rfl
@[simp] theorem readOperands_0b : readOperands 0x0B#8 = give .rdCmctl := rfl
@[simp] theorem readOperands_0c : readOperands 0x0C#8 = getWord.andThen fun v => give (.wrCmctl v) := rfl
@[simp] theorem readOperands_0d : readOperands 0x0D#8 = give .rdCmdiv := rfl
@[simp] theorem readOperands_0e : readOperands 0x0E#8 = getWord.andThen fun v => give (.wrCmdiv v) := rfl
@[simp] theorem readOperands_0f : readOperands 0x0F#8 =
    getBlock.andThen fun b => getNat.andThen fun off => give (.unmapped b off) := rfl
@[simp] theorem readOperands_10 : readOperands 0x10#8 = getChan.andThen fun c => give (.serTick c) := rfl
@[simp] theorem readOperands_11 : readOperands 0x11#8 = give .cmSettle := rfl
@[simp] theorem readOperands_12 : readOperands 0x12#8 = give .busErr := rfl
@[simp] theorem readOperands_20 : readOperands 0x20#8 =
    getNat.andThen fun c => getWord.andThen fun range => getNat.andThen fun divisor => getMode.andThen fun mode =>
      getBool.andThen fun uf => give (.configure c range divisor mode uf) := rfl
@[simp] theorem readOperands_21 : readOperands 0x21#8 = getWord.andThen fun v => give (.pushWord v) := rfl
@[simp] theorem readOperands_22 : readOperands 0x22#8 = (getList getWord).andThen fun ws => give (.pushFifo ws) := rfl
@[simp] theorem readOperands_23 : readOperands 0x23#8 = getChan.andThen fun c => give (.enable c) := rfl
@[simp] theorem readOperands_24 : readOperands 0x24#8 = getChan.andThen fun c => give (.disable c) := rfl
@[simp] theorem readOperands_25 : readOperands 0x25#8 = give .clearFifo := rfl
@[simp] theorem readOperands_30 : readOperands 0x30#8 =
    getByte.andThen fun ch => getBrightness.andThen fun b => give (.scale ch b) := rfl
@[simp] theorem readOperands_31 : readOperands 0x31#8 =
    getPixel.andThen fun px => give (.colorWord px.r px.g px.b) := rfl
@[simp] theorem readOperands_32 : readOperands 0x32#8 =
    getCWord.andThen fun cw => getNat.andThen fun p => give (.bitSel cw p) := rfl
@[simp] theorem readOperands_33 : readOperands 0x33#8 = getBool.andThen fun b => give (.symbol b) := rfl
@[simp] theorem readOperands_34 : readOperands 0x34#8 = getNat.andThen fun n => give (.frameLen n) := rfl
@[simp] theorem readOperands_35 : readOperands 0x35#8 = getNat.andThen fun g => give (.locate g) := rfl
@[simp] theorem readOperands_36 : readOperands 0x36#8 = getNat.andThen fun fw => give (.clearFrame fw) := rfl
@[simp] theorem readOperands_37 : readOperands 0x37#8 =
    getNat.andThen fun g => getSym.andThen fun s => give (.place g s) := rfl
@[simp] theorem readOperands_38 : readOperands 0x38#8 =
    getNat.andThen fun i => getPixel.andThen fun px => getBrightness.andThen fun b => give (.encPixel i px b) := rfl
@[simp] theorem readOperands_39 : readOperands 0x39#8 =
    (getList getPixel).andThen fun pxs => getBrightness.andThen fun b => give (.encodeFrame pxs b) := rfl
@[simp] theorem readOperands_3a : readOperands 0x3A#8 = getSym.andThen fun s => give (.symDec s) := rfl
@[simp] theorem readOperands_3b : readOperands 0x3B#8 =
    (getList getWord).andThen fun w => getNat.andThen fun n => give (.decodeFrame w n) := rfl
@[simp] theorem readOperands_40 : readOperands 0x40#8 =
    getChan.andThen fun c => (getList getPixel).andThen fun pxs => getBrightness.andThen fun b =>
      give (.pushFrame c pxs b) := rfl
@[simp] theorem readOperands_41 : readOperands 0x41#8 =
    getChan.andThen fun c => getNat.andThen fun n => give (.hold c n) := rfl
@[simp] theorem readOperands_42 : readOperands 0x42#8 = give .latchWait := rfl

end Selectors

/-! ### What decodes is well-formed -/

/-- The form chosen from a position has an offset of at most 29 (R112, R189). -/
theorem placeFormOf_wf (g : Nat) (s : Sym) : (placeFormOf g s).wf = true := by
  unfold placeFormOf
  split
  · rfl
  · split
    · rfl
    · exact decide_eq_true (by omega)

/-- Every value the reader gives has the property. -/
def Reader.Gives (p : Reader α) (P : α → Prop) : Prop := ∀ bs a rest, p bs = .ok (a, rest) → P a

theorem gives_give {P : α → Prop} {a : α} (h : P a) : (Reader.give a).Gives P := by
  intro bs b rest e
  cases e
  exact h

theorem gives_reject {P : α → Prop} (e : DecodeError) : (Reader.reject e : Reader α).Gives P := by
  intro bs b rest h
  cases h

theorem gives_andThen {β : Type} {P : β → Prop} {p : Reader α} {f : α → Reader β} (h : ∀ a, (f a).Gives P) :
    (p.andThen f).Gives P := by
  intro bs b rest e
  unfold Reader.andThen at e
  cases hp : p bs with
  | error _ => simp [hp] at e
  | ok q => rw [hp] at e; exact h q.1 q.2 b rest e

theorem gives_ite {P : α → Prop} {q : Prop} [Decidable q] {p p' : Reader α} (h : p.Gives P) (h' : p'.Gives P) :
    (if q then p else p').Gives P := by
  split
  exacts [h, h']

theorem readOperands_wf (opsel : Byte) : (readOperands opsel).Gives (Instr.wf · = true) := by
  unfold readOperands
  split <;>
    repeat first
      | exact gives_give rfl
      | exact gives_reject _
      | refine gives_andThen fun _ => ?_

theorem readInstr_wf (sp : Space) : (readInstr sp).Gives (Instr.wf · = true) := by
  cases sp <;> dsimp only [readInstr, readCtlw, readStaw, readCmctlw, readCmdivw] <;>
    repeat first
      | exact gives_give rfl
      | exact gives_give (placeFormOf_wf _ _)
      | exact gives_reject _
      | exact readOperands_wf _
      | refine gives_andThen fun _ => ?_
      | refine gives_ite ?_ ?_

/-- The decoder gives well-formed operations only. -/
theorem decode_wf {sp : Space} {bs : List Byte} {i : Instr} (h : decode sp bs = .ok i) : i.wf = true := by
  unfold decode at h
  cases hr : readInstr sp bs with
  | error e => simp [hr] at h
  | ok q => rw [hr] at h; cases h; exact readInstr_wf sp bs q.1 q.2 hr

/-! ### Fixed-width words -/

theorem layoutOk_default : Machine.layoutOk Layout.default = true := by decide

/-- The bytes of a colour word are its three channels (R92). -/
theorem colorWordOf_bytes (r g b : Byte) :
    (colorWordOf r g b).extractLsb' 16 8 = g ∧ (colorWordOf r g b).extractLsb' 8 8 = r ∧
    (colorWordOf r g b).extractLsb' 0 8 = b := by
  refine ⟨?_, ?_, ?_⟩ <;>
  · ext i hi
    have e : i = 0 ∨ i = 1 ∨ i = 2 ∨ i = 3 ∨ i = 4 ∨ i = 5 ∨ i = 6 ∨ i = 7 := by omega
    rcases e with rfl | rfl | rfl | rfl | rfl | rfl | rfl | rfl <;> simp [colorWordOf]

/-- The fields of a `CMCTLW` of the default layout read back (R105). -/
theorem cmctlWord_default (p : Byte) (busy enab : Bool) :
    Layout.default.passOf (Layout.default.cmctlWord p busy enab) = p ∧
    (Layout.default.cmctlWord p busy enab).getLsbD Layout.default.cmBusy = busy ∧
    (Layout.default.cmctlWord p busy enab).getLsbD Layout.default.cmEnab = enab := by
  have bit : ∀ j, (Layout.default.cmctlWord p busy enab).getLsbD j =
      ((decide (j < 32) && !decide (j < 24) && p.getLsbD (j - 24)) || (busy && decide (j = 7)) ||
        (enab && decide (j = 4))) := by
    intro j
    simp only [Layout.cmctlWord, Layout.passField, Layout.default, BitVec.getLsbD_or, BitVec.getLsbD_shiftLeft,
      BitVec.getLsbD_setWidth, getLsbD_bitWord]
    by_cases h : j < 32
    · simp [h, show j - 24 < 32 by omega]
    · simp [h, show ¬ j = 7 by omega, show ¬ j = 4 by omega]
  refine ⟨BitVec.eq_of_getLsbD_eq fun i hi => ?_, ?_, ?_⟩
  · show ((Layout.default.cmctlWord p busy enab).extractLsb' 24 8).getLsbD i = _
    rw [BitVec.getLsbD_extractLsb', bit]
    simp [hi, show 24 + i < 32 by omega, show ¬ 24 + i = 7 by omega, show ¬ 24 + i = 4 by omega]
  · rw [bit]; simp [Layout.default]
  · rw [bit]; simp [Layout.default]

/-- The fields of a `CMDIVW` of the default layout read back (R106). -/
theorem cmdivWord_default (p : Byte) (d : BitVec 12) :
    Layout.default.passOf (Layout.default.cmdivWord p d) = p ∧
    Layout.default.diviOf (Layout.default.cmdivWord p d) = d := by
  have bit : ∀ j, (Layout.default.cmdivWord p d).getLsbD j =
      ((decide (j < 32) && !decide (j < 24) && p.getLsbD (j - 24)) ||
        (decide (j < 32) && !decide (j < 12) && d.getLsbD (j - 12))) := by
    intro j
    simp only [Layout.cmdivWord, Layout.passField, Layout.default, BitVec.getLsbD_or, BitVec.getLsbD_shiftLeft,
      BitVec.getLsbD_setWidth]
    by_cases h : j < 32
    · simp [h, show j - 24 < 32 by omega, show j - 12 < 32 by omega]
    · simp [h]
  constructor <;> refine BitVec.eq_of_getLsbD_eq fun i hi => ?_
  · show ((Layout.default.cmdivWord p d).extractLsb' 24 8).getLsbD i = _
    rw [BitVec.getLsbD_extractLsb', bit, BitVec.getLsbD_of_ge d (24 + i - 12) (by omega)]
    simp [hi, show 24 + i < 32 by omega]
  · show ((Layout.default.cmdivWord p d).extractLsb' 12 12).getLsbD i = _
    rw [BitVec.getLsbD_extractLsb', bit]
    simp [hi, show 12 + i < 32 by omega, show 12 + i < 24 by omega]

end Sys2Proof
end

