-- ==== Sys2Proof/Laws/Frame.lean ====
section
/-! SUPPORT. The bits of a frame: what each placement form does to each stream bit (R64, R188 to R191), and the
frame's length. -/

namespace Sys2Proof.Machine

variable {w : List Word} {g k : Nat} {s : Sym}

/-! ### Words and bits of a frame -/

theorem wordAt_set (v : Word) (j : Nat) (h : k < w.length) :
    wordAt (w.set k v) j = if j = k then v else wordAt w j := by
  unfold wordAt
  by_cases e : j = k
  · subst e; simp [h]
  · simp [e, Ne.symm e]

theorem wordAt_of_ge (h : w.length ≤ k) : wordAt w k = 0#32 := by simp [wordAt, h]

theorem bitAt_of_ge (h : 32 * w.length ≤ g) : bitAt w g = false := by
  rw [bitAt, wordAt_of_ge (by unfold wordIndex; omega)]; simp

theorem bitAt_replicate_zero (n g : Nat) : bitAt (List.replicate n 0#32) g = false := by
  have : wordAt (List.replicate n 0#32) (wordIndex g) = 0#32 := by
    unfold wordAt
    by_cases h : wordIndex g < n <;> simp [h]
  rw [bitAt, this]; simp

/-- Frames of one length with the same bits are the same (R95, R195). -/
theorem frame_ext {w' : List Word} (hl : w.length = w'.length)
    (hb : ∀ g < 32 * w.length, bitAt w g = bitAt w' g) : w = w' := by
  refine List.ext_getElem hl fun i h1 h2 => BitVec.eq_of_getLsbD_eq fun j hj => ?_
  have := hb (32 * i + (31 - j)) (by omega)
  have d : (32 * i + (31 - j)) / 32 = i := by omega
  have m : 31 - (31 - j) % 32 = j := by omega
  simpa [bitAt, wordIndex, wordAt, d, m, h1, h2] using this

/-! ### Lengths -/

@[simp] theorem placeFormA_length (k off : Nat) : (placeFormA w k off s).length = w.length := by simp [placeFormA]

@[simp] theorem placeFormB_length (k : Nat) : (placeFormB w k s).length = w.length := by simp [placeFormB]

@[simp] theorem placeFormC_length (k : Nat) : (placeFormC w k s).length = w.length := by simp [placeFormC]

@[simp] theorem placeAt_length (g : Nat) : (placeAt w g s).length = w.length := by
  unfold placeAt; cases formOf g <;> simp

/-! ### The three forms, bit by bit -/

/-- Form A's word: three bits from `off` up are the symbol's, the others as they were (R189). -/
theorem formA_word (v : Word) {off j : Nat} (hj : j < 32) :
    ((v &&& ~~~(0b111#32 <<< off)) ||| (s.setWidth 32 <<< off)).getLsbD j =
      if off ≤ j ∧ j ≤ off + 2 then s.getLsbD (j - off) else v.getLsbD j := by
  have e7 : ∀ i, (0b111#32).getLsbD i = decide (i < 3) := by
    intro i
    by_cases h : i < 3
    · match i, h with | 0, _ => rfl | 1, _ => rfl | 2, _ => rfl
    · rw [show (0b111#32) = BitVec.setWidth 32 (0b111#3) by decide, BitVec.getLsbD_setWidth,
        BitVec.getLsbD_of_ge _ i (by omega)]; simp [h]
  rw [BitVec.getLsbD_or, BitVec.getLsbD_and, BitVec.getLsbD_not, BitVec.getLsbD_shiftLeft, e7,
    BitVec.getLsbD_shiftLeft, BitVec.getLsbD_setWidth]
  by_cases h1 : j < off
  · have : ¬ off ≤ j := by omega
    simp [hj, h1, this]
  · by_cases h2 : j ≤ off + 2
    · have h3 : j - off < 3 := by omega
      have h4 : off ≤ j := by omega
      have h5 : j - off < 32 := by omega
      simp [hj, h1, h2, h3, h4, h5]
    · have h3 : ¬ j - off < 3 := by omega
      rw [BitVec.getLsbD_of_ge s _ (by omega)]
      simp [hj, h1, h2, h3]

theorem bitAt_placeFormA {off : Nat} (ho : off ≤ 29) (hk : k < w.length) (g : Nat) :
    bitAt (placeFormA w k off s) g =
      if 32 * k + (29 - off) ≤ g ∧ g ≤ 32 * k + (31 - off) then s.getLsbD (2 - (g - (32 * k + (29 - off))))
      else bitAt w g := by
  unfold bitAt placeFormA
  rw [wordAt_set _ _ hk]
  by_cases e : wordIndex g = k
  · rw [if_pos e, formA_word _ (by omega), e]
    have hd : g / 32 = k := e
    by_cases c : off ≤ 31 - g % 32 ∧ 31 - g % 32 ≤ off + 2
    · rw [if_pos c, if_pos (by omega)]
      congr 1; omega
    · rw [if_neg c, if_neg (by omega)]
  · have hd : g / 32 ≠ k := e
    rw [if_neg e, if_neg (by omega)]

theorem bitAt_placeFormB (hk : k + 1 < w.length) (g : Nat) :
    bitAt (placeFormB w k s) g =
      if 32 * k + 30 ≤ g ∧ g ≤ 32 * k + 32 then s.getLsbD (2 - (g - (32 * k + 30))) else bitAt w g := by
  have lowWord : ∀ (v : Word) j, j < 32 →
      ((v &&& ~~~0x00000003#32) ||| (s.extractLsb' 1 2).setWidth 32).getLsbD j =
        if j ≤ 1 then s.getLsbD (j + 1) else v.getLsbD j := by
    intro v j hj
    rw [show (0x00000003#32) = BitVec.setWidth 32 (BitVec.allOnes 2) by decide, BitVec.getLsbD_or,
      BitVec.getLsbD_and, BitVec.getLsbD_not, BitVec.getLsbD_setWidth, BitVec.getLsbD_setWidth,
      BitVec.getLsbD_allOnes, BitVec.getLsbD_extractLsb']
    by_cases h : j ≤ 1
    · have h2 : j < 2 := by omega
      simp [hj, h, h2, Nat.add_comm]
    · have h2 : ¬ j < 2 := by omega
      simp [hj, h, h2]
  have highWord : ∀ (v : Word) j, j < 32 →
      ((v &&& ~~~0x80000000#32) ||| ((s.extractLsb' 0 1).setWidth 32 <<< 31)).getLsbD j =
        if j = 31 then s.getLsbD 0 else v.getLsbD j := by
    intro v j hj
    rw [show (0x80000000#32) = mask 31 by decide, BitVec.getLsbD_or, getLsbD_clearBit, BitVec.getLsbD_shiftLeft,
      BitVec.getLsbD_setWidth, BitVec.getLsbD_extractLsb']
    by_cases h : j = 31
    · subst h; simp
    · have h2 : j < 31 := by omega
      simp [hj, h, h2]
  unfold bitAt placeFormB
  dsimp only
  rw [wordAt_set _ _ (by simpa using hk), wordAt_set _ _ (by omega), wordAt_set _ _ (by omega),
    if_neg (show k + 1 ≠ k by omega)]
  by_cases e : wordIndex g = k + 1
  · have hd : g / 32 = k + 1 := e
    rw [if_pos e, highWord _ _ (by omega), e]
    by_cases c : 31 - g % 32 = 31
    · rw [if_pos c, if_pos (by omega)]; congr 1; omega
    · rw [if_neg c, if_neg (by omega)]
  · rw [if_neg e]
    by_cases e2 : wordIndex g = k
    · have hd : g / 32 = k := e2
      rw [if_pos e2, lowWord _ _ (by omega), e2]
      by_cases c : 31 - g % 32 ≤ 1
      · rw [if_pos c, if_pos (by omega)]; congr 1; omega
      · rw [if_neg c, if_neg (by omega)]
    · have hd : g / 32 ≠ k + 1 := e
      have hd2 : g / 32 ≠ k := e2
      rw [if_neg e2, if_neg (by omega)]

theorem bitAt_placeFormC (hk : k + 1 < w.length) (g : Nat) :
    bitAt (placeFormC w k s) g =
      if 32 * k + 31 ≤ g ∧ g ≤ 32 * k + 33 then s.getLsbD (2 - (g - (32 * k + 31))) else bitAt w g := by
  have lowWord : ∀ (v : Word) j, j < 32 →
      ((v &&& ~~~0x00000001#32) ||| (s.extractLsb' 2 1).setWidth 32).getLsbD j =
        if j = 0 then s.getLsbD 2 else v.getLsbD j := by
    intro v j hj
    rw [show (0x00000001#32) = mask 0 by decide, BitVec.getLsbD_or, getLsbD_clearBit, BitVec.getLsbD_setWidth,
      BitVec.getLsbD_extractLsb']
    by_cases h : j = 0
    · subst h; simp
    · have h2 : ¬ j < 1 := by omega
      simp [hj, h]
  have highWord : ∀ (v : Word) j, j < 32 →
      ((v &&& ~~~0xC0000000#32) ||| ((s.extractLsb' 0 2).setWidth 32 <<< 30)).getLsbD j =
        if 30 ≤ j then s.getLsbD (j - 30) else v.getLsbD j := by
    intro v j hj
    rw [show (0xC0000000#32) = BitVec.setWidth 32 (BitVec.allOnes 2) <<< 30 by decide, BitVec.getLsbD_or,
      BitVec.getLsbD_and, BitVec.getLsbD_not, BitVec.getLsbD_shiftLeft, BitVec.getLsbD_shiftLeft,
      BitVec.getLsbD_setWidth, BitVec.getLsbD_setWidth, BitVec.getLsbD_allOnes, BitVec.getLsbD_extractLsb']
    by_cases h : 30 ≤ j
    · have h2 : j - 30 < 2 := by omega
      have h3 : ¬ j < 30 := by omega
      have h4 : j - 30 < 32 := by omega
      simp [hj, h, h2, h3, h4]
    · have h3 : j < 30 := by omega
      simp [hj, h, h3]
  unfold bitAt placeFormC
  dsimp only
  rw [wordAt_set _ _ (by simpa using hk), wordAt_set _ _ (by omega), wordAt_set _ _ (by omega),
    if_neg (show k + 1 ≠ k by omega)]
  by_cases e : wordIndex g = k + 1
  · have hd : g / 32 = k + 1 := e
    rw [if_pos e, highWord _ _ (by omega), e]
    by_cases c : 30 ≤ 31 - g % 32
    · rw [if_pos c, if_pos (by omega)]; congr 1; omega
    · rw [if_neg c, if_neg (by omega)]
  · rw [if_neg e]
    by_cases e2 : wordIndex g = k
    · have hd : g / 32 = k := e2
      rw [if_pos e2, lowWord _ _ (by omega), e2]
      by_cases c : 31 - g % 32 = 0
      · rw [if_pos c, if_pos (by omega)]; congr 1; omega
      · rw [if_neg c, if_neg (by omega)]
    · have hd : g / 32 ≠ k + 1 := e
      have hd2 : g / 32 ≠ k := e2
      rw [if_neg e2, if_neg (by omega)]

/-- Whichever form: the three bits from `g` on are the symbol's, first-sent bit first, and every other bit of the
frame is as it was. -/
theorem bitAt_placeAt (hg : g + 2 < 32 * w.length) (j : Nat) :
    bitAt (placeAt w g s) j = if g ≤ j ∧ j ≤ g + 2 then s.getLsbD (2 - (j - g)) else bitAt w j := by
  unfold placeAt formOf wordIndex
  by_cases hB : g % 32 = 30
  · rw [if_pos hB]
    dsimp only
    rw [bitAt_placeFormB (by omega), show 32 * (g / 32) + 30 = g by omega, show 32 * (g / 32) + 32 = g + 2 by omega]
  · rw [if_neg hB]
    by_cases hC : g % 32 = 31
    · rw [if_pos hC]
      dsimp only
      rw [bitAt_placeFormC (by omega), show 32 * (g / 32) + 31 = g by omega,
        show 32 * (g / 32) + 33 = g + 2 by omega]
    · rw [if_neg hC]
      dsimp only
      rw [bitAt_placeFormA (by omega) (by omega), show 32 * (g / 32) + (29 - (29 - g % 32)) = g by omega,
        show 32 * (g / 32) + (31 - (29 - g % 32)) = g + 2 by omega]

end Sys2Proof.Machine
end

