-- ==== Sys2Proof/Laws/Encoder.lean ====
section
/-! SUPPORT. The encoder's steps on its own registers, stream bit by stream bit (R192 to R194), and what a symbol
read back gives (R93, R199, R200). -/

namespace Sys2Proof.Machine

/-- One symbol placed: its three bits, and the cursor (R26). -/
theorem symbolStep_spec (e : Enc) (h : e.g + 3 ≤ 32 * e.w.length) :
    e.symbolStep.w.length = e.w.length ∧ e.symbolStep.cw = e.cw ∧ e.symbolStep.p = e.p + 1 ∧
    e.symbolStep.g = e.g + 3 ∧ e.symbolStep.i = e.i ∧ e.symbolStep.pix = e.pix ∧ e.symbolStep.brt = e.brt ∧
    ∀ j, bitAt e.symbolStep.w j =
      if e.g ≤ j ∧ j < e.g + 3 then (symbolOf (bitSelOf e.cw e.p)).getLsbD (2 - (j - e.g)) else bitAt e.w j := by
  refine ⟨by simp [Enc.symbolStep], rfl, rfl, rfl, rfl, rfl, rfl, fun j => ?_⟩
  rw [Enc.symbolStep]
  dsimp only
  rw [bitAt_placeAt (by omega)]
  by_cases c : e.g ≤ j ∧ j < e.g + 3
  · rw [if_pos c, if_pos (by omega)]
  · rw [if_neg c, if_neg (by omega)]

/-- `n` symbols placed in order: each stream bit they cover, and the cursor (R26, R192). -/
theorem symbolSteps_spec (n : Nat) (e : Enc) (h : e.g + 3 * n ≤ 32 * e.w.length) :
    (Enc.symbolSteps n e).w.length = e.w.length ∧ (Enc.symbolSteps n e).cw = e.cw ∧
    (Enc.symbolSteps n e).p = e.p + n ∧ (Enc.symbolSteps n e).g = e.g + 3 * n ∧ (Enc.symbolSteps n e).i = e.i ∧
    (Enc.symbolSteps n e).pix = e.pix ∧ (Enc.symbolSteps n e).brt = e.brt ∧
    ∀ j, bitAt (Enc.symbolSteps n e).w j =
      if e.g ≤ j ∧ j < e.g + 3 * n then
        (symbolOf (bitSelOf e.cw (e.p + (j - e.g) / 3))).getLsbD (2 - (j - e.g) % 3)
      else bitAt e.w j := by
  induction n generalizing e with
  | zero => exact ⟨rfl, rfl, rfl, rfl, rfl, rfl, rfl, fun j => by rw [if_neg (by omega)]; rfl⟩
  | succ n ih =>
    obtain ⟨hw, hcw, hp, hg, hi, hx, hb, hbit⟩ := symbolStep_spec e (by omega)
    obtain ⟨iw, icw, ip, ig, ii, ix, ib, ibit⟩ := ih e.symbolStep (by rw [hg, hw]; omega)
    refine ⟨iw.trans hw, icw.trans hcw, ?_, ?_, ii.trans hi, ix.trans hx, ib.trans hb, fun j => ?_⟩
    · exact ip.trans (by rw [hp]; omega)
    · exact ig.trans (by rw [hg]; omega)
    · refine (ibit j).trans ?_
      rw [hg, hcw, hp]
      by_cases c1 : e.g + 3 ≤ j ∧ j < e.g + 3 + 3 * n
      · rw [if_pos c1, if_pos (by omega), show e.p + 1 + (j - (e.g + 3)) / 3 = e.p + (j - e.g) / 3 by omega,
          show (j - (e.g + 3)) % 3 = (j - e.g) % 3 by omega]
      · rw [if_neg c1, hbit]
        by_cases c2 : e.g ≤ j ∧ j < e.g + 3
        · rw [if_pos c2, if_pos (by omega), show e.p + (j - e.g) / 3 = e.p by omega,
            show (j - e.g) % 3 = j - e.g by omega]
        · rw [if_neg c2, if_neg (by omega)]

/-- One pixel encoded: its 72 stream bits, and the cursor at the next pixel (R26, R192). -/
theorem pixel_spec (cfg : Config) (e : Enc) (i : Nat) (px : Pixel) (b : Brightness)
    (h : 72 * i + 72 ≤ 32 * e.w.length) :
    (e.pixel cfg i px b).w.length = e.w.length ∧ (e.pixel cfg i px b).cw = scaledWord cfg px b ∧
    (e.pixel cfg i px b).i = i + 1 ∧ (e.pixel cfg i px b).p = 0 ∧ (e.pixel cfg i px b).g = 72 * (i + 1) ∧
    (e.pixel cfg i px b).pix = e.pix ∧ (e.pixel cfg i px b).brt = e.brt ∧
    ∀ j, bitAt (e.pixel cfg i px b).w j =
      if 72 * i ≤ j ∧ j < 72 * i + 72 then
        (symbolOf (bitSelOf (scaledWord cfg px b) ((j - 72 * i) / 3))).getLsbD (2 - (j - 72 * i) % 3)
      else bitAt e.w j := by
  obtain ⟨hw, hcw, -, hg, -, hx, hb, hbit⟩ :=
    symbolSteps_spec 24 { e with cw := scaledWord cfg px b, i := i, p := 0, g := 72 * i } h
  dsimp only at hw hcw hg hx hb hbit
  unfold Enc.pixel
  dsimp only
  generalize Enc.symbolSteps 24 _ = f at *
  refine ⟨hw, hcw, rfl, rfl, by omega, hx, hb, fun j => ?_⟩
  have := hbit j
  simpa only [Nat.zero_add] using this

/-- Pixels encoded in order, the first having index `i`: the stream bits of each, every other bit as it was. -/
theorem pixels_spec (cfg : Config) (b : Brightness) (pxs : List Pixel) (i : Nat) (e : Enc)
    (h : 72 * (i + pxs.length) ≤ 32 * e.w.length) :
    (Enc.pixels cfg b i pxs e).w.length = e.w.length ∧
    (∀ (k : Nat) (px : Pixel), pxs[k]? = some px → ∀ j < 72,
      bitAt (Enc.pixels cfg b i pxs e).w (72 * (i + k) + j) =
        (symbolOf (bitSelOf (scaledWord cfg px b) (j / 3))).getLsbD (2 - j % 3)) ∧
    ∀ j, j < 72 * i ∨ 72 * (i + pxs.length) ≤ j → bitAt (Enc.pixels cfg b i pxs e).w j = bitAt e.w j := by
  induction pxs generalizing i e with
  | nil => exact ⟨rfl, by simp, fun j _ => rfl⟩
  | cons px pxs ih =>
    simp only [List.length_cons] at h ⊢
    obtain ⟨hw, -, -, -, -, -, -, hbit⟩ := pixel_spec cfg e i px b (by omega)
    obtain ⟨iw, ibit, iout⟩ := ih (i + 1) (e.pixel cfg i px b) (by rw [hw]; omega)
    refine ⟨iw.trans hw, fun k qx hk j hj => ?_, fun j hj => ?_⟩
    · rw [Enc.pixels]
      cases k with
      | zero =>
        obtain rfl : px = qx := by simpa using hk
        rw [iout _ (by omega), hbit, if_pos (by omega), show 72 * (i + 0) + j - 72 * i = j by omega]
      | succ k =>
        rw [show 72 * (i + (k + 1)) + j = 72 * (i + 1 + k) + j by omega]
        exact ibit k qx (by simpa using hk) j hj
    · rw [Enc.pixels, iout j (by omega), hbit, if_neg (by omega)]

/-- The frame's length holds the pixels (R185). -/
theorem frameLenOf_holds (n : Nat) : 72 * n ≤ 32 * frameLenOf n := by unfold frameLenOf; omega

/-- The frame `ENCODE` makes, stream bit by stream bit (R194). -/
theorem encodeOf_spec (cfg : Config) (pixels : List Pixel) (b : Brightness) :
    (encodeOf cfg pixels b).length = frameLenOf pixels.length ∧
    (∀ (k : Nat) (px : Pixel), pixels[k]? = some px → ∀ j < 72,
      bitAt (encodeOf cfg pixels b) (72 * k + j) =
        (symbolOf (bitSelOf (scaledWord cfg px b) (j / 3))).getLsbD (2 - j % 3)) ∧
    ∀ j, 72 * pixels.length ≤ j → bitAt (encodeOf cfg pixels b) j = false := by
  have hw : (Enc.start pixels b).w = List.replicate (frameLenOf pixels.length) 0#32 := rfl
  obtain ⟨h1, h2, h3⟩ := pixels_spec cfg b pixels 0 (Enc.start pixels b)
    (by rw [hw, List.length_replicate]; have := frameLenOf_holds pixels.length; omega)
  refine ⟨h1.trans (by rw [hw, List.length_replicate]), fun k px hk j hj => ?_, fun j hj => ?_⟩
  · have := h2 k px hk j hj
    rwa [Nat.zero_add] at this
  · refine (h3 j (.inr (by omega))).trans ?_
    rw [hw, bitAt_replicate_zero]

/-! ### Symbols -/

/-- A symbol's three bits (R93). -/
theorem symbolOf_bits (b : Bool) :
    (symbolOf b).getLsbD 2 = true ∧ (symbolOf b).getLsbD 1 = b ∧ (symbolOf b).getLsbD 0 = false := by
  cases b <;> decide

/-- A symbol decodes to its bit (R199). -/
theorem symDecOf_symbolOf (b : Bool) : symDecOf (symbolOf b) = some b := by cases b <;> rfl

/-- Three stream bits read as a symbol (R200). -/
theorem symAt_eq_symbolOf {w : List Word} {g : Nat} {b : Bool} (h0 : bitAt w g = true) (h1 : bitAt w (g + 1) = b)
    (h2 : bitAt w (g + 2) = false) : symAt w g = symbolOf b := by
  rw [symAt, h0, h1, h2]; cases b <;> rfl

end Sys2Proof.Machine
end

