-- ==== Sys2Proof/Laws/HostTurn.lean ====
section
/-! SUPPORT. One spec lemma per host step: what a turn does when the step in hand is that one. -/

namespace Sys2Proof.Machine

variable (s : State) {c : ChanId} {rest : List Micro}

/-! ### Reads and writes of the control register -/

theorem turn_readCtl (h : s.host.todo = .readCtl :: rest) :
    s.hostTurn = State.advance { s with host := { s.host with v := s.readCtl } } rest := hostTurn_cons s h

/-- The two turns of a read-modify-write of `CTL` (R69): the second works on the word the first read. -/
theorem turns_readCtl {m : Micro} (h : s.host.todo = .readCtl :: m :: rest) :
    s.hostTurn = { s with host := { todo := m :: rest, v := s.readCtl, k := s.host.k, polls := 0 } } ∧
    s.hostTurn.hostTurn =
      State.micro { s with host := { todo := m :: rest, v := s.readCtl, k := s.host.k, polls := 0 } } m rest := by
  have e : s.hostTurn = { s with host := { todo := m :: rest, v := s.readCtl, k := s.host.k, polls := 0 } } := by
    rw [turn_readCtl s h]; rfl
  exact ⟨e, by rw [e]; rfl⟩

/-- A write of `CTL` by a host that holds in `v` the control word as it stands: one channel's fields change. -/
theorem writeCtl_held (hl : layoutOk s.cfg.layout = true) (hv : s.host.v = s.readCtl) (w : Word) (now : CtlChan)
    (hc : chanFields (s.cfg.layout.ctlFields w) c = now)
    (ho : chanFields (s.cfg.layout.ctlFields w) (otherChan c) =
      chanFields (s.cfg.layout.ctlFields s.host.v) (otherChan c))
    (hb : (s.cfg.layout.ctlFields w).clrf = (s.cfg.layout.ctlFields s.host.v).clrf)
    (low : (s.chan (otherChan c)).ctl.pwen = false → (s.chan (otherChan c)).ctl.pola = false →
      (s.chan (otherChan c)).out = false) :
    s.writeCtl w = { s.writeCtlChan c now with lastWr := some .ctl } := by
  rw [hv, ctlFields_readCtl s hl] at ho hb
  rw [chanFields_ctlFields] at ho
  rw [writeCtl_one s c hc ho low, hb]
  rfl

/-- `ENABLE`'s write (R169). -/
theorem writeCtl_setPwen (hl : layoutOk s.cfg.layout = true) (hv : s.host.v = s.readCtl)
    (low : (s.chan (otherChan c)).ctl.pwen = false → (s.chan (otherChan c)).ctl.pola = false →
      (s.chan (otherChan c)).out = false) :
    s.writeCtl (s.host.v ||| mask (s.cfg.layout.ctlBits c).pwen) =
      { s.writeCtlChan c { (s.chan c).ctl with pwen := true } with lastWr := some .ctl } := by
  refine writeCtl_held s hl hv _ _ ?_ ?_ (clrf_or_pwen c hl _) low
  · rw [chanFields_or_pwen c hl, if_pos rfl, hv, ctlFields_readCtl s hl, chanFields_ctlFields]
  · rw [chanFields_or_pwen c hl, if_neg (otherChan_ne c)]

/-- `DISABLE`'s write, and `CONFIGURE`'s first (R170, R160). -/
theorem writeCtl_clearPwen (hl : layoutOk s.cfg.layout = true) (hv : s.host.v = s.readCtl)
    (low : (s.chan (otherChan c)).ctl.pwen = false → (s.chan (otherChan c)).ctl.pola = false →
      (s.chan (otherChan c)).out = false) :
    s.writeCtl (s.host.v &&& ~~~mask (s.cfg.layout.ctlBits c).pwen) =
      { s.writeCtlChan c { (s.chan c).ctl with pwen := false } with lastWr := some .ctl } := by
  refine writeCtl_held s hl hv _ _ ?_ ?_ (clrf_and_pwen c hl _) low
  · rw [chanFields_and_pwen c hl, if_pos rfl, hv, ctlFields_readCtl s hl, chanFields_ctlFields]
  · rw [chanFields_and_pwen c hl, if_neg (otherChan_ne c)]

/-- `CLEARFIFO`'s write (R171), where every line is low that must be. -/
theorem writeCtl_setClrf (hl : layoutOk s.cfg.layout = true) (hv : s.host.v = s.readCtl)
    (low : ∀ d, (s.chan d).ctl.pwen = false → (s.chan d).ctl.pola = false → (s.chan d).out = false) :
    s.writeCtl (s.host.v ||| mask s.cfg.layout.clrf) = { s with fifo := [], lastWr := some .ctl } := by
  have hf : ∀ d, chanFields (s.cfg.layout.ctlFields (s.host.v ||| mask s.cfg.layout.clrf)) d = (s.chan d).ctl := by
    intro d
    rw [chanFields_or_clrf hl, hv, ctlFields_readCtl s hl, chanFields_ctlFields]
  rw [writeCtl_one s .ch1 (hf .ch1) (hf _) (low _), clrf_or_clrf hl, writeCtlChan_same s .ch1 (low _)]
  rfl

/-- `CONFIGURE`'s second write of `CTL` (R160). -/
theorem writeCtl_setMode (hl : layoutOk s.cfg.layout = true) (hv : s.host.v = s.readCtl) (mode : Mode) (uf : Bool)
    (low : (s.chan (otherChan c)).ctl.pwen = false → (s.chan (otherChan c)).ctl.pola = false →
      (s.chan (otherChan c)).out = false) :
    s.writeCtl (modeWord s.cfg.layout c mode uf s.host.v) =
      { s.writeCtlChan c { (s.chan c).ctl with mode := mode, usef := if mode = .serializer then true else uf } with
        lastWr := some .ctl } := by
  refine writeCtl_held s hl hv _ _ ?_ ?_ (clrf_modeWord c hl mode uf _) low
  · rw [chanFields_modeWord c hl, if_pos rfl, hv, ctlFields_readCtl s hl, chanFields_ctlFields]
  · rw [chanFields_modeWord c hl, if_neg (otherChan_ne c)]

/-! ### The clock manager -/

theorem turn_readCmctl (h : s.host.todo = .readCmctl :: rest) :
    s.hostTurn = State.advance { s with host := { s.host with k := s.readCmctl } } rest := hostTurn_cons s h

/-- `CONFIGURE`'s writes of `CMCTL` carry the password and set `CM.ENAB` as they mean to (R134, R160). -/
theorem writeCmctl_fields (hl : layoutOk s.cfg.layout = true) (k : Word) :
    s.writeCmctl (passWord s.cfg.layout ||| (cmctlFieldsOf s.cfg.layout k &&& ~~~mask s.cfg.layout.cmEnab)) =
      { s with cm := { s.cm with enab := false, busy := true }, lastWr := some .cmctl } ∧
    s.writeCmctl (passWord s.cfg.layout ||| (cmctlFieldsOf s.cfg.layout k ||| mask s.cfg.layout.cmEnab)) =
      { s with cm := { s.cm with enab := true, busy := true }, lastWr := some .cmctl } := by
  obtain ⟨nd, lt⟩ := layoutOk_cmctl hl
  have le : s.cfg.layout.cmEnab < 32 := lt _ (by simp [cmctlPositions])
  have clean : ∀ pw, s.cfg.layout.pass = some pw → pw.lsb + 7 < 32 ∧ ∀ j < 8,
      pw.lsb + j ≠ s.cfg.layout.cmEnab ∧ pw.lsb + j ≠ s.cfg.layout.cmBusy := by
    intro pw hp
    have hm : ∀ j < 8, pw.lsb + j ∈ passPositions s.cfg.layout := fun j hj => by simp [passPositions, hp, hj]
    simp only [cmctlPositions, List.nodup_cons, List.mem_cons, not_or] at nd lt
    exact ⟨lt _ (.inr (.inr (hm 7 (by omega)))), fun j hj =>
      ⟨fun e => nd.1.2 (e ▸ hm j hj), fun e => nd.2.1 (e ▸ hm j hj)⟩⟩
  have pass : ∀ v : Word, (∀ j, j ≠ s.cfg.layout.cmEnab → j ≠ s.cfg.layout.cmBusy → v.getLsbD j = false) →
      s.passOk (passWord s.cfg.layout ||| v) = true := fun v hv =>
    passOk_passWord s v fun pw hp => ⟨(clean pw hp).1, fun j hj => hv _ ((clean pw hp).2 j hj).1 ((clean pw hp).2 j hj).2⟩
  have pwe : (passWord s.cfg.layout).getLsbD s.cfg.layout.cmEnab = false := by
    unfold passWord
    cases hp : s.cfg.layout.pass with
    | none => simp
    | some pw =>
      have hc := (clean pw hp).2
      rw [BitVec.getLsbD_shiftLeft, BitVec.getLsbD_setWidth]
      by_cases h1 : s.cfg.layout.cmEnab < pw.lsb
      · simp [h1]
      · have : ¬ s.cfg.layout.cmEnab - pw.lsb < 8 := fun h2 =>
          (hc (s.cfg.layout.cmEnab - pw.lsb) h2).1 (by omega)
        rw [BitVec.getLsbD_of_ge pw.value _ (by omega)]; simp
  have fields : ∀ j, j ≠ s.cfg.layout.cmEnab → j ≠ s.cfg.layout.cmBusy →
      (cmctlFieldsOf s.cfg.layout k).getLsbD j = false := fun j h1 h2 => by
    rw [cmctlFieldsOf, BitVec.getLsbD_and, BitVec.getLsbD_or, getLsbD_mask, getLsbD_mask]; simp [h1, h2]
  constructor
  · rw [State.writeCmctl, if_pos (pass _ fun j h1 h2 => by rw [BitVec.getLsbD_and, fields j h1 h2]; rfl)]
    rw [BitVec.getLsbD_or, pwe, getLsbD_clearBit]
    simp
  · rw [State.writeCmctl, if_pos (pass _ fun j h1 h2 => by
      rw [BitVec.getLsbD_or, fields j h1 h2, getLsbD_mask]; simp [h1])]
    rw [BitVec.getLsbD_or, getLsbD_setBit _ le]
    simp

/-- `CONFIGURE`'s write of `CMDIV` carries the password and the divisor masked to 12 bits (R136, R160). -/
theorem writeCmdiv_divisor (hl : layoutOk s.cfg.layout = true) (d : Nat) :
    s.writeCmdiv (passWord s.cfg.layout ||| ((BitVec.ofNat 32 d &&& 0xFFF#32) <<< s.cfg.layout.diviLsb)) =
      { s with cm := { s.cm with divi := BitVec.ofNat 12 d, busy := true }, lastWr := some .cmdiv } := by
  obtain ⟨nd, lt⟩ := layoutOk_cmdiv hl
  have low : ∀ j, (BitVec.ofNat 32 d &&& 0xFFF#32).getLsbD j = ((BitVec.ofNat 12 d).getLsbD j) := by
    intro j
    have e : (0xFFF#32) = BitVec.setWidth 32 (BitVec.allOnes 12) := by decide
    rw [BitVec.getLsbD_and, e, BitVec.getLsbD_setWidth, BitVec.getLsbD_allOnes, BitVec.getLsbD_ofNat,
      BitVec.getLsbD_ofNat]
    by_cases hj : j < 12
    · have : j < 32 := by omega
      simp [hj, this]
    · simp [hj]
  have hd : s.cfg.layout.diviLsb + 11 < 32 := lt _ (by simp [cmdivPositions])
  have apart : ∀ pw, s.cfg.layout.pass = some pw → pw.lsb + 7 < 32 ∧
      ∀ j < 8, ∀ i < 12, pw.lsb + j ≠ s.cfg.layout.diviLsb + i := by
    intro pw hp
    have hm : ∀ j < 8, pw.lsb + j ∈ passPositions s.cfg.layout := fun j hj => by simp [passPositions, hp, hj]
    have dj := (List.nodup_append.1 nd).2.2
    refine ⟨lt _ (List.mem_append_right _ (hm 7 (by omega))), fun j hj i hi e => ?_⟩
    exact dj _ (List.mem_map.2 ⟨i, by simpa using hi, rfl⟩) _ (hm j hj) e.symm
  rw [State.writeCmdiv, if_pos]
  · have : s.cfg.layout.diviOf (passWord s.cfg.layout |||
        ((BitVec.ofNat 32 d &&& 0xFFF#32) <<< s.cfg.layout.diviLsb)) = BitVec.ofNat 12 d := by
      refine BitVec.eq_of_getLsbD_eq fun j hj => ?_
      have hpw : (passWord s.cfg.layout).getLsbD (s.cfg.layout.diviLsb + j) = false := by
        unfold passWord
        cases hp : s.cfg.layout.pass with
        | none => simp
        | some pw =>
          rw [BitVec.getLsbD_shiftLeft, BitVec.getLsbD_setWidth]
          by_cases h1 : s.cfg.layout.diviLsb + j < pw.lsb
          · simp [h1]
          · have : ¬ s.cfg.layout.diviLsb + j - pw.lsb < 8 := fun h2 =>
              (apart pw hp).2 _ h2 j hj (by omega)
            rw [BitVec.getLsbD_of_ge pw.value _ (by omega)]; simp
      have h32 : s.cfg.layout.diviLsb + j < 32 := by omega
      rw [Layout.diviOf, BitVec.getLsbD_extractLsb', BitVec.getLsbD_or, hpw, BitVec.getLsbD_shiftLeft]
      rw [show s.cfg.layout.diviLsb + j - s.cfg.layout.diviLsb = j by omega, low]
      simp [hj, h32]
    rw [this]
  · refine passOk_passWord s _ fun pw hp => ⟨(apart pw hp).1, fun j hj => ?_⟩
    rw [BitVec.getLsbD_shiftLeft, low]
    by_cases h1 : pw.lsb + j < s.cfg.layout.diviLsb
    · simp [h1]
    · have : ¬ pw.lsb + j - s.cfg.layout.diviLsb < 12 := fun h2 => (apart pw hp).2 j hj _ h2 (by omega)
      rw [BitVec.getLsbD_of_ge _ _ (by omega)]; simp

/-! ### Polls -/

/-- A poll that reads the wrong value waits, or ends at its limit, whichever poll it is (R76, R226). -/
theorem turn_poll_wrong {p : Poll} (hl : layoutOk s.cfg.layout = true) (h : s.host.todo = pollMicro p :: rest)
    (wrong : s.pollWrong p = true) : s.hostTurn = s.pollOnce p false rest := by
  rw [hostTurn_cons s h]
  cases p
  · simp only [pollMicro, State.micro, readCmctl_busy s hl, show s.cm.busy = true from wrong]; rfl
  · simp only [pollMicro, State.micro, readSta_berr s hl, show s.berr = true from wrong]; rfl
  · simp only [pollMicro, State.micro, readSta_full s hl, State.full, show decide _ = true from wrong]; rfl

/-- A poll that reads not full goes on (R167). -/
theorem turn_pollFull_room (hl : layoutOk s.cfg.layout = true) (h : s.host.todo = .pollFull :: rest)
    (room : s.fifo.length < s.cfg.fifoDepth) : s.hostTurn = s.advance rest := by
  have hf : s.full = false := by simp [State.full]; omega
  rw [hostTurn_cons s h]
  simp only [State.micro, State.pollOnce]
  rw [readSta_full s hl, hf]; rfl

/-- A poll that reads full waits, or ends at its limit (R167, R226). -/
theorem turn_pollFull_full (hl : layoutOk s.cfg.layout = true) (h : s.host.todo = .pollFull :: rest)
    (full : s.fifo.length = s.cfg.fifoDepth) :
    s.hostTurn = match s.cfg.pollLimitFull with
      | none => s
      | some limit =>
        if limit ≤ s.host.polls + 1 then s.raise (.timingStall .full)
        else { s with host := { s.host with polls := s.host.polls + 1 } } := by
  have hf : s.full = true := by simp [State.full, full]
  rw [hostTurn_cons s h]
  simp only [State.micro, State.pollOnce]
  rw [readSta_full s hl, hf]; rfl

theorem turn_pollClk (hl : layoutOk s.cfg.layout = true) (h : s.host.todo = .pollClk :: rest)
    (ready : s.cm.busy = false) : s.hostTurn = s.advance rest := by
  rw [hostTurn_cons s h]
  simp only [State.micro, State.pollOnce]
  rw [readCmctl_busy s hl, ready]; rfl

theorem turn_pollBerr (hl : layoutOk s.cfg.layout = true) (h : s.host.todo = .pollBerr :: rest)
    (ready : s.berr = false) : s.hostTurn = s.advance rest := by
  rw [hostTurn_cons s h]
  simp only [State.micro, State.pollOnce]
  rw [readSta_berr s hl, ready]; rfl

/-! ### The FIFO and the timed waits -/

theorem turn_push {v : Word} (h : s.host.todo = .push v :: rest) (room : s.fifo.length < s.cfg.fifoDepth) :
    s.hostTurn = State.advance { s with fifo := s.fifo ++ [v], lastWr := some .fif } rest := by
  rw [hostTurn_cons s h]
  simp only [State.micro]
  rw [writeFif_room s v room]

theorem turn_awaitTicks {n : Nat} (h : s.host.todo = .awaitTicks c n :: rest) :
    s.hostTurn = if n ≤ s.ticksSinceEnable c then s.advance rest else s := hostTurn_cons s h

theorem turn_latch (h : s.host.todo = .latch :: rest) : s.hostTurn = s.advance rest := hostTurn_cons s h

/-- Words that fit are pushed, a poll and a write each (R168). -/
theorem turns_pushFifo (words : List Word) (hl : layoutOk s.cfg.layout = true) (m : Micro)
    (h : s.host.todo = pushFifoSeq words ++ m :: rest)
    (room : s.fifo.length + words.length ≤ s.cfg.fifoDepth) :
    hostTurns (2 * words.length) s =
      { s with
        fifo := s.fifo ++ words
        host := { s.host with todo := m :: rest, polls := if words = [] then s.host.polls else 0 }
        lastWr := if words = [] then s.lastWr else some .fif } := by
  induction words generalizing s with
  | nil =>
    have e : s.host.todo = m :: rest := h
    obtain ⟨cfg, ch1, ch2, fifo, werr, rerr, berr, cm, enc, ⟨todo, v, k, polls⟩, res, lastWr, run, fresh⟩ := s
    cases e
    simp [hostTurns]
  | cons w ws ih =>
    have hr : s.fifo.length < s.cfg.fifoDepth := by simp only [List.length_cons] at room; omega
    have e1 := turn_pollFull_room s (rest := .push w :: (pushFifoSeq ws ++ m :: rest)) hl h hr
    rw [show 2 * (w :: ws).length = (2 * ws.length + 1) + 1 by simp only [List.length_cons]; omega,
      hostTurns_succ, hostTurns_succ, e1, advance_cons]
    have e2 := turn_push
      { s with host := { s.host with todo := .push w :: (pushFifoSeq ws ++ m :: rest), polls := 0 } } rfl hr
    rw [e2, State.advance, if_neg (by simp)]
    have e3 := ih
      { s with
        fifo := s.fifo ++ [w]
        host := { s.host with todo := pushFifoSeq ws ++ m :: rest, polls := 0 }
        lastWr := some .fif } hl rfl
      (by simp only [List.length_append, List.length_cons, List.length_nil] at room ⊢; omega)
    exact e3.trans (by simp)

end Sys2Proof.Machine
end

