-- ==== Sys2Proof/Laws/Invariant.lean ====
section
/-! SUPPORT. Each shared operation keeps the invariant of the machine: one lemma per operation, which the proof
about every step cites and never unfolds. -/

namespace Sys2Proof.Machine

variable {s t : State} {cfg : Config} {x : Chan}

/-! ### The parts of the invariant -/

/-- The invariant from its parts, the parameters unchanged. -/
theorem inv_of (h : Inv s) (hc : t.cfg = s.cfg) (hf : t.fifo.length ≤ s.cfg.fifoDepth) (h1 : ChanInv s.cfg t.ch1)
    (h2 : ChanInv s.cfg t.ch2) : Inv t := by
  constructor <;> rw [hc]
  exacts [h.cfg_ok, hf, h1, h2]

/-- A state with the same parameters, FIFO and channels. -/
theorem inv_same (h : Inv s) (hc : t.cfg = s.cfg) (hf : t.fifo = s.fifo) (h1 : t.ch1 = s.ch1) (h2 : t.ch2 = s.ch2) :
    Inv t :=
  inv_of h hc (hf ▸ h.fifo_le) (h1 ▸ h.chan1) (h2 ▸ h.chan2)

theorem inv_chan (h : Inv s) (c : ChanId) : ChanInv s.cfg (s.chan c) := by
  cases c
  exacts [h.chan1, h.chan2]

theorem inv_setChan (h : Inv s) (c : ChanId) (hx : ChanInv s.cfg x) : Inv (s.setChan c x) := by
  cases c
  · exact inv_of h rfl h.fifo_le hx h.chan2
  · exact inv_of h rfl h.fifo_le h.chan1 hx

/-! ### Writes -/

theorem inv_writeCtlChan (h : Inv s) (c : ChanId) (now : CtlChan) : Inv (s.writeCtlChan c now) := by
  rw [writeCtlChan_eq]
  have hx := inv_chan h c
  refine inv_same (s := s.setChan c { s.chan c with
    ctl := now
    pos := if (s.chan c).ctl.pwen && !now.pwen && s.cfg.disableAborts then 0 else (s.chan c).pos
    len := if (s.chan c).ctl.pwen && !now.pwen && s.cfg.disableAborts then 0 else (s.chan c).len
    sta := (s.chan c).sta && !((s.chan c).ctl.pwen && !now.pwen)
    out := (levelAfter (s.chan c).ctl now (s.chan c).out).getD (Config.freeLevel s.fresh) })
    (inv_setChan h c ⟨?_, ?_, ?_, ?_, hx.mark_le⟩) rfl rfl rfl rfl
  · have := hx.pos_le_len
    dsimp only
    split <;> simp [this]
  · intro a b
    simp only at a b ⊢
    simp [levelAfter_low a b]
  · intro a b
    simp only at a b ⊢
    cases hp : (s.chan c).ctl.pwen
    · simp [hx.off_idle hp b]
    · simp [a, b]
  · intro a
    simp only at a ⊢
    cases hp : (s.chan c).ctl.pwen
    · simp [hx.off_quiet hp]
    · simp [a]

theorem inv_writeCtl (h : Inv s) (v : Word) : Inv (s.writeCtl v) := by
  have := inv_writeCtlChan (inv_writeCtlChan h .ch1 (s.cfg.layout.ctlFields v).c1) .ch2 (s.cfg.layout.ctlFields v).c2
  unfold State.writeCtl State.clearIf
  dsimp only
  split
  · exact inv_of this (by simp) (by simp) this.chan1 this.chan2
  · exact inv_same this rfl rfl rfl rfl

/-- A channel that differs in its registers, its slot's word or its gap flag keeps the channel's invariant. -/
theorem chanInv_same {y : Chan} (h : ChanInv cfg x) (hc : y.ctl = x.ctl) (hp : y.pos = x.pos) (hl : y.len = x.len)
    (ho : y.out = x.out) (hs : y.sta = x.sta) (ht : y.tx = x.tx) (hm : y.mark = x.mark) : ChanInv cfg y := by
  constructor <;> simp only [hc, hp, hl, ho, hs, ht, hm]
  exacts [h.pos_le_len, h.off_low, h.off_idle, h.off_quiet, h.mark_le]

theorem inv_writeSta (h : Inv s) (v : Word) : Inv (s.writeSta v) :=
  inv_of h rfl h.fifo_le (chanInv_same h.chan1 rfl rfl rfl rfl rfl rfl rfl)
    (chanInv_same h.chan2 rfl rfl rfl rfl rfl rfl rfl)

theorem inv_writeRng (h : Inv s) (c : ChanId) (v : Word) : Inv (s.writeRng c v) :=
  inv_same (inv_setChan h c (x := { s.chan c with rng := v }) (chanInv_same (inv_chan h c) rfl rfl rfl rfl rfl rfl rfl))
    rfl rfl rfl rfl

theorem inv_writeDat (h : Inv s) (c : ChanId) (v : Word) : Inv (s.writeDat c v) :=
  inv_same (inv_setChan h c (x := { s.chan c with dat := v }) (chanInv_same (inv_chan h c) rfl rfl rfl rfl rfl rfl rfl))
    rfl rfl rfl rfl

theorem inv_writeFif (h : Inv s) (v : Word) : Inv (s.writeFif v) := by
  have := writeFif_bound s v h.fifo_le
  unfold State.writeFif at *
  split at this
  · rw [if_pos (by assumption)]
    exact inv_of h rfl this h.chan1 h.chan2
  · rw [if_neg (by assumption)]
    exact inv_same h rfl rfl rfl rfl

theorem inv_writeCmctl (h : Inv s) (v : Word) : Inv (s.writeCmctl v) := by
  unfold State.writeCmctl
  split
  exacts [inv_same h rfl rfl rfl rfl, h]

theorem inv_writeCmdiv (h : Inv s) (v : Word) : Inv (s.writeCmdiv v) := by
  unfold State.writeCmdiv
  split
  exacts [inv_same h rfl rfl rfl rfl, h]

/-! ### The host's turns -/

theorem inv_answer (h : Inv s) (r : Result) : Inv (s.answer r) := inv_same h rfl rfl rfl rfl

theorem inv_raise (h : Inv s) (e : Err) : Inv (s.raise e) := inv_same h rfl rfl rfl rfl

theorem inv_withHost (h : Inv s) (q : HostSeq) : Inv { s with host := q } := inv_same h rfl rfl rfl rfl

theorem inv_advance (h : Inv s) (rest : List Micro) : Inv (s.advance rest) := by
  unfold State.advance
  dsimp only
  split <;> exact inv_same h rfl rfl rfl rfl

theorem inv_pollOnce (h : Inv s) (p : Poll) (ready : Bool) (rest : List Micro) : Inv (s.pollOnce p ready rest) := by
  unfold State.pollOnce
  split
  · exact inv_advance h _
  · split
    · exact h
    · split
      · exact inv_raise h _
      · exact inv_withHost h _

theorem inv_markEnable (h : Inv s) (c : ChanId) : Inv (s.markEnable c) :=
  have hx := inv_chan h c
  inv_setChan h c ⟨hx.pos_le_len, hx.off_low, hx.off_idle, hx.off_quiet, Nat.le_refl _⟩

theorem inv_micro (h : Inv s) (m : Micro) (rest : List Micro) : Inv (s.micro m rest) := by
  cases m <;> simp only [State.micro]
  case readCtl => exact inv_advance (inv_withHost h { s.host with v := s.readCtl }) _
  case readCmctl => exact inv_advance (inv_withHost h { s.host with k := s.readCmctl }) _
  case pollClk => exact inv_pollOnce h ..
  case pollBerr => exact inv_pollOnce h ..
  case pollFull => exact inv_pollOnce h ..
  case awaitTicks => split; exacts [inv_advance h _, h]
  case latch => exact inv_advance h _
  case setPwen => exact inv_advance (inv_markEnable (inv_writeCtl h _) _) _
  case clearPwen => exact inv_advance (inv_writeCtl h _) _
  case setClrf => exact inv_advance (inv_writeCtl h _) _
  case setMode => exact inv_advance (inv_writeCtl h _) _
  case stopClock => exact inv_advance (inv_writeCmctl h _) _
  case writeDivisor => exact inv_advance (inv_writeCmdiv h _) _
  case startClock => exact inv_advance (inv_writeCmctl h _) _
  case writeRange => exact inv_advance (inv_writeRng h _ _) _
  case clearBerr => exact inv_advance (inv_writeSta h _) _
  case push => exact inv_advance (inv_writeFif h _) _

theorem inv_hostTurn (h : Inv s) : Inv s.hostTurn := by
  unfold State.hostTurn
  split
  exacts [h, inv_micro h _ _]

theorem inv_startSeq (h : Inv s) (seq : List Micro) : Inv (s.startSeq seq) := by
  unfold State.startSeq
  split
  exacts [inv_answer h _, inv_hostTurn (inv_withHost h _)]

/-! ### The serializer -/

/-- Emitting keeps an enabled channel's invariant. -/
theorem chanInv_emit (h : ChanInv cfg x) (on : x.ctl.pwen = true) (b : Bool) : ChanInv cfg (x.emit b) := by
  refine ⟨h.pos_le_len, ?_, ?_, ?_, ?_⟩
  · intro a; simp [Chan.emit, on] at a
  · intro a; simp [Chan.emit, on] at a
  · intro a; simp [Chan.emit, on] at a
  · have := h.mark_le; simp [Chan.emit]; omega

/-- A shift inside the slot leaves an enabled channel within its bounds. -/
theorem chanInv_shift (m : x.mark ≤ x.tx.length) (on : x.ctl.pwen = true) (lt : x.pos < x.len) :
    ChanInv cfg x.shift := by
  refine ⟨lt, ?_, ?_, ?_, ?_⟩
  · intro a; simp [Chan.shift, Chan.emit, on] at a
  · intro a; simp [Chan.shift, Chan.emit, on] at a
  · intro a; simp [Chan.shift, Chan.emit, on] at a
  · simp [Chan.shift, Chan.emit]; omega

theorem toNat_pos_of_ne_zero {r : Word} (h : r ≠ 0#32) : 0 < r.toNat :=
  Nat.pos_of_ne_zero fun e => h (BitVec.eq_of_toNat_eq e)

/-- A word taken from the FIFO is its head (R138). -/
theorem wordSource_fifo {c : ChanId} {v : Word} {rest : List Word} (h : s.wordSource c = .fifo v rest) :
    s.fifo = v :: rest := by
  unfold State.wordSource at h
  cases hu : (s.chan c).ctl.usef <;> cases hf : s.fifo <;> cases hl : (s.chan c).last <;>
    cases hr : (s.chan c).ctl.rptl <;> simp_all

theorem inv_tick (h : Inv s) (c : ChanId) (on : (s.chan c).ctl.pwen = true) (e : s.tick c = .next t) : Inv t := by
  have hx := inv_chan h c
  rcases tick_cases s c e with
    ⟨hp, rfl⟩ | ⟨hp, hw, rfl⟩ | ⟨hp, hr, v, rest, hw, rfl⟩ | ⟨hp, hr, v, hw, rfl⟩ | ⟨hp, hr, hw, rfl⟩
  · exact inv_setChan h c (chanInv_shift hx.mark_le on (by have := hx.pos_le_len; omega))
  · exact inv_same (inv_setChan h c (x := (s.chan c).underrun)
      (chanInv_emit (x := { s.chan c with gapo := true, sta := false })
        ⟨hx.pos_le_len, hx.off_low, hx.off_idle, fun _ => rfl, hx.mark_le⟩ on _)) rfl rfl rfl rfl
  · have i := inv_setChan h c (x := ((s.chan c).loadFifo v).shift)
      (chanInv_shift hx.mark_le on (toNat_pos_of_ne_zero hr))
    refine inv_of i rfl ?_ i.chan1 i.chan2
    have := h.fifo_le
    rw [wordSource_fifo hw, List.length_cons] at this
    simpa using Nat.le_of_succ_le this
  · exact inv_setChan h c (chanInv_shift hx.mark_le on (toNat_pos_of_ne_zero hr))
  · exact inv_setChan h c (chanInv_shift hx.mark_le on (toNat_pos_of_ne_zero hr))

/-- The open level of an enabled Balance channel's line (R138, U7). -/
theorem inv_balanceTick (h : Inv s) (c : ChanId) (on : (s.chan c).ctl.pwen = true) : Inv (s.balanceTick c) := by
  have hx := inv_chan h c
  refine inv_same (inv_setChan h c (x := { s.chan c with out := Config.freeLevel s.fresh })
    ⟨hx.pos_le_len, ?_, hx.off_idle, hx.off_quiet, hx.mark_le⟩) rfl rfl rfl rfl
  intro a
  simp [on] at a

/-- A tick of a channel keeps the invariant, whichever of its cases runs. -/
theorem inv_execSerTick (h : Inv s) (c : ChanId) (e : execSerTick c s = .next t) : Inv t := by
  unfold execSerTick at e
  split at e
  case isFalse => cases e; exact h
  case isTrue on =>
    simp only [Bool.and_eq_true] at on
    split at e
    · split at e
      · exact inv_tick h c on.1 e
      · cases e
    · cases e; exact inv_balanceTick h c on.1

end Sys2Proof.Machine
end

