-- ==== Sys2Proof/Laws/PerInstr.lean ====
section
/-! SUPPORT. One law made for every instruction: the descriptor of an operation starts with a selector of R110's map,
and the forms and formats have no selector. -/

namespace Sys2Proof.Laws

/-- The selectors R110 gives the operations: 0x01 to 0x12, 0x20 to 0x25, 0x30 to 0x3B, 0x40 to 0x42. -/
def selectorInMap (b : Byte) : Bool :=
  decide (0x01 ≤ b.toNat ∧ b.toNat ≤ 0x12) || decide (0x20 ≤ b.toNat ∧ b.toNat ≤ 0x25) ||
  decide (0x30 ≤ b.toNat ∧ b.toNat ≤ 0x3B) || decide (0x40 ≤ b.toNat ∧ b.toNat ≤ 0x42)

/-- What is said of one instruction. -/
def Opsel.Statement (i : Instr) : Prop :=
  (encode i).1 = .op → ∃ b rest, (encode i).2 = b :: rest ∧ selectorInMap b = true

namespace Opsel

theorem rdCtl : Statement .rdCtl := fun _ => ⟨_, _, rfl, rfl⟩
theorem wrCtl (v : Word) : Statement (.wrCtl v) := fun _ => ⟨_, _, rfl, rfl⟩
theorem rdSta : Statement .rdSta := fun _ => ⟨_, _, rfl, rfl⟩
theorem wrSta (v : Word) : Statement (.wrSta v) := fun _ => ⟨_, _, rfl, rfl⟩
theorem rdRng (c : ChanId) : Statement (.rdRng c) := fun _ => ⟨_, _, rfl, rfl⟩
theorem wrRng (c : ChanId) (v : Word) : Statement (.wrRng c v) := fun _ => ⟨_, _, rfl, rfl⟩
theorem rdDat (c : ChanId) : Statement (.rdDat c) := fun _ => ⟨_, _, rfl, rfl⟩
theorem wrDat (c : ChanId) (v : Word) : Statement (.wrDat c v) := fun _ => ⟨_, _, rfl, rfl⟩
theorem wrFif (v : Word) : Statement (.wrFif v) := fun _ => ⟨_, _, rfl, rfl⟩
theorem rdFif : Statement .rdFif := fun _ => ⟨_, _, rfl, rfl⟩
theorem rdCmctl : Statement .rdCmctl := fun _ => ⟨_, _, rfl, rfl⟩
theorem wrCmctl (v : Word) : Statement (.wrCmctl v) := fun _ => ⟨_, _, rfl, rfl⟩
theorem rdCmdiv : Statement .rdCmdiv := fun _ => ⟨_, _, rfl, rfl⟩
theorem wrCmdiv (v : Word) : Statement (.wrCmdiv v) := fun _ => ⟨_, _, rfl, rfl⟩
theorem unmapped (blk : Block) (off : Nat) : Statement (.unmapped blk off) := fun _ => ⟨_, _, rfl, rfl⟩
theorem serTick (c : ChanId) : Statement (.serTick c) := fun _ => ⟨_, _, rfl, rfl⟩
theorem cmSettle : Statement .cmSettle := fun _ => ⟨_, _, rfl, rfl⟩
theorem busErr : Statement .busErr := fun _ => ⟨_, _, rfl, rfl⟩
theorem configure (c : Nat) (range : Word) (divisor : Nat) (mode : Mode) (useFifo : Bool) :
    Statement (.configure c range divisor mode useFifo) := fun _ => ⟨_, _, rfl, rfl⟩
theorem pushWord (v : Word) : Statement (.pushWord v) := fun _ => ⟨_, _, rfl, rfl⟩
theorem pushFifo (words : List Word) : Statement (.pushFifo words) := fun _ => ⟨_, _, rfl, rfl⟩
theorem enable (c : ChanId) : Statement (.enable c) := fun _ => ⟨_, _, rfl, rfl⟩
theorem disable (c : ChanId) : Statement (.disable c) := fun _ => ⟨_, _, rfl, rfl⟩
theorem clearFifo : Statement .clearFifo := fun _ => ⟨_, _, rfl, rfl⟩
theorem scale (ch : Byte) (b : Brightness) : Statement (.scale ch b) := fun _ => ⟨_, _, rfl, rfl⟩
theorem colorWord (r g b : Byte) : Statement (.colorWord r g b) := fun _ => ⟨_, _, rfl, rfl⟩
theorem bitSel (cw : CWord) (p : Nat) : Statement (.bitSel cw p) := fun _ => ⟨_, _, rfl, rfl⟩
theorem symbol (bit : Bool) : Statement (.symbol bit) := fun _ => ⟨_, _, rfl, rfl⟩
theorem frameLen (n : Nat) : Statement (.frameLen n) := fun _ => ⟨_, _, rfl, rfl⟩
theorem locate (g : Nat) : Statement (.locate g) := fun _ => ⟨_, _, rfl, rfl⟩
theorem clearFrame (fw : Nat) : Statement (.clearFrame fw) := fun _ => ⟨_, _, rfl, rfl⟩
theorem place (g : Nat) (sym : Sym) : Statement (.place g sym) := fun _ => ⟨_, _, rfl, rfl⟩
theorem encPixel (i : Nat) (px : Pixel) (b : Brightness) : Statement (.encPixel i px b) := fun _ => ⟨_, _, rfl, rfl⟩
theorem encodeFrame (pixels : List Pixel) (b : Brightness) :
    Statement (.encodeFrame pixels b) := fun _ => ⟨_, _, rfl, rfl⟩
theorem symDec (sym : Sym) : Statement (.symDec sym) := fun _ => ⟨_, _, rfl, rfl⟩
theorem decodeFrame (w : List Word) (n : Nat) : Statement (.decodeFrame w n) := fun _ => ⟨_, _, rfl, rfl⟩
theorem pushFrame (c : ChanId) (pixels : List Pixel) (b : Brightness) :
    Statement (.pushFrame c pixels b) := fun _ => ⟨_, _, rfl, rfl⟩
theorem hold (c : ChanId) (nbits : Nat) : Statement (.hold c nbits) := fun _ => ⟨_, _, rfl, rfl⟩
theorem latchWait : Statement .latchWait := fun _ => ⟨_, _, rfl, rfl⟩
theorem placeA (w : Nat) (off : Nat) (sym : Sym) : Statement (.placeA w off sym) := nofun
theorem placeB (w : Nat) (sym : Sym) : Statement (.placeB w sym) := nofun
theorem placeC (w : Nat) (sym : Sym) : Statement (.placeC w sym) := nofun
theorem sym0 : Statement .sym0 := nofun
theorem sym1 : Statement .sym1 := nofun
theorem sym (bit : Bool) : Statement (.sym bit) := nofun
theorem cw (g r b : Byte) : Statement (.cw g r b) := nofun
theorem ctlw (f : CtlFields) : Statement (.ctlw f) := nofun
theorem staw (f : StaFields) : Statement (.staw f) := nofun
theorem rngw (v : Word) : Statement (.rngw v) := nofun
theorem datw (v : Word) : Statement (.datw v) := nofun
theorem fifw (v : Word) : Statement (.fifw v) := nofun
theorem cmctlw (p : Byte) (busy enab : Bool) : Statement (.cmctlw p busy enab) := nofun
theorem cmdivw (p : Byte) (divi : BitVec 12) : Statement (.cmdivw p divi) := nofun

end Opsel

end Sys2Proof.Laws
end

