-- ==== Sys2Proof/Laws/Scale.lean ====
section
/-! SUPPORT. `SCALE_FN` by thresholds: the order of brightnesses is the order of rational numbers, a count of passed
thresholds rises with the brightness and along channel values, and the exact product is such a count (R181). -/

namespace Sys2Proof.Machine

/-- The rational number a brightness stands for (R22). -/
def brtVal (b : Brightness) : ℚ := (b.num : ℚ) / (brtDen b : ℚ)

theorem brtDen_pos (b : Brightness) : (0 : ℚ) < (brtDen b : ℚ) := by
  exact_mod_cast Nat.succ_pos b.denPred

theorem brtLe_iff (a b : Brightness) : brtLe a b = true ↔ brtVal a ≤ brtVal b := by
  rw [brtLe, decide_eq_true_eq, brtVal, brtVal, div_le_div_iff₀ (brtDen_pos a) (brtDen_pos b)]
  exact_mod_cast Iff.rfl

theorem cutPassed_iff (b : Brightness) (t : ScaleCut) :
    cutPassed b t = true ↔ brtVal t.point < brtVal b ∨ (t.above = false ∧ brtVal t.point = brtVal b) := by
  unfold cutPassed
  cases h : t.above
  · simp only [Bool.false_eq_true, if_false, brtLe_iff, true_and]
    exact le_iff_lt_or_eq
  · simp only [if_true, Bool.not_eq_true', Bool.true_eq_false, false_and, or_false]
    rw [← not_le, ← brtLe_iff, Bool.not_eq_true]

/-- A greater brightness passes every threshold a smaller one passes. -/
theorem cutPassed_mono {b b' : Brightness} {t : ScaleCut} (h : brtVal b ≤ brtVal b') (p : cutPassed b t = true) :
    cutPassed b' t = true := by
  rw [cutPassed_iff] at p ⊢
  rcases p with p | ⟨ha, p⟩
  · exact .inl (p.trans_le h)
  · exact (p ▸ h).lt_or_eq.imp id fun e => ⟨ha, e⟩

theorem cutPassed_within {b : Brightness} {t u : ScaleCut} (h : cutWithin t u = true) (p : cutPassed b t = true) :
    cutPassed b u = true := by
  simp only [cutWithin, Bool.and_eq_true, Bool.or_eq_true, Bool.not_eq_true', brtLe_iff] at h
  rw [cutPassed_iff] at p ⊢
  obtain ⟨le, h⟩ := h
  rcases p with p | ⟨ha, p⟩
  · exact .inl (le.trans_lt p)
  · rcases h with (h | h) | h
    · rw [ha] at h; cases h
    · exact (p ▸ le).lt_or_eq.imp id fun e => ⟨h, e⟩
    · rw [← Bool.not_eq_true, brtLe_iff, not_le] at h
      exact .inl (p ▸ h)

/-- Thresholds passed no later one by one give no smaller a count. -/
theorem countP_below {b : Brightness} {ts us : List ScaleCut} (h : cutsBelow ts us = true)
    (len : ts.length ≤ us.length) : ts.countP (cutPassed b) ≤ us.countP (cutPassed b) := by
  induction ts generalizing us with
  | nil => simp
  | cons t ts ih =>
    cases us with
    | nil => simp at len
    | cons u us =>
      simp only [cutsBelow, List.zip_cons_cons, List.all_cons, Bool.and_eq_true] at h
      have := ih h.2 (by simpa using len)
      rw [List.countP_cons, List.countP_cons]
      by_cases p : cutPassed b t = true
      · simp [p, cutPassed_within h.1 p, this]
      · simp only [p, Bool.false_eq_true, if_false]; omega

/-- The count rises with the brightness. -/
theorem countP_mono {b b' : Brightness} (h : brtVal b ≤ brtVal b') (ts : List ScaleCut) :
    ts.countP (cutPassed b) ≤ ts.countP (cutPassed b') :=
  List.countP_mono_left fun _ _ p => cutPassed_mono h p

/-! ### The exact product -/

theorem countP_range_lt (n q : Nat) : (List.range n).countP (fun k => decide (k < q)) = min n q := by
  induction n with
  | zero => simp
  | succ n ih =>
    rw [List.range_succ, List.countP_append, ih, List.countP_singleton]
    by_cases h : n < q <;> simp [h] <;> omega

/-- The exact product's floor is the number of the thresholds `1/n` to `n/n` that are passed. -/
theorem countP_exactCuts (n : Nat) (b : Brightness) (lo : 0 ≤ b.num) (hi : b.num ≤ (brtDen b : Int)) :
    (exactCuts n).countP (cutPassed b) = n * b.num.toNat / brtDen b := by
  cases n with
  | zero => simp [exactCuts]
  | succ n =>
    obtain ⟨x, hx⟩ := Int.eq_ofNat_of_zero_le lo
    have e : ∀ k ∈ List.range (n + 1),
        ((cutPassed b ∘ fun (k : Nat) => { point := { num := (k : Int) + 1, denPred := n }, above := false }) k = true) ↔
        (decide (k < (n + 1) * b.num.toNat / brtDen b) = true) := by
      intro k _
      rw [decide_eq_true_eq, Nat.lt_iff_add_one_le, Nat.le_div_iff_mul_le (show 0 < brtDen b from Nat.succ_pos _)]
      simp only [Function.comp, cutPassed, brtLe, Bool.false_eq_true, if_false, decide_eq_true_eq, hx, brtDen,
        Int.toNat_natCast]
      rw [Nat.mul_comm (n + 1) x]
      exact_mod_cast Iff.rfl
    rw [exactCuts, List.countP_map, Nat.add_sub_cancel, List.countP_congr e, countP_range_lt, Nat.min_eq_right]
    refine Nat.div_le_of_le_mul ?_
    rw [Nat.mul_comm]
    refine Nat.mul_le_mul_right _ ?_
    omega

theorem exactCuts_length (n : Nat) : (exactCuts n).length = n := by simp [exactCuts]

/-- The exact product is monotone in the channel value. -/
theorem exactCuts_below (n : Nat) : cutsBelow (exactCuts n) (exactCuts (n + 1)) = true := by
  rw [cutsBelow, List.all_eq_true]
  rintro ⟨t, u⟩ h
  obtain ⟨k, hk, e⟩ := List.getElem_of_mem h
  simp only [List.length_zip, exactCuts_length] at hk
  rw [List.getElem_zip, Prod.mk.injEq] at e
  obtain ⟨rfl, rfl⟩ := e
  have hn : 1 ≤ n := by omega
  simp only [exactCuts, List.getElem_map, List.getElem_range, cutWithin, brtLe, Bool.not_false, Bool.true_or,
    Bool.or_true, Bool.and_true, decide_eq_true_eq, brtDen]
  refine Int.mul_le_mul_of_nonneg_left ?_ (by omega)
  omega

/-! ### Tables -/

variable {rows : List ScaleRow}

theorem rowOf_some {ch : Byte} {r : ScaleRow} (h : rowOf rows ch = some r) : r ∈ rows ∧ r.ch = ch :=
  ⟨List.mem_of_find?_eq_some h, by simpa using List.find?_some h⟩

/-- The result of a table at a channel value and a brightness in range is a count of passed thresholds. -/
theorem scaleFn_table {cfg : Config} (h : cfg.scaleFn = .table rows) (ok : scaleFnOk (.table rows) = true) (ch : Byte)
    {b : Brightness} (lo : 0 ≤ b.num) (hi : b.num ≤ (brtDen b : Int)) :
    (scaleFn cfg ch b).toNat = (cutsAt rows ch.toNat).countP (cutPassed b) := by
  have hch : BitVec.ofNat 8 ch.toNat = ch := by simp
  have lt := ch.isLt
  unfold scaleFn
  simp only [h, cutsAt, hch]
  cases hr : rowOf rows ch with
  | none =>
    dsimp only
    rw [countP_exactCuts _ _ lo hi, scaleExact, BitVec.toNat_ofNat, Nat.mod_eq_of_lt]
    refine Nat.lt_of_le_of_lt (Nat.div_le_of_le_mul ?_) lt
    rw [Nat.mul_comm]
    refine Nat.mul_le_mul_right _ ?_
    omega
  | some r =>
    obtain ⟨mem, rfl⟩ := rowOf_some hr
    have := List.all_eq_true.1 ok r mem
    simp only [scaleRowOk, cutsAt, hch, hr, Bool.and_eq_true, decide_eq_true_eq] at this
    have := this.1.1.1.1
    have le := List.countP_le_length (p := cutPassed b) (l := r.cuts)
    dsimp only
    rw [BitVec.toNat_ofNat, Nat.mod_eq_of_lt (by omega)]

/-- A legal table has `n` thresholds at channel value `n`, and is monotone from each channel value to the next. -/
theorem cutsAt_legal (ok : scaleFnOk (.table rows) = true) (n : Nat) (hn : n ≤ 255) :
    (cutsAt rows n).length = n ∧ (n < 255 → cutsBelow (cutsAt rows n) (cutsAt rows (n + 1)) = true) := by
  have row : ∀ m ≤ 255, ∀ r, rowOf rows (BitVec.ofNat 8 m) = some r → r.ch.toNat = m ∧ scaleRowOk rows r = true := by
    intro m hm r hr
    obtain ⟨mem, e⟩ := rowOf_some hr
    refine ⟨?_, List.all_eq_true.1 ok r mem⟩
    rw [e, BitVec.toNat_ofNat]
    exact Nat.mod_eq_of_lt (by omega)
  constructor
  · cases hr : rowOf rows (BitVec.ofNat 8 n) with
    | none => simp [cutsAt, hr, exactCuts_length]
    | some r =>
      obtain ⟨e, h⟩ := row n hn r hr
      simp only [scaleRowOk, Bool.and_eq_true, decide_eq_true_eq, e] at h
      exact h.1.1.1.1
  · intro lt
    cases hr : rowOf rows (BitVec.ofNat 8 n) with
    | some r =>
      obtain ⟨e, h⟩ := row n hn r hr
      simp only [scaleRowOk, Bool.and_eq_true, Bool.or_eq_true, decide_eq_true_eq, e] at h
      exact h.2.resolve_left (by omega)
    | none =>
      cases hs : rowOf rows (BitVec.ofNat 8 (n + 1)) with
      | some r =>
        obtain ⟨e, h⟩ := row (n + 1) (by omega) r hs
        simp only [scaleRowOk, Bool.and_eq_true, decide_eq_true_eq, e] at h
        exact h.1.2
      | none =>
        simp only [cutsAt, hr, hs]
        exact exactCuts_below n

/-- None passed at 0 and all at 1, at every channel value of a legal table. -/
theorem cutsAt_ends (ok : scaleFnOk (.table rows) = true) (n : Nat) (hn : n ≤ 255) {b : Brightness} :
    (b.num = 0 → (cutsAt rows n).countP (cutPassed b) = 0) ∧
    (b.num = (brtDen b : Int) → (cutsAt rows n).countP (cutPassed b) = n) := by
  have len := (cutsAt_legal ok n hn).1
  have pos := brtDen_pos b
  cases hr : rowOf rows (BitVec.ofNat 8 n) with
  | none =>
    have e : cutsAt rows n = exactCuts n := by simp [cutsAt, hr]
    have dp : 0 < brtDen b := Nat.succ_pos _
    constructor <;> intro h
    · rw [e, countP_exactCuts n b (by omega) (by omega), h]; simp
    · rw [e, countP_exactCuts n b (by omega) (by omega), h, Int.toNat_natCast, Nat.mul_div_cancel _ dp]
  | some r =>
    obtain ⟨mem, e⟩ := rowOf_some hr
    have hc : r.ch.toNat = n := by rw [e, BitVec.toNat_ofNat]; exact Nat.mod_eq_of_lt (by omega)
    have := List.all_eq_true.1 ok r mem
    simp only [scaleRowOk, Bool.and_eq_true, decide_eq_true_eq, hc, List.all_eq_true, Bool.not_eq_true'] at this
    obtain ⟨⟨⟨⟨-, zero⟩, one⟩, -⟩, -⟩ := this
    constructor <;> intro h
    · rw [List.countP_eq_zero]
      intro t ht p
      have z := zero t ht
      rw [cutPassed_mono (b := b) ?_ p] at z
      · cases z
      · simp [brtVal, h]
    · rw [List.countP_eq_length.2, len]
      intro t ht
      refine cutPassed_mono (b := { num := 1, denPred := 0 }) ?_ (one t ht)
      have : brtVal b = 1 := by
        rw [brtVal, h]
        rw [Int.cast_natCast]
        exact div_self pos.ne'
      rw [this]; simp [brtVal, brtDen]

/-- The count rises along channel values. -/
theorem cutsAt_mono (ok : scaleFnOk (.table rows) = true) {m n : Nat} (h : m ≤ n) (hn : n ≤ 255) (b : Brightness) :
    (cutsAt rows m).countP (cutPassed b) ≤ (cutsAt rows n).countP (cutPassed b) := by
  induction n, h using Nat.le_induction with
  | base => exact Nat.le_refl _
  | succ n h ih =>
    obtain ⟨l1, b1⟩ := cutsAt_legal ok n (by omega)
    obtain ⟨l2, -⟩ := cutsAt_legal ok (n + 1) hn
    exact (ih (by omega)).trans (countP_below (b1 (by omega)) (by omega))

end Sys2Proof.Machine
end

