-- ==== Sys2Proof/Tests/Slice0.lean ====
section
/-! SUPPORT. The model's own tests. Expected values are the spec's: the encodings of 30_encoding.md and the worked
vectors of 95_test_vectors.md (named in each test). Then, for every obligation with hypotheses, a state and operands
that meet them. -/

namespace Sys2Proof.Tests

open Sys2Proof.Machine

/-! ### Helpers -/

/-- The next state, or the state given where there is none. -/
def after (s : State) (i : Instr) : State :=
  match exec i s with
  | .next t => t
  | _ => s

/-- The answer of an operation that runs, none where it stops. -/
def answerTo (s : State) (i : Instr) : Option Result :=
  match exec i s with
  | .next t => some t.res
  | _ => none

/-- The refusal of an operation that is refused. -/
def refusalOf (s : State) (i : Instr) : Option Refusal :=
  match exec i s with
  | .refused r => some r
  | _ => none

/-- The operation decoded, none where the bytes are rejected. -/
def decoded (sp : Space) (bs : List Byte) : Option Instr := (decode sp bs).toOption

/-- The reason bytes are rejected. -/
def rejected (sp : Space) (bs : List Byte) : Option DecodeError :=
  match decode sp bs with
  | .ok _ => none
  | .error e => some e

/-- The control fields of an admitted channel, disabled (R12). -/
def wsCtl : CtlChan := { ctlReset with mode := .serializer, usef := true }

/-- A machine after `CONFIGURE 1, 32, 8, Serializer, true` and `CM_SETTLE`. -/
def ready : State :=
  { State.reset with
    ch1 := { Chan.reset 32#32 0#32 0#32 with ctl := wsCtl }
    cm := { enab := true, busy := false, divi := 8#12 } }

/-- The same machine enabled, its FIFO given, one tick from loading. -/
def sending (words : List Word) : State :=
  { ready with ch1 := { ready.ch1 with ctl := { wsCtl with pwen := true } }, fifo := words }

/-- The same parameters with R12's refusal lifted, so that the rules outside WSCFG run (log entry 6). -/
def lifted (s : State) : State := { s with cfg := { s.cfg with wsOnly := false } }

/-- The machine with a FIFO given. -/
def holding (words : List Word) : State := { State.reset with fifo := words }

/-- Brightness 1 and brightness 3/10. -/
def one : Brightness := { num := 1, denPred := 0 }
def threeTenths : Brightness := { num := 3, denPred := 9 }

/-- A frame of `n` all-ones words in the encoder. -/
def onesFrame (n : Nat) : State :=
  { State.reset with enc := { Enc.idle with w := List.replicate n 0xFFFFFFFF#32 } }

/-! ### WellFormed: each check refuses an ill-formed term, and admits the boundary -/

theorem test_wf_placeA : (Instr.placeA 0 30 6#3).wf = false ∧ (Instr.placeA 0 29 6#3).wf = true := by decide

-- an operand outside the domain its rule states decodes: R183's p, R186's and R188's g, R200's N
theorem test_operands_outside_domains_decode :
    decoded .op [0x32#8, 0#8, 0#8, 0#8, 24#8] = some (.bitSel 0#24 24) ∧
    decoded .op [0x35#8, 1#8] = some (.locate 1) ∧ decoded .op [0x37#8, 1#8, 6#8] = some (.place 1 6#3) ∧
    decoded .op [0x3B#8, 0#8, 1#8] = some (.decodeFrame [] 1) := by decide

/-! ### Decoding: descriptors and words from the spec's encodings -/

-- R110: the selector byte of each operation; operand bytes are the model's (log entry 1)
theorem test_decode_reg_reads :
    decoded .op [0x01#8] = some .rdCtl ∧ decoded .op [0x03#8] = some .rdSta ∧
    decoded .op [0x05#8, 0x00#8] = some (.rdRng .ch1) ∧ decoded .op [0x07#8, 0x01#8] = some (.rdDat .ch2) ∧
    decoded .op [0x0A#8] = some .rdFif ∧ decoded .op [0x0B#8] = some .rdCmctl ∧
    decoded .op [0x0D#8] = some .rdCmdiv := by decide

-- R113: the words are stored least significant byte first
theorem test_decode_reg_writes :
    decoded .op [0x02#8, 0x23#8, 0x01#8, 0x00#8, 0x00#8] = some (.wrCtl 0x00000123#32) ∧
    decoded .op [0x04#8, 0x00#8, 0x01#8, 0x00#8, 0x00#8] = some (.wrSta 0x00000100#32) ∧
    decoded .op [0x06#8, 0x00#8, 0x20#8, 0x00#8, 0x00#8, 0x00#8] = some (.wrRng .ch1 0x00000020#32) ∧
    decoded .op [0x08#8, 0x01#8, 0x78#8, 0x56#8, 0x34#8, 0x12#8] = some (.wrDat .ch2 0x12345678#32) ∧
    decoded .op [0x09#8, 0xEF#8, 0xBE#8, 0xAD#8, 0xDE#8] = some (.wrFif 0xDEADBEEF#32) ∧
    decoded .op [0x0C#8, 0x10#8, 0x00#8, 0x00#8, 0x5A#8] = some (.wrCmctl 0x5A000010#32) ∧
    decoded .op [0x0E#8, 0x00#8, 0x80#8, 0x00#8, 0x5A#8] = some (.wrCmdiv 0x5A008000#32) := by decide

theorem test_decode_unmapped_and_agents :
    decoded .op [0x0F#8, 0x00#8, 0x08#8] = some (.unmapped .pwm 8) ∧
    decoded .op [0x10#8, 0x01#8] = some (.serTick .ch2) ∧ decoded .op [0x11#8] = some .cmSettle ∧
    decoded .op [0x12#8] = some .busErr := by decide

-- 4104 is two groups of seven bits, the lower first
theorem test_decode_host :
    decoded .op [0x20#8, 0x01#8, 0x20#8, 0#8, 0#8, 0#8, 0x88#8, 0x20#8, 0x01#8, 0x01#8] =
      some (.configure 1 32#32 4104 .serializer true) ∧
    decoded .op [0x21#8, 0xDB#8, 0x24#8, 0x49#8, 0x92#8] = some (.pushWord 0x924924DB#32) ∧
    decoded .op [0x22#8, 0x02#8, 1#8, 0#8, 0#8, 0#8, 2#8, 0#8, 0#8, 0#8] = some (.pushFifo [1#32, 2#32]) ∧
    decoded .op [0x23#8, 0x00#8] = some (.enable .ch1) ∧ decoded .op [0x24#8, 0x01#8] = some (.disable .ch2) ∧
    decoded .op [0x25#8] = some .clearFifo := by decide

theorem test_decode_encoder :
    decoded .op [0x30#8, 0xFF#8, 0x00#8, 0x03#8, 0x09#8] = some (.scale 255#8 threeTenths) ∧
    decoded .op [0x31#8, 0x3C#8, 0x00#8, 0x80#8] = some (.colorWord 60#8 0#8 128#8) ∧
    decoded .op [0x32#8, 0x80#8, 0xFF#8, 0x00#8, 0x08#8] = some (.bitSel 0x00FF80#24 8) ∧
    decoded .op [0x33#8, 0x01#8] = some (.symbol true) ∧ decoded .op [0x34#8, 0x04#8] = some (.frameLen 4) ∧
    decoded .op [0x35#8, 0x3F#8] = some (.locate 63) ∧ decoded .op [0x36#8, 0x03#8] = some (.clearFrame 3) ∧
    decoded .op [0x37#8, 0x1E#8, 0x06#8] = some (.place 30 0b110#3) ∧
    decoded .op [0x38#8, 0x01#8, 1#8, 2#8, 3#8, 0#8, 1#8, 0#8] =
      some (.encPixel 1 { r := 1#8, g := 2#8, b := 3#8 } one) ∧
    decoded .op [0x39#8, 0x01#8, 1#8, 2#8, 3#8, 0#8, 1#8, 0#8] =
      some (.encodeFrame [{ r := 1#8, g := 2#8, b := 3#8 }] one) ∧
    decoded .op [0x3A#8, 0x07#8] = some (.symDec 0b111#3) ∧
    decoded .op [0x3B#8, 0x00#8, 0x00#8] = some (.decodeFrame [] 0) := by decide

-- a brightness outside [0, 1] is an operand: -1/10 (V40)
theorem test_decode_frame_cycle :
    decoded .op [0x40#8, 0x00#8, 0x00#8, 0x01#8, 0x01#8, 0x09#8] =
      some (.pushFrame .ch1 [] { num := -1, denPred := 9 }) ∧
    decoded .op [0x41#8, 0x00#8, 0x48#8] = some (.hold .ch1 72) ∧ decoded .op [0x42#8] = some .latchWait := by decide

-- R112: 11110 selects B, 11111 selects C, any other value A; V8 gives the words and offsets
theorem test_decode_forms :
    decoded .placeForm [0x1E#8, 0x06#8] = some (.placeB 0 0b110#3) ∧
    decoded .placeForm [0x3F#8, 0x04#8] = some (.placeC 1 0b100#3) ∧
    decoded .placeForm [0x5D#8, 0x04#8] = some (.placeA 2 0 0b100#3) ∧
    decoded .placeForm [0x00#8, 0x06#8] = some (.placeA 0 29 0b110#3) := by decide

-- R93: 100, 110, and 1b0
theorem test_decode_symbols :
    decoded .symConst [0b100#8] = some .sym0 ∧ decoded .symConst [0b110#8] = some .sym1 ∧
    decoded .symBit [0b110#8] = some (.sym true) ∧ rejected .symBit [0b101#8] = some .badPattern := by decide

-- R92: ggggggggrrrrrrrrbbbbbbbb, 0x00FF80 (V3)
theorem test_decode_cw : decoded .cw [0x80#8, 0xFF#8, 0x00#8] = some (.cw 0x00#8 0xFF#8 0x80#8) := by decide

-- R101: PWEN1 bit 0, MODE1 bit 1, USEF1 bit 5, PWEN2 bit 8, MSEN2 bit 15; bit 14 is reserved
theorem test_decode_ctlw :
    decoded .ctlw [0x23#8, 0x81#8, 0#8, 0#8] =
      some (.ctlw { c1 := { wsCtl with pwen := true }, c2 := { ctlReset with pwen := true, msen := true },
                    clrf := false }) ∧
    rejected .ctlw [0x00#8, 0x40#8, 0#8, 0#8] = some .reservedBits := by decide

-- R102: EMPT bit 1, RERR bit 3, GAPO1 bit 4, STA1 bit 9; bit 6 is reserved
theorem test_decode_staw :
    decoded .staw [0x1A#8, 0x02#8, 0#8, 0#8] =
      some (.staw { full := false, empt := true, werr := false, rerr := true, gapo1 := true, gapo2 := false,
                    berr := false, sta1 := true, sta2 := false }) ∧
    rejected .staw [0x40#8, 0#8, 0#8, 0#8] = some .reservedBits := by decide

-- R103, R105, R106: the password on top, BUSY bit 7, ENAB bit 4, DIVI bits 23 to 12
theorem test_decode_other_words :
    decoded .rngw [0x20#8, 0#8, 0#8, 0#8] = some (.rngw 32#32) ∧
    decoded .datw [0x78#8, 0x56#8, 0x34#8, 0x12#8] = some (.datw 0x12345678#32) ∧
    decoded .fifw [0xDB#8, 0x24#8, 0x49#8, 0x92#8] = some (.fifw 0x924924DB#32) ∧
    decoded .cmctlw [0x90#8, 0#8, 0#8, 0x5A#8] = some (.cmctlw 0x5A#8 true true) ∧
    decoded .cmdivw [0#8, 0xF0#8, 0xFF#8, 0x5A#8] = some (.cmdivw 0x5A#8 0xFFF#12) := by decide

-- R110, U9 and U1
theorem test_rejected_descriptors :
    rejected .op [] = some .truncated ∧ rejected .op [0x13#8] = some (.unknownOpsel 0x13#8) ∧
    rejected .op [0x10#8, 0x02#8] = some (.badChannel 0x02#8) ∧ rejected .op [0x02#8, 1#8] = some .truncated := by
  decide

theorem test_decodeTableWord :
    decodeTableWord 8 0x01 = some .rdCtl ∧ decodeTableWord 8 0x42 = some .latchWait ∧
    decodeTableWord 8 0x1E = some (.placeB 0 0#3) ∧ decodeTableWord 24 0 = some (.cw 0#8 0#8 0#8) ∧
    decodeTableWord 8 0xFF = none := by decide

/-! ### Family REG -/

-- V50
theorem test_reads_at_reset :
    answerTo State.reset .rdCtl = some (.word 0#32) ∧ answerTo State.reset .rdSta = some (.word 0x00000002#32) ∧
    answerTo State.reset .rdCmctl = some (.word 0#32) := by decide

-- V51
theorem test_wrCtl_reads_back :
    answerTo (after State.reset (.wrCtl 0x00000022#32)) .rdCtl = some (.word 0x00000022#32) ∧
    answerTo (after State.reset (.wrCtl 0xFFFFFFFF#32)) .rdCtl = some (.word 0x0000BFBF#32) := by decide

-- R122 by the clear-FIFO bit
theorem test_wrCtl_clears_fifo : (after (holding [1#32, 2#32]) (.wrCtl 0x00000040#32)).fifo = [] := by decide

-- V52
theorem test_range_and_data :
    answerTo (after State.reset (.wrRng .ch1 0x00000021#32)) (.rdRng .ch1) = some (.word 0x00000021#32) ∧
    (after State.reset (.wrRng .ch1 0x00000021#32)).ch2.rng = State.reset.ch2.rng ∧
    answerTo (after State.reset (.wrDat .ch2 0x12345678#32)) (.rdDat .ch2) = some (.word 0x12345678#32) := by decide

-- V53: the eighth word fills the FIFO, the ninth is lost and flagged
theorem test_wrFif_fill_and_overflow :
    answerTo (after (holding (List.replicate 7 0#32)) (.wrFif 0x88888888#32)) .rdSta = some (.word 0x00000001#32) ∧
    answerTo (after (holding (List.replicate 8 0#32)) (.wrFif 0xDEADBEEF#32)) .rdSta = some (.word 0x00000005#32) ∧
    (after (holding (List.replicate 8 0#32)) (.wrFif 0xDEADBEEF#32)).fifo = List.replicate 8 0#32 := by decide

-- V54: from EMPT, RERR and GAPO1
theorem test_wrSta_clears_what_is_given :
    let s := { State.reset with rerr := true, ch1 := { State.reset.ch1 with gapo := true } }
    answerTo (after s (.wrSta 0x00000008#32)) .rdSta = some (.word 0x00000012#32) ∧
    answerTo (after s (.wrSta 0x00000203#32)) .rdSta = some (.word 0x0000001A#32) := by decide

-- V55
theorem test_clock_manager :
    answerTo (after State.reset (.wrCmdiv 0x5A008000#32)) .rdCmdiv = some (.word 0x00008000#32) ∧
    answerTo (after State.reset (.wrCmctl 0x5A000010#32)) .rdCmctl = some (.word 0x00000090#32) ∧
    answerTo (after (after State.reset (.wrCmctl 0x5A000010#32)) .cmSettle) .rdCmctl = some (.word 0x00000010#32) := by
  decide

-- V55: without the password the write is ignored
theorem test_clock_manager_password :
    answerTo (after State.reset (.wrCmdiv 0x00008000#32)) .rdCmdiv = some (.word 0#32) := by decide

-- V56
theorem test_rdFif_pops_nothing : (after (holding [7#32]) .rdFif).fifo = [7#32] := by decide
theorem test_unmapped_is_refused : refusalOf State.reset (.unmapped .pwm 8) = some (.unmappedAccess .pwm 8) := by
  decide

/-! ### Family AGT -/

-- V57: tick 1 loads the word and sends its bit 31
theorem test_tick_loads :
    let t := after (sending [0x80000001#32]) (.serTick .ch1)
    t.ch1.tx = [true] ∧ t.ch1.pos = 1 ∧ t.ch1.len = 32 ∧ answerTo t .rdSta = some (.word 0x00000202#32) := by decide

-- V62: an underrun on the first tick
theorem test_tick_underrun :
    let t := after (sending []) (.serTick .ch1)
    t.ch1.tx = [false] ∧ answerTo t .rdSta = some (.word 0x0000001A#32) := by decide

-- V60: past the word's 32 bits of a slot of 40, zeros; V64: no step without enable or clock
theorem test_tick_past_the_word :
    let s := sending []
    (after { s with ch1 := { s.ch1 with sr := 0xFFFFFFFF#32, pos := 32, len := 40 } } (.serTick .ch1)).ch1.tx = [false] ∧
    (after ready (.serTick .ch1)).ch1.tx = [] ∧
    (after { s with cm := { s.cm with divi := 0#12 } } (.serTick .ch1)).ch1.tx = [] := by decide

-- R31, R43, R140, R143 in words: a word loaded from the data register is the last word, and a repeat sets STA[c]
theorem test_tick_last_word :
    let s := lifted (sending [])
    let d := after { s with ch1 := { s.ch1 with ctl := { s.ch1.ctl with usef := false }, dat := 7#32 } } (.serTick .ch1)
    let l := after { s with ch1 := { s.ch1 with ctl := { s.ch1.ctl with rptl := true }, last := some 7#32 } }
      (.serTick .ch1)
    d.ch1.last = some 7#32 ∧ l.ch1.sta = true := by decide

-- R12, D3, U14: the refusal outside WSCFG, none inside, and none where it is lifted
theorem test_tick_outside_wsCfg :
    let s := sending [1#32]
    let wide := { s with ch1 := { s.ch1 with rng := 33#32 } }
    refusalOf wide (.serTick .ch1) = some (.outsideWsCfg .ch1) ∧
    refusalOf { s with ch2 := { s.ch2 with ctl := { s.ch2.ctl with usef := true } } } (.serTick .ch1) =
      some (.outsideWsCfg .ch1) ∧
    (after s (.serTick .ch1)).ch1.tx = [false] ∧ (after (lifted wide) (.serTick .ch1)).ch1.len = 33 := by decide

-- V65
theorem test_busErr :
    (after State.reset .busErr).berr = false ∧
    (let s := { State.reset with cfg := { Config.default with berrOracle := .after [.ctl] }, lastWr := some .ctl }
     answerTo (after s .busErr) .rdSta = some (.word 0x00000102#32)) := by decide

/-! ### Family HOST -/

-- V71
theorem test_configure_no_channel :
    answerTo State.reset (.configure 3 32#32 8 .serializer true) = some (.failed (.invalidChannel 3)) := by decide

-- V69 and V70: step 4's control words and step 2's divisor word, from a reset channel
theorem test_configure_words :
    modeWord Layout.default .ch2 .serializer false 0#32 = 0x00002200#32 ∧
    modeWord Layout.default .ch1 .balance false 0#32 = 0#32 ∧
    modeWord Layout.default .ch1 .balance true 0#32 = 0x00000020#32 ∧
    (hostTurns 4 (after State.reset (.configure 1 32#32 4104 .serializer true))).cm.divi = 8#12 := by decide

-- V67, V68: ENABLE's two transactions
theorem test_enable :
    (after ready (.enable .ch1)).hostTurn.readCtl = 0x00000023#32 ∧
    (after (sending []) (.enable .ch2)).hostTurn.readCtl = 0x00000123#32 := by decide

-- V63: disabling a disabled channel; V66: a word cut short
theorem test_disable :
    (after ready (.disable .ch1)).hostTurn.ch1 = ready.ch1 ∧
    (let s := sending [0x24000000#32]
     let t := (after { s with ch1 := { s.ch1 with pos := 8, len := 32, sta := true } } (.disable .ch1)).hostTurn
     answerTo t .rdSta = some (.word 0#32) ∧ t.ch1.pos = 0 ∧ t.ch1.len = 0 ∧ t.fifo = [0x24000000#32]) := by decide

-- V73, V74
theorem test_pushes :
    (after (holding [1#32]) (.pushWord 2#32)).hostTurn.fifo = [1#32, 2#32] ∧
    (hostTurns 9 (after (holding (List.replicate 8 0#32)) (.pushWord 2#32))).werr = false ∧
    answerTo State.reset (.pushFifo []) = some .done := by decide

theorem test_clearFifo : (after (holding [1#32, 2#32]) .clearFifo).hostTurn.fifo = [] := by decide

/-! ### Family ENC -/

-- V1
theorem test_scale :
    answerTo State.reset (.scale 255#8 threeTenths) = some (.byte 76#8) ∧
    answerTo State.reset (.scale 90#8 { num := 7, denPred := 9 }) = some (.byte 63#8) := by decide

/-- The exact product but for 90 * 7/10, which only a brightness above 7/10 brings to 63: V1's IEEE product. -/
def ieeeRow : ScaleRow :=
  { ch := 90#8
    cuts := (exactCuts 90).map fun t =>
      if t.point.num = 63 then { point := { num := 7, denPred := 9 }, above := true } else t }

/-- The fixed-point product `floor(ch * floor(256*b) / 256)` at one channel value: its thresholds are multiples of
1/256. -/
def fixedRow (n : Nat) : ScaleRow :=
  { ch := BitVec.ofNat 8 n
    cuts := (List.range n).map fun k =>
      { point := { num := (((256 * (k + 1) + n - 1) / n : Nat) : Int), denPred := 255 }, above := false } }

-- V1's IEEE case; and the fixed-point product at 3: 1/3 of 3 gives 0 where the exact product gives 1
theorem test_scale_tables :
    (let s := { State.reset with cfg := { Config.default with scaleFn := .table [ieeeRow] } }
     answerTo s (.scale 90#8 { num := 7, denPred := 9 }) = some (.byte 62#8) ∧
     answerTo s (.scale 90#8 { num := 71, denPred := 99 }) = some (.byte 63#8)) ∧
    (let s := { State.reset with cfg := { Config.default with scaleFn := .table [fixedRow 3] } }
     answerTo s (.scale 3#8 { num := 1, denPred := 2 }) = some (.byte 0#8) ∧
     answerTo s (.scale 3#8 { num := 86, denPred := 255 }) = some (.byte 1#8)) := by decide

-- a row that gives less than its neighbour below is no SCALE_FN (R181: monotone in ch)
theorem test_scale_table_refused :
    scaleFnOk (.table [{ ch := 2#8, cuts := [{ point := one, above := false }, { point := one, above := false }] }]) =
      true ∧
    scaleFnOk (.table [{ ch := 3#8, cuts := List.replicate 3 { point := one, above := false } }]) = false := by decide

-- V2, V3
theorem test_scale_domain_and_colorWord :
    refusalOf State.reset (.scale 1#8 { num := 11, denPred := 9 }) = some .brightnessOutsideRange ∧
    answerTo State.reset (.colorWord 1#8 2#8 3#8) = some (.cword 0x020103#24) := by decide

-- V4
theorem test_bitSel :
    answerTo State.reset (.bitSel 0x00FF80#24 7) = some (.bit false) ∧
    answerTo State.reset (.bitSel 0x00FF80#24 16) = some (.bit true) := by decide

-- V5, V6
theorem test_symbols :
    answerTo State.reset (.symbol false) = some (.sym 4#3) ∧ answerTo State.reset (.symDec 0b110#3) = some (.bit true) ∧
    answerTo State.reset (.symDec 0b101#3) = some (.failed (.badSymbol 0b101#3 none)) := by decide

-- V7, V8
theorem test_frameLen_and_locate :
    answerTo State.reset (.frameLen 5) = some (.nat 12) ∧
    answerTo State.reset (.locate 126) = some (.location 3 (-1) .B) ∧
    answerTo State.reset (.locate 63) = some (.location 1 (-2) .C) ∧
    answerTo State.reset (.locate 285) = some (.location 8 0 .A) := by decide

-- V11
theorem test_clearFrame : (after (onesFrame 2) (.clearFrame 3)).enc.w = [0#32, 0#32, 0#32] := by decide

-- V15: each form on a frame of ones
theorem test_place :
    (after (onesFrame 3) (.place 27 0b100#3)).enc.w = [0xFFFFFFF3#32, 0xFFFFFFFF#32, 0xFFFFFFFF#32] ∧
    (after (onesFrame 3) (.place 30 0b100#3)).enc.w = [0xFFFFFFFE#32, 0x7FFFFFFF#32, 0xFFFFFFFF#32] ∧
    (after (onesFrame 3) (.place 63 0b100#3)).enc.w = [0xFFFFFFFF#32, 0xFFFFFFFF#32, 0x3FFFFFFF#32] := by decide

-- V13, V14 by the forms' rows
theorem test_place_forms :
    (after (after State.reset (.clearFrame 3)) (.placeB 0 0b110#3)).enc.w = [3#32, 0#32, 0#32] ∧
    (after (after State.reset (.clearFrame 3)) (.placeC 1 0b110#3)).enc.w = [0#32, 1#32, 0x80000000#32] ∧
    (after (after State.reset (.clearFrame 3)) (.placeA 0 29 0b100#3)).enc.w = [0x80000000#32, 0#32, 0#32] := by decide

-- V20
theorem test_encode_one_pixel :
    answerTo State.reset (.encodeFrame [{ r := 255#8, g := 0#8, b := 128#8 }] one) =
      some (.frame [0x924924DB#32, 0x6DB6D249#32, 0x24000000#32]) ∧
    (after (after State.reset (.clearFrame 3)) (.encPixel 0 { r := 0#8, g := 128#8, b := 0#8 } one)).enc.w =
      [0xD2492492#32, 0x49249249#32, 0x24000000#32] := by decide

-- V40
theorem test_encode_brightness :
    answerTo State.reset (.encodeFrame [] { num := 11, denPred := 9 }) =
      some (.failed (.brightnessRange { num := 11, denPred := 9 })) := by decide

-- V34
theorem test_decode_frame_ok :
    answerTo State.reset (.decodeFrame [0x9349B49A#32, 0x4DA49249#32, 0x24000001#32] 1) =
      some (.cwords [0x264C00#24]) := by decide
theorem test_decode_frame_bad :
    answerTo State.reset (.decodeFrame [0xFFFFFFFF#32, 0#32, 0#32] 1) =
      some (.failed (.badSymbol 0b111#3 (some 0))) := by decide

/-! ### Family FRM, and the formats -/

-- V82, V83: a depth of 2 takes no pixel; with both wrong the error is the brightness
theorem test_pushFrame_checks :
    let s := { ready with cfg := { Config.default with fifoDepth := 2 } }
    answerTo s (.pushFrame .ch1 [{ r := 60#8, g := 0#8, b := 0#8 }] one) = some (.failed (.frameTooLong 1 3)) ∧
    answerTo s (.pushFrame .ch1 [{ r := 60#8, g := 0#8, b := 0#8 }] { num := 2, denPred := 0 }) =
      some (.failed (.brightnessRange { num := 2, denPred := 0 })) := by decide

-- V81, V84: a hold of no ticks returns at once, a hold of one does not
theorem test_hold :
    (after ready (.hold .ch1 0)).host.todo = [] ∧ (after ready (.hold .ch1 1)).host.todo = [.awaitTicks .ch1 1] := by
  decide

-- R101 to R106 under the default layout, V51, V54, V70
theorem test_format_words :
    answerTo State.reset (.ctlw { c1 := wsCtl, c2 := ctlReset, clrf := true }) = some (.word 0x00000062#32) ∧
    answerTo State.reset (.cmctlw 0x5A#8 false true) = some (.word 0x5A000010#32) ∧
    answerTo State.reset (.cmdivw 0x5A#8 0xFFF#12) = some (.word 0x5AFFF000#32) ∧
    answerTo State.reset (.cw 2#8 1#8 3#8) = some (.cword 0x020103#24) := by decide

/-! ### Fetching a table word -/

-- the descriptor 0x03 placed at the front of the run of a reset machine is the one the next step runs (V50)
theorem test_withFetchWord_runs :
    (match step (State.reset.withFetchWord 8 0x03) with
     | .next t => decide (t.res = .word 0x00000002#32)
     | _ => false) = true := by decide

/-! ### Witnesses: states and operands that meet the hypotheses of each obligation

An obligation that has none (a statement about every state) needs no witness for them; where it has clauses with
hypotheses of their own, each has one. -/

/-- A busy host: a push still to take. -/
def busyHost : State := { ready with host := { ready.host with todo := [.push 5#32] } }

/-- The reset machine with a run ahead. -/
def running (ts : List Turn) : State := { State.reset with run := ts }

theorem reset_inv : Inv State.reset :=
  ⟨by decide, by decide, ⟨by decide, by decide, by decide, by decide, by decide⟩,
    ⟨by decide, by decide, by decide, by decide, by decide⟩⟩

theorem ready_inv : Inv ready :=
  ⟨by decide, by decide, ⟨by decide, by decide, by decide, by decide, by decide⟩,
    ⟨by decide, by decide, by decide, by decide, by decide⟩⟩

theorem ready_is_ready : ReadyToSend ready .ch1 :=
  ⟨⟨by decide, by decide, by decide, by decide, by decide, by decide, by decide, by decide⟩, by decide, by decide,
    by decide⟩

-- an agent's step under a busy host, and a host operation under an idle one
theorem wit_StepRunsTheDecodedOperation :
    (decode .op [0x11#8] = .ok .cmSettle ∧ Instr.cmSettle.agent ≠ .host ∧ busyHost.host.todo ≠ []) ∧
    (running [.issue .op [0x03#8]]).run = .issue .op [0x03#8] :: [] ∧ decode .op [0x03#8] = .ok .rdSta ∧
    (running [.issue .op [0x03#8]]).host.todo = [] := by
  refine ⟨⟨rfl, by decide, by decide⟩, rfl, rfl, rfl⟩

theorem wit_StepWithoutAnOperationIsAHostTurn :
    State.reset.run = [] ∧ (running [.host]).run = .host :: [] ∧
    (let s := { busyHost with run := [.issue .op [0x03#8]] }
     s.run = .issue .op [0x03#8] :: [] ∧ decode .op [0x03#8] = .ok .rdSta ∧ Instr.rdSta.agent = .host ∧
       s.host.todo ≠ []) ∧
    (running [.issue .op [0x00#8]]).run = .issue .op [0x00#8] :: [] ∧
    decode .op [0x00#8] = .error (.unknownOpsel 0x00#8) := by
  refine ⟨rfl, rfl, ⟨rfl, rfl, rfl, by decide⟩, rfl, rfl⟩

-- the domain's boundaries, and operands no rule bounds
theorem wit_DecodingAnEncodedOperationGivesItBack :
    (Instr.bitSel 0xFFFFFF#24 24).wf = true ∧ (Instr.locate 1).wf = true ∧ (Instr.place 3 0#3).wf = true ∧
    (Instr.placeA 1 29 7#3).wf = true ∧ (Instr.placeA 0 0 7#3).wf = true ∧
    (Instr.decodeFrame [1#32, 2#32, 3#32] 1).wf = true ∧
    (Instr.encodeFrame [{ r := 1#8, g := 2#8, b := 3#8 }] { num := -1, denPred := 0 }).wf = true := by decide

-- a selector outside the four ranges, at each of their edges
theorem wit_OtherSelectorsAreRefused :
    ∀ b ∈ [0x00#8, 0x13#8, 0x1F#8, 0x26#8, 0x2F#8, 0x3C#8, 0x3F#8, 0x43#8, 0xFF#8],
      ¬ (0x01 ≤ b.toNat ∧ b.toNat ≤ 0x12) ∧ ¬ (0x20 ≤ b.toNat ∧ b.toNat ≤ 0x25) ∧
      ¬ (0x30 ≤ b.toNat ∧ b.toNat ≤ 0x3B) ∧ ¬ (0x40 ≤ b.toNat ∧ b.toNat ≤ 0x42) := by decide

theorem wit_EveryStepKeepsTheInvariant :
    Inv (running [.issue .op [0x11#8]]) ∧
    step (running [.issue .op [0x11#8]]) = .next { State.reset with cm := { State.reset.cm with busy := false } } :=
  ⟨⟨reset_inv.cfg_ok, reset_inv.fifo_le, reset_inv.chan1, reset_inv.chan2⟩, rfl⟩

theorem wit_ResetMeetsTheInvariant : configOk Config.default = true := by decide

theorem wit_NoStepChangesTheParameters : step State.reset = .next State.reset := rfl

theorem wit_ResetLeavesTheStatedValues : 1 ≤ ({ Config.default with fifoDepth := 1 } : Config).fifoDepth := by decide

-- the statements about registers, host operations and formats that assume a legal layout
theorem wit_layout : layoutOk State.reset.cfg.layout = true := by decide

theorem wit_ReadingControlGivesTheFields : layoutOk ready.cfg.layout = true ∧ 14 ∉ ctlPositions ready.cfg.layout := by
  decide

theorem wit_ReadingStatusGivesTheFlags : layoutOk ready.cfg.layout = true ∧ 6 ∉ staPositions ready.cfg.layout := by
  decide

theorem wit_ReadingTheClockManagerGivesItsFields :
    layoutOk ready.cfg.layout = true ∧ 31 ≠ ready.cfg.layout.cmEnab ∧ 31 ≠ ready.cfg.layout.cmBusy ∧
    11 < ready.cfg.layout.diviLsb ∧ ready.cfg.layout.diviLsb + 12 ≤ 24 := by decide

-- a channel disabled, both ways of `DISABLE_ABORTS_SLOT`; one enabled in Serializer mode; one left disabled
theorem wit_WritingControlSetsTheFields :
    let b := Config.default.layout.ctlBits .ch1
    ((sending []).ch1.ctl.pwen = true ∧ (b.fields 0x22#32).pwen = false ∧ (b.fields 0x22#32).pola = false ∧
      (sending []).cfg.disableAborts = true) ∧
    ({ sending [] with cfg := { Config.default with disableAborts := false } } : State).cfg.disableAborts = false ∧
    (ready.ch1.ctl.pwen = false ∧ (b.fields 0x23#32).pwen = true ∧ (b.fields 0x23#32).mode = .serializer) ∧
    (ready.ch1.ctl.pwen = false ∧ (b.fields 0x22#32).pwen = false ∧ ready.ch1.ctl.pola = (b.fields 0x22#32).pola ∧
      ready.ch1.out = false) := by decide

theorem wit_ControlReadsBackAsWritten : layoutOk ready.cfg.layout = true := by decide

theorem wit_WritingTheFifoPortPushesOrFlags :
    (holding (List.replicate 7 0#32)).fifo.length < (holding (List.replicate 7 0#32)).cfg.fifoDepth ∧
    (holding (List.replicate 8 0#32)).cfg.fifoDepth ≤ (holding (List.replicate 8 0#32)).fifo.length := by decide

-- the password, another byte, and a layout without one
theorem wit_WritingTheClockManagerNeedsThePassword :
    let accepted := fun (l : Layout) (v : Word) => ∀ pw, l.pass = some pw → v.extractLsb' pw.lsb 8 = pw.value
    accepted Layout.default 0x5A000010#32 ∧ ¬ accepted Layout.default 0x5B000010#32 ∧
    accepted { Layout.default with pass := none } 0x5B000010#32 := by
  refine ⟨?_, fun h => absurd (h _ rfl) (by decide), ?_⟩
  · rintro pw ⟨⟩
    rfl
  · rintro pw ⟨⟩

theorem wit_EveryRegisterIsFoundAtItsPlace :
    layoutOk Layout.default = true ∧ regAt Layout.default .pwm 0x18 = some .fif := by decide

-- a sending channel is in WSCFG, as the loading, shifting and underrun statements need under the default parameters
theorem sending_wsCfg (words : List Word) : WsCfg (sending words) .ch1 :=
  ⟨rfl, rfl, rfl, rfl, rfl, rfl, rfl, rfl⟩

-- under the default parameters (`sending_wsCfg`), and with the refusal lifted
theorem wit_TickLoadsTheFifosHead :
    ∀ s ∈ [sending [0x80000001#32], lifted (sending [0x80000001#32])],
      let x := s.chan .ch1
      x.ctl.pwen = true ∧ x.ctl.mode = .serializer ∧ s.cm.enab = true ∧ s.cm.divi ≠ 0#12 ∧ x.pos = x.len ∧
      x.ctl.usef = true ∧ s.fifo = 0x80000001#32 :: [] ∧ x.rng ≠ 0#32 ∧
      (s.cfg.wsOnly = false ∨ s.inWsCfg .ch1 = true) := by decide

-- the last bit of the word, and the first slot position past it
theorem wit_TickShiftsTheNextBitOut :
    ∀ p ∈ [31, 32],
      let s := { sending [] with ch1 := { (sending []).ch1 with pos := p, len := 40 } }
      let x := s.chan .ch1
      x.ctl.pwen = true ∧ x.ctl.mode = .serializer ∧ s.cm.enab = true ∧ s.cm.divi ≠ 0#12 ∧ x.pos < x.len ∧
        s.inWsCfg .ch1 = true := by decide

-- no repeat, which is in WSCFG, and a repeat with no word yet, which is not
theorem wit_TickUnderrunsOnAnEmptyFifo :
    ∀ r ∈ [false, true],
      let s' := { sending [] with ch1 := { (sending []).ch1 with
        ctl := { (sending []).ch1.ctl with rptl := r } } }
      let s := if r then lifted s' else s'
      let x := s.chan .ch1
      x.ctl.pwen = true ∧ x.ctl.mode = .serializer ∧ s.cm.enab = true ∧ s.cm.divi ≠ 0#12 ∧ x.pos = x.len ∧
      x.ctl.usef = true ∧ s.fifo = [] ∧ (x.ctl.rptl = false ∨ x.last = none) ∧
      (s.cfg.wsOnly = false ∨ s.inWsCfg .ch1 = true) := by decide

theorem wit_TickSendsTheDataRegisterOrTheLastWord :
    let base := lifted (sending [])
    let d := { base with ch1 := { base.ch1 with ctl := { base.ch1.ctl with usef := false } } }
    let l := { base with ch1 := { base.ch1 with ctl := { base.ch1.ctl with rptl := true }, last := some 7#32 } }
    (∀ s ∈ [d, l], (s.chan .ch1).ctl.pwen = true ∧ (s.chan .ch1).ctl.mode = .serializer ∧ s.cm.enab = true ∧
      s.cm.divi ≠ 0#12 ∧ (s.chan .ch1).pos = (s.chan .ch1).len ∧ (s.chan .ch1).rng ≠ 0#32 ∧ s.cfg.wsOnly = false) ∧
    (d.chan .ch1).ctl.usef = false ∧
    (l.chan .ch1).ctl.usef = true ∧ l.fifo = [] ∧ (l.chan .ch1).ctl.rptl = true ∧ (l.chan .ch1).last = some 7#32 := by
  decide

theorem wit_LoadWithRangeZeroIsRefused :
    let base := { lifted (sending [1#32]) with ch1 := { (sending [1#32]).ch1 with rng := 0#32 } }
    let d := { base with ch1 := { base.ch1 with ctl := { base.ch1.ctl with usef := false } } }
    let l := { base with
      fifo := [], ch1 := { base.ch1 with ctl := { base.ch1.ctl with rptl := true }, last := some 7#32 } }
    ∀ s ∈ [base, d, l], (s.chan .ch1).ctl.pwen = true ∧ (s.chan .ch1).ctl.mode = .serializer ∧ s.cm.enab = true ∧
      s.cm.divi ≠ 0#12 ∧ (s.chan .ch1).pos = (s.chan .ch1).len ∧ (s.chan .ch1).rng = 0#32 ∧
      s.cfg.wsOnly = false ∧
      ((s.chan .ch1).ctl.usef = false ∨ s.fifo ≠ [] ∨
        ((s.chan .ch1).ctl.rptl = true ∧ (s.chan .ch1).last ≠ none)) := by decide

theorem wit_TickNeedsAnEnabledChannelAndARunningClock :
    (ready.chan .ch1).ctl.pwen = false ∧ State.reset.cm.enab = false ∧
    ({ sending [] with cm := { enab := true, busy := false, divi := 0#12 } } : State).cm.divi = 0#12 ∧
    (State.reset.chan .ch1).ctl.mode = .balance := by decide

-- a sending channel with a range of 33, and one beside a second FIFO-fed channel
theorem wit_TickNeedsAnEnabledChannelAndARunningClock_refused :
    let base := sending []
    let wide := { base with ch1 := { base.ch1 with rng := 33#32 } }
    let two := { base with ch2 := { base.ch2 with ctl := { base.ch2.ctl with usef := true } } }
    (∀ s ∈ [wide, two], (s.chan .ch1).ctl.pwen = true ∧ s.cm.enab = true ∧ s.cm.divi ≠ 0#12 ∧
      (s.chan .ch1).ctl.mode = .serializer ∧ s.cfg.wsOnly = true) ∧ ¬ WsCfg wide .ch1 ∧ ¬ WsCfg two .ch1 :=
  ⟨by decide, fun h => absurd h.rng (by decide), fun h => absurd h.other (by decide)⟩

theorem wit_ClockSettlesAndBusMayErr :
    let s := { State.reset with cfg := { Config.default with berrOracle := .after [.ctl] }, lastWr := some .ctl }
    (s.cfg.berrOracle = .after [.ctl] ∧ s.lastWr = some .ctl ∧ Reg.ctl ∈ [Reg.ctl]) ∧
    (({ s with lastWr := some .sta } : State).lastWr = some .sta ∧ Reg.sta ∉ [Reg.ctl]) ∧
    State.reset.cfg.berrOracle = .never ∧ State.reset.lastWr = none := by decide

-- one word queued and its 32 ticks, so that `m = 32 * n` with `n = 1`
theorem wit_EnabledChannelSendsTheQueuedStream_word :
    let s := { ready with fifo := [0x924924DB#32] }
    let is := List.replicate 32 (Instr.serTick .ch1)
    layoutOk s.cfg.layout = true ∧ ReadyToSend s .ch1 ∧ (∀ i ∈ is, i.agent ≠ .host) ∧
    is.count (.serTick .ch1) = 32 * s.fifo.length ∧ 1 ≤ s.fifo.length ∧
    ∃ t u, exec (.wrCtl 0x23#32) s = .next t ∧ s.readCtl ||| mask (s.cfg.layout.ctlBits .ch1).pwen = 0x23#32 ∧
      execAll is t = .next u :=
  ⟨by decide, ⟨⟨rfl, rfl, rfl, rfl, rfl, rfl, rfl, rfl⟩, rfl, rfl, by decide⟩, by decide, by decide, by decide,
    _, _, rfl, by decide, rfl⟩

-- a run of agents' steps after the enabling write, no word queued, so that tick 1 is past `32 * n`
theorem wit_EnabledChannelSendsTheQueuedStream :
    layoutOk ready.cfg.layout = true ∧ ReadyToSend ready .ch1 ∧
    (∀ i ∈ [Instr.cmSettle, Instr.serTick .ch1], i.agent ≠ .host) ∧
    ∃ t u, exec (.wrCtl 0x23#32) ready = .next t ∧ ready.readCtl ||| mask (ready.cfg.layout.ctlBits .ch1).pwen = 0x23#32 ∧
      execAll [.cmSettle, .serTick .ch1] t = .next u :=
  ⟨by decide, ready_is_ready, by decide, _, _, rfl, by decide, rfl⟩

theorem wit_ConfigureOfNoChannelIsAUsageError : (0 ≠ 1 ∧ 0 ≠ 2) ∧ (3 ≠ 1 ∧ 3 ≠ 2) ∧ State.reset.host.todo = [] := by
  decide

theorem wit_ConfigureRunsItsFiveSteps :
    layoutOk State.reset.cfg.layout = true ∧ chanOfId 1 = some .ch1 ∧ chanOfId 2 = some .ch2 ∧
    State.reset.host.todo = [] := by decide

-- the last free place
theorem wit_PushWordPushesWhenThereIsRoom :
    let s := holding (List.replicate 7 0#32)
    layoutOk s.cfg.layout = true ∧ s.host.todo = [] ∧ s.fifo.length < s.cfg.fifoDepth := by decide

theorem wit_NoAgentFillsTheFifo :
    busyHost.host.todo = .push 5#32 :: [] ∧ busyHost.fifo.length < busyHost.cfg.fifoDepth ∧
    (∀ i ∈ [Instr.cmSettle], i.agent ≠ .host) ∧
    execAll [.cmSettle] busyHost = .next { busyHost with cm := { busyHost.cm with busy := false } } :=
  ⟨rfl, by decide, by decide, rfl⟩

/-- A host at a poll that reads the wrong value: the clock busy, the bus-error flag set, the FIFO full. -/
def polling (cfg : Config) (p : Poll) : State :=
  { State.reset with
    cfg := cfg, cm := { State.reset.cm with busy := true }, berr := true, fifo := List.replicate 8 0#32
    host := { todo := [pollMicro p], v := 0#32, k := 0#32, polls := 0 } }

-- each poll, a run of a host turn and an agent's step that is allowed it, and the two operations that come to a poll
theorem wit_PollsWithoutALimitWaitForEver :
    (∀ p ∈ [Poll.clk, .berr, .full],
      let s := polling Config.default p
      layoutOk s.cfg.layout = true ∧ pollLimit s.cfg p = none ∧ s.host.todo = pollMicro p :: [] ∧
      s.pollWrong p = true ∧ Move.settle ∉ [Move.host, .tick .ch1] ∧ s.drains .ch1 = false) ∧
    (∀ p, ∃ t, runMoves [.host, .tick .ch1] (polling Config.default p) = .next t) ∧
    (let s := holding (List.replicate 8 0#32)
     s.cfg.pollLimitFull = none ∧ s.fifo.length = s.cfg.fifoDepth ∧ s.host.todo = []) ∧
    chanOfId 1 = some .ch1 ∧ State.reset.host.todo = [] :=
  ⟨by decide, fun p => by cases p <;> exact ⟨_, rfl⟩, by decide, by decide, by decide⟩

-- each poll with a limit of one read, and of two
theorem wit_PollLimitsEndTheWait :
    (∀ n ∈ [0, 1], ∀ p ∈ [Poll.clk, .berr, .full],
      let limit := some (n + 1)
      let s := polling { Config.default with
        pollLimitClk := limit, pollLimitBerr := limit, pollLimitFull := limit } p
      layoutOk s.cfg.layout = true ∧ pollLimit s.cfg p = some (n + 1) ∧ s.host.todo = pollMicro p :: [] ∧
      s.host.polls = 0 ∧ s.pollWrong p = true) ∧
    (∀ n ∈ [0, 1],
      let s := { holding (List.replicate 8 0#32) with
        cfg := { Config.default with pollLimitFull := some (n + 1), pollLimitClk := some (n + 1) } }
      layoutOk s.cfg.layout = true ∧ s.cfg.pollLimitFull = some (n + 1) ∧ s.cfg.pollLimitClk = some (n + 1) ∧
      s.fifo.length = s.cfg.fifoDepth ∧ s.host.todo = [] ∧ chanOfId 2 = some .ch2) := by decide

-- none, and as many as fit
theorem wit_PushFifoAppendsTheWordsInOrder :
    ∀ words ∈ [[], List.replicate 8 1#32], layoutOk State.reset.cfg.layout = true ∧ State.reset.host.todo = [] ∧
      State.reset.fifo.length + words.length ≤ State.reset.cfg.fifoDepth := by decide

theorem wit_EnableSetsTheEnableBitOnly : Inv ready ∧ ready.host.todo = [] ∧ ready.ch1.ctl.mode = .serializer :=
  ⟨ready_inv, rfl, rfl⟩

-- an enabled channel that is not inverted, and a disabled one
theorem wit_DisableIdlesTheChannel :
    (Inv (sending []) ∧ (sending []).host.todo = [] ∧ (sending []).cfg.disableAborts = true ∧
      (sending []).ch1.ctl.pola = false) ∧
    (Inv { sending [] with cfg := { Config.default with disableAborts := false } }) ∧
    Inv ready ∧ ready.ch1.ctl.pwen = false :=
  ⟨⟨⟨by decide, by decide, ⟨by decide, by decide, by decide, by decide, by decide⟩, ready_inv.chan2⟩, rfl, rfl, rfl⟩,
    ⟨by decide, by decide, ⟨by decide, by decide, by decide, by decide, by decide⟩,
      ⟨by decide, by decide, by decide, by decide, by decide⟩⟩, ready_inv, rfl⟩

theorem wit_ClearFifoEmptiesTheFifoOnly : Inv (holding [1#32]) ∧ (holding [1#32]).host.todo = [] :=
  ⟨⟨reset_inv.cfg_ok, by decide, reset_inv.chan1, reset_inv.chan2⟩, rfl⟩

-- the two ends of the range
theorem wit_ScaleIsTheFloorOfTheExactProduct :
    State.reset.cfg.scaleFn = .exact ∧ brtInRange { num := 0, denPred := 9 } = true ∧
    brtInRange { num := 10, denPred := 9 } = true := by decide

-- legal configurations: V1's IEEE product, fixed-point rows, and the free function
theorem wit_ScaleKeepsItsLaws :
    configOk { Config.default with scaleFn := .table [ieeeRow] } = true ∧
    configOk { Config.default with scaleFn := .table [fixedRow 1, fixedRow 2, fixedRow 3, fixedRow 5] } = true ∧
    configOk { Config.default with scaleFn := .lawful } = true ∧
    brtInRange { num := 7, denPred := 9 } = true ∧ brtInRange one = true ∧ (90#8 : Byte) ≤ 91#8 ∧
    (7 : Int) * (brtDen one : Int) ≤ 1 * (brtDen { num := 7, denPred := 9 } : Int) ∧
    ({ num := 0, denPred := 0 } : Brightness).num = 0 ∧ one.num = (brtDen one : Int) := by decide

-- the first operand past each domain
theorem wit_EncoderOperandsOutsideTheirDomains :
    brtInRange { num := 11, denPred := 9 } = false ∧ brtInRange { num := -1, denPred := 9 } = false ∧
    brtInRange one = true ∧ 32 * (onesFrame 2).enc.w.length ≤ 72 * 0 + 71 ∧
    32 * (onesFrame 1).enc.w.length ≤ 30 + 2 ∧ (onesFrame 1).enc.w.length ≤ 1 ∧ (onesFrame 1).enc.w.length ≤ 0 + 1 ∧
    23 < 24 ∧ 32 * [0#32, 0#32].length < 72 * 1 := by decide

theorem wit_BitSelCountsFromTheTop : 23 ≤ 23 ∧ 0 ≤ 23 := by decide

theorem wit_SymbolsAreOneHundredAndOneHundredTen :
    (0b111#3 : Sym) ≠ 0b110#3 ∧ (0b111#3 : Sym) ≠ 0b100#3 ∧ State.reset.host.todo = [] := by decide

-- the last symbol that fits
theorem wit_PlaceWritesItsThreeBits : 93 + 2 < 32 * (onesFrame 3).enc.w.length := by decide

theorem wit_PlacementFormsArePlace :
    29 ≤ 29 ∧ 0 < (onesFrame 2).enc.w.length ∧ 0 + 1 < (onesFrame 2).enc.w.length := by decide

-- one pixel in its frame of three words
theorem wit_EncPixelWritesItsSeventyTwoBits :
    brtInRange one = true ∧ 72 * 0 + 71 < 32 * (onesFrame 3).enc.w.length := by decide

theorem wit_EncodeMeetsItsClosedForm :
    brtInRange threeTenths = true ∧ [{ r := 1#8, g := 2#8, b := 3#8 : Pixel }][0]? = some { r := 1#8, g := 2#8, b := 3#8 } ∧
    23 < 24 ∧ 72 * 1 ≤ 72 := by decide

theorem wit_EncodeReportsBrightnessOutsideTheRange :
    State.reset.host.todo = [] ∧ (-1 : Int) < 0 ∧ (brtDen { num := 11, denPred := 9 } : Int) < 11 ∧
    one.num = (brtDen one : Int) := by decide

theorem wit_DecodingAnEncodedFrameGivesTheColorWords : brtInRange threeTenths = true := by decide

-- V35's prefix of legal symbols, and V34's bad one at position 0
theorem wit_DecodeReadsEverySymbolOrReportsTheFirstBad :
    let w := [0x92492492#32, 0x49249249#32, 0x24000001#32]
    72 * 1 ≤ 32 * w.length ∧ (∀ j < 24 * 1, symDecOf (symAt w (3 * j)) ≠ none) ∧ State.reset.host.todo = [] ∧
    symDecOf (symAt [0xFFFFFFFF#32, 0#32, 0#32] (3 * 0)) = none ∧ 0 < 24 * 1 := by decide

theorem wit_EncoderTouchesNoHardware :
    State.reset.host.todo = [] ∧
    exec (.scale 1#8 one) State.reset = .next { State.reset with res := .byte 1#8 } ∧
    exec (.bitSel 0#24 24) State.reset = .next { State.reset with res := .bit (Config.freeBit 0), fresh := 1 } :=
  ⟨rfl, rfl, rfl⟩

theorem wit_FormatWordsHoldTheirFields :
    layoutOk State.reset.cfg.layout = true ∧ State.reset.cfg.layout.pass = some { lsb := 24, value := 0x5A#8 } ∧
    14 ∉ ctlPositions State.reset.cfg.layout ∧ 11 ∉ cmdivPositions State.reset.cfg.layout ∧
    6 ∉ cmctlPositions State.reset.cfg.layout := by decide

-- four pixels need nine words
theorem wit_PushFrameChecksBeforeItWrites :
    State.reset.host.todo = [] ∧ brtInRange { num := 2, denPred := 0 } = false ∧ brtInRange one = true ∧
    State.reset.cfg.fifoDepth < frameLenOf 4 := by decide

-- three pixels fit in eight words; a hold of exactly their ticks, and one longer than the frame's words
theorem wit_PushFramePutsItsFrameOnTheLine :
    Inv ready ∧ ReadyToSend ready .ch1 ∧ ready.fifo = [] ∧ ready.host.todo = [] ∧ ready.cfg.disableAborts = true ∧
    brtInRange one = true ∧ frameLenOf 3 ≤ ready.cfg.fifoDepth ∧ 72 * 3 ≤ 216 ∧ 216 ≤ 32 * frameLenOf 3 ∧
    32 * frameLenOf 3 < 225 :=
  ⟨ready_inv, ready_is_ready, rfl, rfl, rfl, by decide, by decide, by decide, by decide, by decide⟩

-- a run in which PUSHFRAME returns, an agent's step between two host turns: no pixels, enabled and disabled again
theorem wit_PushFramePutsItsFrameOnTheLine_run :
    ∃ t e, exec (.pushFrame .ch1 [] one) ready = .next t ∧
      runMoves [.host, .host, .tick .ch1, .host, .busErr, .host, .host, .host, .host, .host] t = .next e ∧
      e.host.todo = [] :=
  ⟨_, _, rfl, rfl, rfl⟩

theorem wit_HoldWaitsForItsTicks :
    ready.host.todo = [] ∧ 0 ≤ (ready.chan .ch1).tx.length - (ready.chan .ch1).mark ∧
    (ready.chan .ch1).tx.length - (ready.chan .ch1).mark < 1 := by decide

end Sys2Proof.Tests
end

