-- ==== Sys2Proof/Proofs/RegisterReads.lean ====
section
/-! Reads of the control, status and clock-manager registers, and the access to no register (R121, R123, R133, R135,
R137): what each transaction answers, what the bits of the word read are, and the statements about them. -/

namespace Sys2Proof.Machine

variable (s : State)

/-! ### What each transaction answers -/

theorem exec_rdCtl : exec .rdCtl s = .next { s with res := .word s.readCtl } := rfl

theorem exec_rdSta : exec .rdSta s = .next { s with res := .word s.readSta } := rfl

theorem exec_rdCmctl : exec .rdCmctl s = .next { s with res := .word s.readCmctl } := rfl

theorem exec_rdCmdiv : exec .rdCmdiv s = .next { s with res := .word s.readCmdiv } := rfl

theorem exec_unmapped (blk : Block) (off : Nat) :
    exec (.unmapped blk off) s = .refused (.unmappedAccess blk off) := rfl

/-! ### The control and the status word read -/

theorem fields_readCtl (h : layoutOk s.cfg.layout = true) (c : ChanId) :
    (s.cfg.layout.ctlBits c).fields s.readCtl = (s.chan c).ctl := by
  rw [fields_eq_chanFields, ctlFields_readCtl s h, chanFields_ctlFields]

/-- `CLRF` reads 0 whatever was written (R121). -/
theorem readCtl_clrf (h : layoutOk s.cfg.layout = true) : s.readCtl.getLsbD s.cfg.layout.clrf = false :=
  congrArg CtlFields.clrf (ctlFields_readCtl s h)

theorem readCtl_reserved {k : Nat} (hk : k ∉ ctlPositions s.cfg.layout) : s.readCtl.getLsbD k = false :=
  ctlWord_reserved s.ctlFields hk

theorem readSta_reserved {k : Nat} (hk : k ∉ staPositions s.cfg.layout) : s.readSta.getLsbD k = false :=
  staWord_reserved s.staFields hk

/-! ### The clock manager's words read -/

theorem readCmctl_reserved {k : Nat} (enab : k ≠ s.cfg.layout.cmEnab) (busy : k ≠ s.cfg.layout.cmBusy) :
    s.readCmctl.getLsbD k = false := by
  rw [State.readCmctl, BitVec.getLsbD_or, getLsbD_bitWord, getLsbD_bitWord]
  simp [enab, busy]

/-- A legal layout has room for the twelve bits of `CM.DIVI` (R104, R106). -/
theorem layoutOk_divi {l : Layout} (h : layoutOk l = true) {j : Nat} (hj : j < 12) : l.diviLsb + j < 32 :=
  (layoutOk_cmdiv h).2 _ (List.mem_append_left _ (List.mem_map.2 ⟨j, List.mem_range.2 hj, rfl⟩))

/-- A bit of the divisor word is the bit of `CM.DIVI` as far above the field's lowest position. -/
theorem getLsbD_readCmdiv (k : Nat) :
    s.readCmdiv.getLsbD k =
      (decide (k < 32) && !decide (k < s.cfg.layout.diviLsb) && s.cm.divi.getLsbD (k - s.cfg.layout.diviLsb)) := by
  rw [State.readCmdiv, BitVec.getLsbD_shiftLeft, BitVec.getLsbD_setWidth]
  by_cases hk : k < 32
  · have : k - s.cfg.layout.diviLsb < 32 := by omega
    simp [hk, this]
  · simp [hk]

theorem diviOf_readCmdiv (h : layoutOk s.cfg.layout = true) : s.cfg.layout.diviOf s.readCmdiv = s.cm.divi := by
  refine BitVec.eq_of_getLsbD_eq fun j hj => ?_
  have inWord := layoutOk_divi h hj
  rw [Layout.diviOf, BitVec.getLsbD_extractLsb', getLsbD_readCmdiv]
  simp [hj, inWord]

theorem readCmdiv_reserved {k : Nat} (hk : k < s.cfg.layout.diviLsb ∨ s.cfg.layout.diviLsb + 12 ≤ k) :
    s.readCmdiv.getLsbD k = false := by
  rw [getLsbD_readCmdiv]
  rcases hk with below | above
  · simp [below]
  · have : 12 ≤ k - s.cfg.layout.diviLsb := by omega
    simp [BitVec.getLsbD_of_ge s.cm.divi _ this]

/-! ### The statements -/

/-- Settles O10: the word read is the control word of the fields as they stand, with `CLRF` 0. -/
theorem readingControlGivesTheFields : Obligations.ReadingControlGivesTheFields := fun s h =>
  ⟨s.readCtl, exec_rdCtl s, fields_readCtl s h, readCtl_clrf s h, fun _ hk => readCtl_reserved s hk⟩

/-- Settles O11: the word read is the status word of the flags at this instant. -/
theorem readingStatusGivesTheFlags : Obligations.ReadingStatusGivesTheFlags := fun s h =>
  ⟨s.readSta, exec_rdSta s, staFields_readSta s h, fun _ hk => readSta_reserved s hk⟩

/-- Settles O12: `CMCTL` bit by bit, and `CMDIV` by its twelve divisor bits. -/
theorem readingTheClockManagerGivesItsFields : Obligations.ReadingTheClockManagerGivesItsFields := fun s h =>
  ⟨⟨s.readCmctl, exec_rdCmctl s, readCmctl_enab s h, readCmctl_busy s h,
      fun _ enab busy => readCmctl_reserved s enab busy⟩,
    ⟨s.readCmdiv, exec_rdCmdiv s, diviOf_readCmdiv s h, fun _ hk => readCmdiv_reserved s hk⟩⟩

/-- Settles O20: the access has no step in any state. -/
theorem unmappedAccessIsRefused : Obligations.UnmappedAccessIsRefused := exec_unmapped

end Sys2Proof.Machine
end

