-- ==== Sys2Proof/Proofs/EncoderAnswers.lean ====
section
/-! Answers of the encoder's operations (R183, R185, R196): the bit `BITSEL` selects, the length `FRAMELEN` gives, and
`ENCODE` by the range of its brightness. -/

namespace Sys2Proof.Machine

variable (s : State)

/-! ### The bit selected -/

theorem exec_bitSel (cw : CWord) {p : Nat} (h : p ≤ 23) :
    exec (.bitSel cw p) s = .next (s.answer (.bit (bitSelOf cw p))) := if_pos h

/-- Counted from the top of the colour word, the bit selected is the bit at `p` (R183). -/
theorem bitSelOf_eq_getMsbD (cw : CWord) {p : Nat} (h : p ≤ 23) : bitSelOf cw p = cw.getMsbD p := by
  have inWord : p < 24 := by omega
  simp [bitSelOf, BitVec.getMsbD_eq_getLsbD, inWord]

/-! ### The frame's length -/

theorem exec_frameLen (n : Nat) : exec (.frameLen n) s = .next (s.answer (.nat (frameLenOf n))) := rfl

/-- No shorter frame holds the pixels (R185). -/
theorem frameLenOf_le_of_holds {n k : Nat} (h : 72 * n ≤ 32 * k) : frameLenOf n ≤ k := by
  unfold frameLenOf; omega

/-! ### `ENCODE` by the range of its brightness -/

theorem brtInRange_iff {b : Brightness} : brtInRange b = true ↔ 0 ≤ b.num ∧ b.num ≤ (brtDen b : Int) := by
  simp [brtInRange]

theorem brtInRange_eq_false_iff {b : Brightness} :
    brtInRange b = false ↔ b.num < 0 ∨ (brtDen b : Int) < b.num := by
  rw [← Bool.not_eq_true, brtInRange_iff]
  omega

/-- The boundary values 0 and 1 are in range (R196). -/
theorem brtInRange_of_bound {b : Brightness} (h : b.num = 0 ∨ b.num = (brtDen b : Int)) : brtInRange b = true := by
  rw [brtInRange_iff]
  omega

variable (pixels : List Pixel) {b : Brightness}

theorem exec_encodeFrame_of_inRange (h : brtInRange b = true) :
    exec (.encodeFrame pixels b) s =
      .next ({ s with enc := { s.enc with pix := pixels, brt := b } }.answer (.frame (encodeOf s.cfg pixels b))) :=
  if_pos h

theorem exec_encodeFrame_of_outside (h : brtInRange b = false) :
    exec (.encodeFrame pixels b) s = .next (s.raise (.brightnessRange b)) :=
  if_neg (Bool.eq_false_iff.1 h)

/-! ### The statements -/

/-- Settles O44: up to `p = 23` the operation answers the bit selected, which is also the bit counted from the top. -/
theorem bitSelCountsFromTheTop : Obligations.BitSelCountsFromTheTop := fun s cw _ h =>
  ⟨exec_bitSel s cw h, bitSelOf_eq_getMsbD cw h ▸ exec_bitSel s cw h⟩

/-- Settles O46: the length given holds the pixels, and no shorter one does. -/
theorem frameLengthIsTheLeastThatHoldsThePixels : Obligations.FrameLengthIsTheLeastThatHoldsThePixels := fun s n =>
  ⟨frameLenOf n, exec_frameLen s n, frameLenOf_holds n, fun _ => frameLenOf_le_of_holds⟩

/-- Settles O53: outside the range the failure is raised while no operation is in hand, so it is all that changes;
at the bounds the frame is returned. -/
theorem encodeReportsBrightnessOutsideTheRange : Obligations.EncodeReportsBrightnessOutsideTheRange := by
  intro s pixels b idle
  refine ⟨fun outside => ?_, fun bound => ?_⟩
  · rw [exec_encodeFrame_of_outside s pixels (brtInRange_eq_false_iff.2 outside), raise_of_idle s _ idle]
  · exact ⟨_, _, exec_encodeFrame_of_inRange s pixels (brtInRange_of_bound bound), rfl⟩

end Sys2Proof.Machine
end

