-- ==== Sys2Proof/Proofs/Descriptors.lean ====
section
/-! The decoder and the encoder (R110, R112, R90): what each space's reader takes from the bytes the encoder wrote, and
the statements about descriptors. -/

namespace Sys2Proof

open Machine

/-! ### Decoding by reading -/

theorem decode_of_read {sp : Space} {bs rest : List Byte} {i : Instr} (h : readInstr sp bs = .ok (i, rest)) :
    decode sp bs = .ok i := by
  simp [decode, h]

/-- An operation's reader takes the selector and leaves the operands to its row of the map (R110). -/
theorem readInstr_op (b : Byte) (bs : List Byte) : readInstr .op (b :: bs) = readOperands b bs := rfl

variable (tail : List Byte)

/-! ### The placement forms (R112) -/

/-- Whatever position is written, its low five bits choose the form that is read. -/
theorem readInstr_placeForm (g : Nat) (s : Sym) :
    readInstr .placeForm (putNat g ++ putSym s ++ tail) = .ok (placeFormOf g s, tail) := by
  simp [readInstr, Reader.andThen]

theorem placeFormOf_A (w : Nat) {off : Nat} (s : Sym) (h : off ≤ 29) :
    placeFormOf (32 * w + (29 - off)) s = .placeA w off s := by
  unfold placeFormOf
  rw [if_neg (by omega), if_neg (by omega), show (32 * w + (29 - off)) / 32 = w by omega,
    show 29 - (32 * w + (29 - off)) % 32 = off by omega]

theorem placeFormOf_B (w : Nat) (s : Sym) : placeFormOf (32 * w + 30) s = .placeB w s := by
  unfold placeFormOf
  rw [if_pos (by omega), show (32 * w + 30) / 32 = w by omega]

theorem placeFormOf_C (w : Nat) (s : Sym) : placeFormOf (32 * w + 31) s = .placeC w s := by
  unfold placeFormOf
  rw [if_neg (by omega), if_pos (by omega), show (32 * w + 31) / 32 = w by omega]

/-! ### The fixed-width words (R92, R93, R101 to R106) -/

theorem readInstr_sym (b : Bool) : readInstr .symBit (putSym (symbolOf b) ++ tail) = .ok (.sym b, tail) := by
  cases b <;> rfl

theorem readInstr_cw (g r b : Byte) :
    readInstr .cw (putCWord (colorWordOf r g b) ++ tail) = .ok (.cw g r b, tail) := by
  obtain ⟨green, red, blue⟩ := colorWordOf_bytes r g b
  simp [readInstr, Reader.andThen, green, red, blue]

theorem readInstr_ctlw (f : CtlFields) :
    readInstr .ctlw (putWord (Layout.default.ctlWord f) ++ tail) = .ok (.ctlw f, tail) := by
  simp [readInstr, readCtlw, Reader.andThen, ctlFields_ctlWord layoutOk_default f]

theorem readInstr_staw (f : StaFields) :
    readInstr .staw (putWord (Layout.default.staWord f) ++ tail) = .ok (.staw f, tail) := by
  simp [readInstr, readStaw, Reader.andThen, staFields_staWord layoutOk_default f]

theorem readInstr_cmctlw (p : Byte) (busy enab : Bool) :
    readInstr .cmctlw (putWord (Layout.default.cmctlWord p busy enab) ++ tail) = .ok (.cmctlw p busy enab, tail) := by
  obtain ⟨pass, isBusy, isEnab⟩ := cmctlWord_default p busy enab
  simp [readInstr, readCmctlw, Reader.andThen, pass, isBusy, isEnab]

theorem readInstr_cmdivw (p : Byte) (d : BitVec 12) :
    readInstr .cmdivw (putWord (Layout.default.cmdivWord p d) ++ tail) = .ok (.cmdivw p d, tail) := by
  obtain ⟨pass, divi⟩ := cmdivWord_default p d
  simp [readInstr, readCmdivw, Reader.andThen, pass, divi]

/-! ### Every descriptor -/

/-- The reader of an operation's space takes the whole descriptor and leaves the bytes after it. -/
theorem readInstr_encode (i : Instr) (h : i.wf = true) :
    readInstr (encode i).1 ((encode i).2 ++ tail) = .ok (i, tail) := by
  cases i
  case placeA w off s =>
    rw [encode, readInstr_placeForm, placeFormOf_A w s (of_decide_eq_true h)]
  case placeB w s => rw [encode, readInstr_placeForm, placeFormOf_B]
  case placeC w s => rw [encode, readInstr_placeForm, placeFormOf_C]
  case sym b => exact readInstr_sym tail b
  case cw g r b => exact readInstr_cw tail g r b
  case ctlw f => exact readInstr_ctlw tail f
  case staw f => exact readInstr_staw tail f
  case cmctlw p busy enab => exact readInstr_cmctlw tail p busy enab
  case cmdivw p d => exact readInstr_cmdivw tail p d
  case sym0 => rfl
  case sym1 => rfl
  case rngw v => simp [encode, readInstr, Reader.andThen]
  case datw v => simp [encode, readInstr, Reader.andThen]
  case fifw v => simp [encode, readInstr, Reader.andThen]
  case colorWord r g b => rfl
  case scale ch b => simp [encode, readInstr_op, Reader.andThen]
  all_goals
    simp [encode, readInstr_op, Reader.andThen, getList_putList _ (fun v tail => getWord_putWord tail v),
      getList_putList _ (fun px tail => getPixel_putPixel tail px)]

/-! ### The statements -/

/-- Settles O3: each descriptor is read by evaluation. -/
theorem sampleDescriptorsDecode : Obligations.SampleDescriptorsDecode :=
  ⟨rfl, rfl, rfl, rfl, rfl, rfl, rfl, rfl, rfl, rfl, rfl, rfl, rfl⟩

/-- Settles O4: the reader of its space takes back the whole descriptor, whichever operation it is. -/
theorem decodingAnEncodedOperationGivesItBack : Obligations.DecodingAnEncodedOperationGivesItBack :=
  fun i tail h => decode_of_read (readInstr_encode tail i h)

/-- Settles O5: of the selectors' rows only the last is left, which rejects. -/
theorem otherSelectorsAreRefused : Obligations.OtherSelectorsAreRefused := by
  intro b bs reg host enc frm
  have rejects : readOperands b = Reader.reject (.unknownOpsel b) := by
    unfold readOperands
    split
    case h_40 => rfl
    all_goals omega
  simp [decode, readInstr_op, rejects, Reader.reject]

end Sys2Proof
end

