-- ==== Sys2Proof/Proofs/Effects.lean ====
section
/-! What an operation can do: one inversion lemma over all operations (the named effect of each), and from it what
every step keeps (R47, R35, R42, R44, R122), with the two statements about which operation a step runs (R73, R74) and
the two about reset (R50). -/

namespace Sys2Proof.Machine

variable {s t : State} {i : Instr}

/-! ### Which operation a step runs -/

theorem mayIssue_iff : s.mayIssue i = true ↔ i.agent ≠ .host ∨ s.host.todo = [] := by
  simp [State.mayIssue, State.hostIdle]

theorem step_nil (h : s.run = []) : step s = .next s.hostTurn := by
  simp [step, h]

theorem step_host {rest : List Turn} (h : s.run = .host :: rest) : step s = .next { s with run := rest }.hostTurn := by
  simp [step, h]

theorem step_issue {sp : Space} {bs : List Byte} {rest : List Turn} (h : s.run = .issue sp bs :: rest)
    (d : decode sp bs = .ok i) :
    step s = if s.mayIssue i then exec i { s with run := rest } else .next s.hostTurn := by
  simp [step, h, d]

theorem step_bad {sp : Space} {bs : List Byte} {rest : List Turn} {e : DecodeError}
    (h : s.run = .issue sp bs :: rest) (d : decode sp bs = .error e) : step s = .refused (.badDescriptor e) := by
  simp [step, h, d]

/-- A step that answers a next state is a turn of the host, or an operation executed, an entry taken off the run or
not. -/
theorem step_cases (e : step s = .next t) :
    ∃ rest, t = { s with run := rest }.hostTurn ∨ ∃ i, exec i { s with run := rest } = .next t := by
  cases hr : s.run with
  | nil =>
    rw [step_nil hr] at e
    cases e
    exact ⟨s.run, .inl rfl⟩
  | cons entry rest =>
    cases entry with
    | host =>
      rw [step_host hr] at e
      cases e
      exact ⟨rest, .inl rfl⟩
    | issue sp bs =>
      cases hd : decode sp bs with
      | error err => rw [step_bad hr hd] at e; cases e
      | ok i =>
        rw [step_issue hr hd] at e
        split at e
        · exact ⟨rest, .inr ⟨i, e⟩⟩
        · cases e
          exact ⟨s.run, .inl rfl⟩

/-! ### What an operation can do -/

/-- The operations of the encoder's family, the placement forms and the formats (R180, R90). -/
def ofEncoder : Instr → Bool
  | .scale _ _ | .colorWord _ _ _ | .bitSel _ _ | .symbol _ | .frameLen _ | .locate _ | .clearFrame _
  | .place _ _ | .encPixel _ _ _ | .encodeFrame _ _ | .symDec _ | .decodeFrame _ _
  | .placeA _ _ _ | .placeB _ _ | .placeC _ _ | .sym0 | .sym1 | .sym _ | .cw _ _ _ | .ctlw _ | .staw _
  | .rngw _ | .datw _ | .fifw _ | .cmctlw _ _ _ | .cmdivw _ _ => true
  | _ => false

/-- A state that differs only in the encoder, the host's place, the answer and the count of free values; and where
no operation is in hand the host's place is as it was. -/
def Quiet (s t : State) : Prop :=
  ∃ enc host res fresh, t = { s with enc := enc, host := host, res := res, fresh := fresh } ∧
    (s.host.todo = [] → host = s.host)

theorem quiet_answer (enc : Enc) (r : Result) : Quiet s ({ s with enc := enc }.answer r) :=
  ⟨enc, s.host, r, s.fresh, rfl, fun _ => rfl⟩

theorem quiet_raise (e : Err) : Quiet s (s.raise e) := by
  refine ⟨s.enc, { s.host with todo := [] }, .failed e, s.fresh, rfl, fun idle => ?_⟩
  rw [← idle]

theorem quiet_fresh (r : Result) (n : Nat) : Quiet s { s.answer r with fresh := n } :=
  ⟨s.enc, s.host, r, n, rfl, fun _ => rfl⟩

theorem quiet_placeInFrame {g last : Nat} {w : List Word} (e : s.placeInFrame g last w = .next t) : Quiet s t := by
  unfold State.placeInFrame at e
  split at e
  · cases e; exact quiet_answer { s.enc with w := w } .done
  · cases e

/-- An encoder operation touches the encoder and the answer, or fails (R195). -/
theorem quiet_exec_encoder (he : ofEncoder i = true) (e : exec i s = .next t) : Quiet s t := by
  cases i
  case scale ch b =>
    simp only [exec, execScale] at e
    split at e
    · cases e; exact quiet_answer s.enc _
    · cases e
  case bitSel cw p =>
    simp only [exec, execBitSel] at e
    split at e
    · cases e; exact quiet_answer s.enc _
    · cases e; exact quiet_fresh _ _
  case encPixel k px b =>
    simp only [exec, execEncPixel] at e
    split at e
    · split at e
      · cases e; exact quiet_answer (s.enc.pixel s.cfg k px b) _
      · cases e
    · cases e
  case encodeFrame pixels b =>
    simp only [exec, execEncodeFrame] at e
    split at e
    · cases e; exact quiet_answer { s.enc with pix := pixels, brt := b } _
    · cases e; exact quiet_raise _
  case symDec y =>
    simp only [exec, execSymDec] at e
    split at e
    · cases e; exact quiet_answer s.enc _
    · cases e; exact quiet_raise _
  case decodeFrame w n =>
    simp only [exec, execDecodeFrame] at e
    split at e
    · split at e
      · cases e; exact quiet_answer s.enc _
      · cases e; exact quiet_raise _
    · cases e
  case place => exact quiet_placeInFrame e
  case placeA => exact quiet_placeInFrame e
  case placeB => exact quiet_placeInFrame e
  case placeC => exact quiet_placeInFrame e
  case colorWord r g b => cases e; exact quiet_answer { s.enc with cw := colorWordOf r g b } _
  case symbol b => cases e; exact quiet_answer { s.enc with sym := symbolOf b } _
  case clearFrame fw => cases e; exact quiet_answer { s.enc with w := List.replicate fw 0#32 } _
  case frameLen | locate | sym0 | sym1 | sym | cw | ctlw | staw | rngw | datw | fifw | cmctlw | cmdivw =>
    cases e; exact quiet_answer s.enc _
  all_goals cases he

/-- What an operation can do: nothing to the hardware, one register write, one agent's step, or the start of a
sequence of host steps. -/
inductive Effect (s : State) : State → Prop where
  | quiet (enc : Enc) (host : HostSeq) (res : Result) (fresh : Nat) :
      Effect s { s with enc := enc, host := host, res := res, fresh := fresh }
  | ctl (v : Word) : Effect s ((s.writeCtl v).answer .done)
  | sta (v : Word) : Effect s ((s.writeSta v).answer .done)
  | rng (c : ChanId) (v : Word) : Effect s ((s.writeRng c v).answer .done)
  | dat (c : ChanId) (v : Word) : Effect s ((s.writeDat c v).answer .done)
  | fif (v : Word) : Effect s ((s.writeFif v).answer .done)
  | cmctl (v : Word) : Effect s ((s.writeCmctl v).answer .done)
  | cmdiv (v : Word) : Effect s ((s.writeCmdiv v).answer .done)
  | tick {t : State} (c : ChanId) (h : execSerTick c s = .next t) : Effect s t
  | settle : Effect s { s with cm := { s.cm with busy := false } }
  | berr (b : Bool) : Effect s { s with berr := b }
  | seq (ms : List Micro) : Effect s (s.startSeq ms)

theorem effect_of_quiet (h : Quiet s t) : Effect s t := by
  obtain ⟨enc, host, res, fresh, rfl, -⟩ := h
  exact .quiet enc host res fresh

theorem exec_effect (e : exec i s = .next t) : Effect s t := by
  cases i
  case rdCtl | rdSta | rdRng | rdDat | rdCmctl | rdCmdiv | latchWait =>
    cases e; exact effect_of_quiet (quiet_answer s.enc _)
  case rdFif => cases e; exact effect_of_quiet (quiet_fresh _ _)
  case wrCtl v => cases e; exact .ctl v
  case wrSta v => cases e; exact .sta v
  case wrRng c v => cases e; exact .rng c v
  case wrDat c v => cases e; exact .dat c v
  case wrFif v => cases e; exact .fif v
  case wrCmctl v => cases e; exact .cmctl v
  case wrCmdiv v => cases e; exact .cmdiv v
  case unmapped => cases e
  case serTick c => exact .tick c e
  case cmSettle => cases e; exact .settle
  case busErr =>
    simp only [exec, execBusErr] at e
    split at e
    · cases e; exact .berr true
    · cases e; exact .berr s.berr
  case configure c range divisor mode uf =>
    simp only [exec, execConfigure] at e
    split at e
    · cases e; exact effect_of_quiet (quiet_raise _)
    · cases e; exact .seq _
  case pushWord | pushFifo | enable | disable | clearFifo | hold => cases e; exact .seq _
  case pushFrame c pixels b =>
    simp only [exec, execPushFrame] at e
    split at e
    · split at e
      · cases e; exact effect_of_quiet (quiet_raise _)
      · cases e; exact .quiet _ _ s.res s.fresh
    · cases e; exact effect_of_quiet (quiet_raise _)
  all_goals exact effect_of_quiet (quiet_exec_encoder rfl e)

/-! ### The parameters (R47) -/

variable (s) (c : ChanId)

@[simp] theorem clearIf_cfg (b : Bool) : (s.clearIf b).cfg = s.cfg := by cases b <;> rfl

@[simp] theorem writeCtl_cfg (v : Word) : (s.writeCtl v).cfg = s.cfg := by simp [State.writeCtl]

@[simp] theorem writeSta_cfg (v : Word) : (s.writeSta v).cfg = s.cfg := rfl

@[simp] theorem writeRng_cfg (v : Word) : (s.writeRng c v).cfg = s.cfg := by simp [State.writeRng]

@[simp] theorem writeDat_cfg (v : Word) : (s.writeDat c v).cfg = s.cfg := by simp [State.writeDat]

@[simp] theorem writeFif_cfg (v : Word) : (s.writeFif v).cfg = s.cfg := by unfold State.writeFif; split <;> rfl

@[simp] theorem writeCmctl_cfg (v : Word) : (s.writeCmctl v).cfg = s.cfg := by
  unfold State.writeCmctl; split <;> rfl

@[simp] theorem writeCmdiv_cfg (v : Word) : (s.writeCmdiv v).cfg = s.cfg := by
  unfold State.writeCmdiv; split <;> rfl

@[simp] theorem markEnable_cfg : (s.markEnable c).cfg = s.cfg := by simp [State.markEnable]

@[simp] theorem advance_cfg (rest : List Micro) : (s.advance rest).cfg = s.cfg := by cases rest <;> rfl

@[simp] theorem pollOnce_cfg (p : Poll) (ready : Bool) (rest : List Micro) :
    (s.pollOnce p ready rest).cfg = s.cfg := by
  unfold State.pollOnce
  split
  · simp
  · split
    · rfl
    · split <;> rfl

@[simp] theorem micro_cfg (m : Micro) (rest : List Micro) : (s.micro m rest).cfg = s.cfg := by
  cases m <;> simp only [State.micro, advance_cfg, pollOnce_cfg, markEnable_cfg, writeCtl_cfg, writeSta_cfg,
    writeRng_cfg, writeFif_cfg, writeCmctl_cfg, writeCmdiv_cfg]
  case awaitTicks => split <;> simp

@[simp] theorem hostTurn_cfg : s.hostTurn.cfg = s.cfg := by
  unfold State.hostTurn
  split <;> simp

@[simp] theorem startSeq_cfg (ms : List Micro) : (s.startSeq ms).cfg = s.cfg := by
  cases ms with
  | nil => rfl
  | cons m ms => simp [State.startSeq]

variable {s}

theorem cfg_of_effect (h : Effect s t) : t.cfg = s.cfg := by
  cases h with
  | tick c h => exact (serTick_frame s c h).1
  | _ => simp

/-! ### The invariant -/

theorem inv_of_effect (hs : Inv s) (h : Effect s t) : Inv t := by
  cases h with
  | quiet | settle | berr => exact inv_same hs rfl rfl rfl rfl
  | ctl v => exact inv_answer (inv_writeCtl hs v) _
  | sta v => exact inv_answer (inv_writeSta hs v) _
  | rng c v => exact inv_answer (inv_writeRng hs c v) _
  | dat c v => exact inv_answer (inv_writeDat hs c v) _
  | fif v => exact inv_answer (inv_writeFif hs v) _
  | cmctl v => exact inv_answer (inv_writeCmctl hs v) _
  | cmdiv v => exact inv_answer (inv_writeCmdiv hs v) _
  | tick c h => exact inv_execSerTick hs c h
  | seq ms => exact inv_startSeq hs ms

theorem chanInv_reset (cfg : Config) (rng dat sr : Word) : ChanInv cfg (Chan.reset rng dat sr) :=
  ⟨Nat.le_refl _, fun _ _ => rfl, fun _ _ => ⟨rfl, rfl⟩, fun _ => rfl, Nat.le_refl _⟩

/-! ### The statements -/

/-- Settles O1: the decoder answers the operation, and it may be issued. -/
theorem stepRunsTheDecodedOperation : Obligations.StepRunsTheDecodedOperation := by
  intro s sp bs rest i hr hd may
  rw [step_issue hr hd, if_pos (mayIssue_iff.2 may)]

/-- Settles O2: the entry at the front of the run says which of the four cases of `step` it is. -/
theorem stepWithoutAnOperationIsAHostTurn : Obligations.StepWithoutAnOperationIsAHostTurn := by
  intro s
  refine ⟨step_nil, fun _ => step_host, fun sp bs rest i hr hd host busy => ?_, fun _ _ _ _ => step_bad⟩
  rw [step_issue hr hd, if_neg (fun may => (mayIssue_iff.1 may).elim (· host) busy)]

/-- Settles O6: a turn of the host keeps the invariant, and so does every effect an operation can have. -/
theorem everyStepKeepsTheInvariant : Obligations.EveryStepKeepsTheInvariant := by
  intro s t hs e
  obtain ⟨rest, h⟩ := step_cases e
  have hr : Inv { s with run := rest } := inv_same hs rfl rfl rfl rfl
  obtain rfl | ⟨i, hi⟩ := h
  · exact inv_hostTurn hr
  · exact inv_of_effect hr (exec_effect hi)

/-- Settles O7: the FIFO is empty and both channels are at their reset. -/
theorem resetMeetsTheInvariant : Obligations.ResetMeetsTheInvariant := fun _ _ ok =>
  ⟨ok, Nat.zero_le _, chanInv_reset .., chanInv_reset ..⟩

/-- Settles O8: neither a turn of the host nor any effect of an operation writes the parameters. -/
theorem noStepChangesTheParameters : Obligations.NoStepChangesTheParameters := by
  intro s t e
  obtain ⟨rest, rfl | ⟨i, hi⟩⟩ := step_cases e
  · simp
  · have : t.cfg = { s with run := rest }.cfg := cfg_of_effect (exec_effect hi)
    exact this

/-- Settles O9: each element is the one `resetWith` writes; the FIFO is not full because its depth is at least 1. -/
theorem resetLeavesTheStatedValues : Obligations.ResetLeavesTheStatedValues := by
  refine ⟨fun cfg u depth => ?_, rfl⟩
  have notFull : (State.resetWith cfg u).full = false := decide_eq_false (by simp [State.resetWith]; omega)
  refine ⟨fun c => ?_, rfl, rfl, rfl, rfl, rfl, rfl, rfl, rfl, notFull, rfl, rfl, rfl, rfl, rfl, rfl, rfl, rfl, rfl,
    rfl, rfl, rfl, rfl, rfl, rfl⟩
  cases c <;> exact ⟨rfl, rfl, rfl, rfl, rfl, rfl, rfl, rfl⟩

/-- Settles O56: an encoder operation is quiet, and with no operation in hand the host's place is as it was. -/
theorem encoderTouchesNoHardware : Obligations.EncoderTouchesNoHardware := by
  intro s t i idle e family
  have he : ofEncoder i = true := by
    cases i <;> simp only at family <;> rfl
  obtain ⟨enc, host, res, fresh, rfl, place⟩ := quiet_exec_encoder he e
  rw [place idle]
  rfl

end Sys2Proof.Machine
end

