-- ==== Sys2Proof/Proofs/RegisterWrites.lean ====
section
/-! Writes of the registers, and reads after them (R108, R121 to R136): what each transaction leaves, the channel
after a write of the control word, and where the layout puts the registers (R61, R62, R104). -/

namespace Sys2Proof.Machine

variable (s : State) (c : ChanId) (v : Word)

/-! ### What each transaction leaves -/

theorem exec_wrCtl : exec (.wrCtl v) s = .next ((s.writeCtl v).answer .done) := rfl

theorem exec_rdFif :
    exec .rdFif s = .next { s with res := .word (Config.freeWord s.fresh), fresh := s.fresh + 1 } := rfl

theorem exec_rdRng : exec (.rdRng c) s = .next { s with res := .word (s.chan c).rng } := rfl

theorem exec_rdDat : exec (.rdDat c) s = .next { s with res := .word (s.chan c).dat } := rfl

theorem exec_wrRng :
    exec (.wrRng c v) s =
      .next { s.setChan c { s.chan c with rng := v } with res := .done, lastWr := some (.rng c) } := rfl

theorem exec_wrDat :
    exec (.wrDat c v) s =
      .next { s.setChan c { s.chan c with dat := v } with res := .done, lastWr := some (.dat c) } := rfl

theorem exec_wrSta : exec (.wrSta v) s = .next ((s.writeSta v).answer .done) := rfl

theorem exec_wrFif : exec (.wrFif v) s = .next ((s.writeFif v).answer .done) := rfl

theorem exec_wrCmctl : exec (.wrCmctl v) s = .next ((s.writeCmctl v).answer .done) := rfl

theorem exec_wrCmdiv : exec (.wrCmdiv v) s = .next ((s.writeCmdiv v).answer .done) := rfl

/-- A write clears a flag by a 1 and keeps it by a 0 (R124). -/
theorem clearedBy_eq_ite (flag one : Bool) : clearedBy flag one = if one then false else flag := by
  cases one <;> simp [clearedBy]

/-- The clock manager accepts a word that carries the password, or any word where there is none (R134, R136). -/
theorem passOk_iff :
    s.passOk v = true ↔ ∀ pw, s.cfg.layout.pass = some pw → v.extractLsb' pw.lsb 8 = pw.value := by
  unfold State.passOk
  cases s.cfg.layout.pass <;> simp

/-! ### The control word written -/

/-- A channel after a write of its control fields (R122), `n` the free values used before. -/
def Chan.afterCtl (x : Chan) (aborts : Bool) (now : CtlChan) (n : Nat) : Chan :=
  { x with
    ctl := now
    pos := if x.ctl.pwen && !now.pwen && aborts then 0 else x.pos
    len := if x.ctl.pwen && !now.pwen && aborts then 0 else x.len
    sta := x.sta && !(x.ctl.pwen && !now.pwen)
    out := (levelAfter x.ctl now x.out).getD (Config.freeLevel n) }

section AfterCtl

variable {x : Chan} {now : CtlChan} (aborts : Bool) (n : Nat)

theorem afterCtl_sta_of_disabled (on : x.ctl.pwen = true) (off : now.pwen = false) :
    (x.afterCtl aborts now n).sta = false := by
  simp [Chan.afterCtl, on, off]

theorem afterCtl_slot_of_aborted (on : x.ctl.pwen = true) (off : now.pwen = false) (h : aborts = true) :
    (x.afterCtl aborts now n).pos = 0 ∧ (x.afterCtl aborts now n).len = 0 := by
  simp [Chan.afterCtl, on, off, h]

theorem afterCtl_slot_of_not_aborts (h : aborts = false) :
    (x.afterCtl aborts now n).pos = x.pos ∧ (x.afterCtl aborts now n).len = x.len := by
  simp [Chan.afterCtl, h]

theorem afterCtl_out_of_low (off : now.pwen = false) (low : now.pola = false) :
    (x.afterCtl aborts now n).out = false := by
  simp [Chan.afterCtl, levelAfter_low off low]

/-- A channel that is not disabled by the write keeps its slot and its flag. -/
theorem afterCtl_slot_of_kept (kept : x.ctl.pwen = false ∨ now.pwen = true) :
    (x.afterCtl aborts now n).pos = x.pos ∧ (x.afterCtl aborts now n).len = x.len ∧
    (x.afterCtl aborts now n).sta = x.sta := by
  rcases kept with kept | kept <;> simp [Chan.afterCtl, kept]

theorem afterCtl_out_of_serializer (on : now.pwen = true) (ser : now.mode = .serializer) :
    (x.afterCtl aborts now n).out = x.out := by
  simp [Chan.afterCtl, levelAfter_serializer on ser]

/-- A disabled line whose polarity is not changed keeps its level, where it is low when it must be (R44). -/
theorem afterCtl_out_of_off (was : x.ctl.pwen = false) (off : now.pwen = false) (same : x.ctl.pola = now.pola)
    (low : x.ctl.pola = false → x.out = false) : (x.afterCtl aborts now n).out = x.out := by
  cases pola : now.pola with
  | false => rw [afterCtl_out_of_low aborts n off pola, low (same.trans pola)]
  | true => simp [Chan.afterCtl, levelAfter, was, off, same, pola]

end AfterCtl

theorem writeCtlChan_chan_eq (now : CtlChan) :
    (s.writeCtlChan c now).chan c = (s.chan c).afterCtl s.cfg.disableAborts now s.fresh :=
  writeCtlChan_chan s c now

@[simp] theorem clearIf_chan (b : Bool) : (s.clearIf b).chan c = s.chan c := by cases b <;> cases c <;> rfl

theorem clearIf_fifo (b : Bool) : (s.clearIf b).fifo = if b then [] else s.fifo := by cases b <;> rfl

/-- Each channel after a write of the control word. -/
theorem writeCtl_chan :
    ∃ n, (s.writeCtl v).chan c = (s.chan c).afterCtl s.cfg.disableAborts ((s.cfg.layout.ctlBits c).fields v) n := by
  have chan (d : ChanId) : (s.writeCtl v).chan d =
      ((s.writeCtlChan .ch1 (s.cfg.layout.ctlFields v).c1).writeCtlChan .ch2 (s.cfg.layout.ctlFields v).c2).chan d := by
    rw [State.writeCtl, chan_lastWr, clearIf_chan]
  cases c with
  | ch1 => exact ⟨s.fresh, (chan .ch1).trans
      ((writeCtlChan_other _ .ch2 _).trans (writeCtlChan_chan_eq s .ch1 _))⟩
  | ch2 =>
    have other : (s.writeCtlChan .ch1 (s.cfg.layout.ctlFields v).c1).chan .ch2 = s.chan .ch2 :=
      writeCtlChan_other s .ch1 _
    have own := writeCtlChan_chan_eq (s.writeCtlChan .ch1 (s.cfg.layout.ctlFields v).c1) .ch2
      (s.cfg.layout.ctlFields v).c2
    rw [other, writeCtlChan_cfg] at own
    exact ⟨_, (chan .ch2).trans own⟩

/-- A write of the control word reaches the channels, the FIFO and the count of free values. -/
theorem writeCtl_frame :
    s.writeCtl v = { s with
      ch1 := (s.writeCtl v).ch1, ch2 := (s.writeCtl v).ch2,
      fifo := (s.writeCtl v).fifo, lastWr := some .ctl, fresh := (s.writeCtl v).fresh } := by
  simp only [State.writeCtl, writeCtlChan_eq, State.clearIf]
  split <;> rfl

/-- `CLRF` empties the FIFO (R122). -/
theorem writeCtl_fifo : (s.writeCtl v).fifo = if v.getLsbD s.cfg.layout.clrf then [] else s.fifo := by
  change (State.clearIf _ _).fifo = _
  rw [clearIf_fifo, writeCtlChan_fifo, writeCtlChan_fifo]
  rfl

theorem writeCtl_ctl : ((s.writeCtl v).chan c).ctl = (s.cfg.layout.ctlBits c).fields v := by
  obtain ⟨n, h⟩ := writeCtl_chan s c v
  rw [h, Chan.afterCtl]

/-! ### The control word read back -/

/-- The fields of a word, each the word's bit at its position. -/
theorem ctlPairs_ctlFields (l : Layout) : ctlPairs l (l.ctlFields v) = (ctlPositions l).map fun k => (k, v.getLsbD k) := by
  simp [ctlPairs, ctlPositions, Layout.ctlFields, CtlBits.fields]

/-- The control word after a write reads the word written, without `CLRF` (R121, R122). -/
theorem ctlFields_writeCtl :
    (s.writeCtl v).ctlFields = { s.cfg.layout.ctlFields v with clrf := false } := by
  have h1 := writeCtl_ctl s .ch1 v
  have h2 := writeCtl_ctl s .ch2 v
  rw [chan_ch1] at h1
  rw [chan_ch2] at h2
  rw [State.ctlFields, h1, h2]
  rfl

/-- The word of a control word's fields without `CLRF`, bit by bit. -/
theorem getLsbD_ctlWord_ctlFields {l : Layout} (h : layoutOk l = true) (k : Nat) :
    (l.ctlWord { l.ctlFields v with clrf := false }).getLsbD k =
      (v.getLsbD k && decide (k ∈ ctlPositions l) && decide (k ≠ l.clrf)) := by
  by_cases mem : k ∈ ctlPositions l
  · by_cases clrf : k = l.clrf
    · rw [ctlWord_bit h (b := false) (by simp [ctlPairs, clrf])]
      simp [clrf]
    · have field : (k, v.getLsbD k) ∈ ctlPairs l (l.ctlFields v) := by
        rw [ctlPairs_ctlFields]
        exact List.mem_map.2 ⟨k, mem, rfl⟩
      rw [ctlWord_bit h (b := v.getLsbD k)]
      · simp [mem, clrf]
      · simp only [ctlPairs, List.mem_cons, Prod.mk.injEq] at field ⊢
        simpa [clrf] using field
  · rw [ctlWord_reserved _ mem]
    simp [mem]

/-! ### The register space -/

theorem mem_allRegs (r : Reg) : r ∈ allRegs := by
  rcases r with _ | _ | (_ | _) | (_ | _) | _ | _ | _ <;> decide

theorem layoutOk_places {l : Layout} (h : layoutOk l = true) :
    (allRegs.map (regPlace l)).Nodup ∧ ∀ r, (regPlace l r).2 % 4 = 0 := by
  simp only [layoutOk, Bool.and_eq_true, decide_eq_true_eq, List.all_eq_true] at h
  obtain ⟨⟨⟨⟨⟨nodup, aligned⟩, -⟩, -⟩, -⟩, -⟩ := h
  exact ⟨nodup, fun r => aligned r (mem_allRegs r)⟩

theorem regPlace_of_regAt {l : Layout} {blk : Block} {off : Nat} {r : Reg} (h : regAt l blk off = some r) :
    regPlace l r = (blk, off) := by
  simpa using List.find?_some h

/-- Distinct places: the register found at a register's place is that register. -/
theorem regAt_regPlace {l : Layout} (h : layoutOk l = true) (r : Reg) :
    regAt l (regPlace l r).1 (regPlace l r).2 = some r := by
  cases found : regAt l (regPlace l r).1 (regPlace l r).2 with
  | none => exact absurd (List.find?_eq_none.1 found r (mem_allRegs r)) (by simp)
  | some q =>
    have same : regPlace l q = regPlace l r := regPlace_of_regAt found
    rw [List.inj_on_of_nodup_map (layoutOk_places h).1 (mem_allRegs q) (mem_allRegs r) same]

/-! ### The statements -/

/-- Settles O13: the word answered is the next free value. -/
theorem readingTheFifoPortPopsNothing : Obligations.ReadingTheFifoPortPopsNothing := fun s => ⟨_, exec_rdFif s⟩

/-- Settles O14: a read answers the register of its channel, which after a write is the word written or, of the other
channel, what it was. -/
theorem rangeAndDataRegistersHoldWhatIsWritten : Obligations.RangeAndDataRegistersHoldWhatIsWritten := by
  intro s c v
  refine ⟨exec_rdRng s c, exec_rdDat s c, ⟨_, exec_wrRng s c v, rfl, ?_, ?_⟩, ⟨_, exec_wrDat s c v, rfl, ?_, ?_⟩⟩
  all_goals cases c <;> rfl

/-- Settles O15: each channel is the one `afterCtl` gives, read clause by clause. -/
theorem writingControlSetsTheFields : Obligations.WritingControlSetsTheFields := by
  intro s v
  refine ⟨_, exec_wrCtl s v, writeCtl_fifo s v, congrArg (State.answer · .done) (writeCtl_frame s v), fun c => ?_⟩
  obtain ⟨n, chan⟩ := writeCtl_chan s c v
  rw [answer_chan, chan]
  let x := (s.chan c).afterCtl s.cfg.disableAborts ((s.cfg.layout.ctlBits c).fields v) n
  exact ⟨x.pos, x.len, x.out, x.sta, rfl,
    fun on off => ⟨afterCtl_sta_of_disabled _ n on off, afterCtl_slot_of_aborted _ n on off,
      afterCtl_slot_of_not_aborts _ n, afterCtl_out_of_low _ n off⟩,
    afterCtl_slot_of_kept _ n, afterCtl_out_of_serializer _ n, afterCtl_out_of_off _ n⟩

/-- Settles O16: the word read is made of the fields written, without `CLRF`. -/
theorem controlReadsBackAsWritten : Obligations.ControlReadsBackAsWritten := by
  intro s v hl
  refine ⟨_, _, _, exec_wrCtl s v, exec_rdCtl _, rfl, fun k => ?_⟩
  have fields : ((s.writeCtl v).answer .done).ctlFields = { s.cfg.layout.ctlFields v with clrf := false } :=
    ctlFields_writeCtl s v
  rw [State.readCtl, fields, answer_cfg, writeCtl_cfg, getLsbD_ctlWord_ctlFields v hl]

/-- Settles O17: each flag is cleared by the word's bit at its position. -/
theorem writingStatusClearsTheFlagsGiven : Obligations.WritingStatusClearsTheFlagsGiven := fun s v =>
  ⟨_, exec_wrSta s v, clearedBy_eq_ite .., clearedBy_eq_ite .., clearedBy_eq_ite .., clearedBy_eq_ite ..,
    clearedBy_eq_ite .., rfl⟩

/-- Settles O18: the push with room and the push without. -/
theorem writingTheFifoPortPushesOrFlags : Obligations.WritingTheFifoPortPushesOrFlags := by
  intro s v
  refine ⟨fun room => ?_, fun full => ?_⟩
  · rw [exec_wrFif, writeFif_room s v room]; rfl
  · rw [exec_wrFif, writeFif_full s v full]; rfl

/-- Settles O19: the writes take effect exactly where the word passes the password's test. -/
theorem writingTheClockManagerNeedsThePassword : Obligations.WritingTheClockManagerNeedsThePassword := by
  intro s v accepted
  rw [exec_wrCmctl, exec_wrCmdiv, State.writeCmctl, State.writeCmdiv]
  refine ⟨fun h => ?_, fun h => ?_⟩
  · rw [if_pos ((passOk_iff s v).2 h), if_pos ((passOk_iff s v).2 h)]
    exact ⟨rfl, rfl⟩
  · have ignored : ¬ s.passOk v = true := fun ok => h ((passOk_iff s v).1 ok)
    rw [if_neg ignored, if_neg ignored]
    exact ⟨rfl, rfl⟩

/-- Settles O21: distinct places, each a multiple of 4. -/
theorem everyRegisterIsFoundAtItsPlace : Obligations.EveryRegisterIsFoundAtItsPlace := fun _ h =>
  ⟨fun r => ⟨regAt_regPlace h r, (layoutOk_places h).2 r⟩, fun _ _ _ => regPlace_of_regAt⟩

end Sys2Proof.Machine
end

