-- ==== Sys2Proof/Proofs/AgentSteps.lean ====
section
/-! The hardware agents' steps (R138 to R148): a serializer's tick by where its next bit comes from, the clock manager
settling, the bus error, and the statements about them. -/

namespace Sys2Proof.Machine

variable {s : State} {c : ChanId}

theorem exec_serTick (s : State) (c : ChanId) : exec (.serTick c) s = execSerTick c s := rfl

theorem exec_cmSettle (s : State) : exec .cmSettle s = .next { s with cm := { s.cm with busy := false } } := rfl

theorem exec_busErr (s : State) : exec .busErr s = if s.busMayErr then .next { s with berr := true } else .next s := rfl

/-! ### When a channel's tick is a step of its serializer -/

/-- The channel's serializer has a step: enabled, Serializer mode, the clock running, the step admitted (R138, R12). -/
structure MayTick (s : State) (c : ChanId) : Prop where
  on : (s.chan c).ctl.pwen = true
  ser : (s.chan c).ctl.mode = .serializer
  clock : s.clockRuns = true
  admitted : s.cfg.wsOnly = true → WsCfg s c

theorem exec_serTick_of_mayTick (h : MayTick s c) : exec (.serTick c) s = s.tick c :=
  execSerTick_enabled s c h.on h.ser h.clock h.admitted

/-- A tick that answers a next state is a turn without effect, an open level in Balance mode, or a step of the
serializer (R138). -/
theorem serTick_cases {t : State} (e : exec (.serTick c) s = .next t) :
    t = s ∨ ((s.chan c).ctl.mode = .balance ∧ t = s.balanceTick c) ∨ (MayTick s c ∧ s.tick c = .next t) := by
  rw [exec_serTick, execSerTick] at e
  split at e
  case isFalse => cases e; exact .inl rfl
  case isTrue on =>
    simp only [Bool.and_eq_true] at on
    split at e
    case h_2 bal => cases e; exact .inr (.inl ⟨bal, rfl⟩)
    case h_1 ser =>
      split at e
      case isFalse => cases e
      case isTrue admitted => exact .inr (.inr ⟨⟨on.1, ser, on.2, (admitsTick_iff s c).1 admitted⟩, e⟩)

theorem mayTick_of_lifted (on : (s.chan c).ctl.pwen = true) (ser : (s.chan c).ctl.mode = .serializer)
    (en : s.cm.enab = true) (divi : s.cm.divi ≠ 0#12) (lifted : s.cfg.wsOnly = false) : MayTick s c :=
  ⟨on, ser, clockRuns_of s en divi, fun only => by rw [lifted] at only; cases only⟩

/-! ### An idle slot's tick, by the source of its word -/

/-- A load of the FIFO's head (R139). -/
theorem tick_fifo {v : Word} {rest : List Word} (idle : (s.chan c).pos = (s.chan c).len)
    (fed : (s.chan c).ctl.usef = true) (head : s.fifo = v :: rest) (range : (s.chan c).rng ≠ 0#32) :
    s.tick c = .next { s.setChan c ((s.chan c).loadFifo v).shift with fifo := rest } := by
  simp [State.tick, idle, wordSource_of_head s c fed head, range]

/-- A load of the data register (R140). -/
theorem tick_data (idle : (s.chan c).pos = (s.chan c).len) (fed : (s.chan c).ctl.usef = false)
    (range : (s.chan c).rng ≠ 0#32) : s.tick c = .next (s.setChan c (s.chan c).loadDat.shift) := by
  simp [State.tick, idle, wordSource_of_data s c fed, range]

/-- The last word loaded again (R143). -/
theorem tick_repeat {v : Word} (idle : (s.chan c).pos = (s.chan c).len) (fed : (s.chan c).ctl.usef = true)
    (empty : s.fifo = []) (rep : (s.chan c).ctl.rptl = true) (last : (s.chan c).last = some v)
    (range : (s.chan c).rng ≠ 0#32) : s.tick c = .next (s.setChan c ((s.chan c).loadLast v).shift) := by
  simp [State.tick, idle, wordSource_of_repeat s c fed empty rep last, range]

/-- Nothing to send (R141). -/
theorem tick_dry (idle : (s.chan c).pos = (s.chan c).len) (fed : (s.chan c).ctl.usef = true) (empty : s.fifo = [])
    (no : (s.chan c).ctl.rptl = false ∨ (s.chan c).last = none) :
    s.tick c = .next { s.setChan c (s.chan c).underrun with rerr := true } := by
  simp [State.tick, idle, wordSource_of_dry s c fed empty no]

/-- Any load with a range of 0 is refused (R139, R140; U3). -/
theorem tick_rangeZero (idle : (s.chan c).pos = (s.chan c).len) (range : (s.chan c).rng = 0#32)
    (loads : s.wordSource c ≠ .dry) : s.tick c = .refused (.rangeZeroAtLoad c) := by
  cases source : s.wordSource c with
  | dry => exact absurd source loads
  | fifo | last | dat => simp [State.tick, idle, source, range]

/-- An idle slot has a word to load from the data register, from the FIFO, or the last word again (R138). -/
theorem wordSource_ne_dry (h : (s.chan c).ctl.usef = false ∨ s.fifo ≠ [] ∨
    ((s.chan c).ctl.rptl = true ∧ (s.chan c).last ≠ none)) : s.wordSource c ≠ .dry := by
  cases fed : (s.chan c).ctl.usef with
  | false => simp [wordSource_of_data s c fed]
  | true =>
    cases queued : s.fifo with
    | cons v rest => simp [wordSource_of_head s c fed queued]
    | nil =>
      obtain ⟨rep, last⟩ : (s.chan c).ctl.rptl = true ∧ (s.chan c).last ≠ none := by simpa [fed, queued] using h
      obtain ⟨v, last⟩ := Option.ne_none_iff_exists'.1 last
      simp [wordSource_of_repeat s c fed queued rep last]

/-! ### Where a tick has no serializer step -/

theorem clockRuns_eq_false_iff : s.clockRuns = false ↔ s.cm.enab = false ∨ s.cm.divi = 0#12 := by
  cases enab : s.cm.enab <;> simp [State.clockRuns, enab]

/-- In Balance mode at most the line's level and the count of free values change (R138, U7). -/
theorem execSerTick_balance (bal : (s.chan c).ctl.mode = .balance) :
    ∃ out fresh, execSerTick c s = .next { s.setChan c { s.chan c with out := out } with fresh := fresh } := by
  unfold execSerTick
  split
  · rw [bal]
    exact ⟨Config.freeLevel s.fresh, s.fresh + 1, rfl⟩
  · exact ⟨(s.chan c).out, s.fresh, by cases c <;> rfl⟩

/-! ### The bus error -/

theorem busMayErr_after {regs : List Reg} {r : Reg} (oracle : s.cfg.berrOracle = .after regs)
    (last : s.lastWr = some r) : s.busMayErr = decide (r ∈ regs) := by
  simp [State.busMayErr, oracle, last]

theorem busMayErr_never (h : s.cfg.berrOracle = .never ∨ s.lastWr = none) : s.busMayErr = false := by
  unfold State.busMayErr
  rcases h with h | h
  · rw [h]
  · rw [h]
    cases s.cfg.berrOracle <;> rfl

/-! ### The statements -/

/-- Settles O22: the head of the FIFO is loaded and its first bit shifted out. -/
theorem tickLoadsTheFifosHead : Obligations.TickLoadsTheFifosHead := by
  intro s c v rest x on ser en divi idle fed head range ws level
  rw [exec_serTick_of_mayTick ⟨on, ser, clockRuns_of s en divi, ws⟩, tick_fifo idle fed head range]
  rfl

/-- Settles O23: inside the slot the tick is a shift. -/
theorem tickShiftsTheNextBitOut : Obligations.TickShiftsTheNextBitOut := by
  intro s c x on ser en divi inside ws level
  have bit : x.slotBit = if x.pos < 32 then x.sr.getLsbD (31 - x.pos) else false := by
    unfold Chan.slotBit
    split <;> simp [*]
  rw [exec_serTick_of_mayTick ⟨on, ser, clockRuns_of s en divi, ws⟩, tick_inside s c (Nat.ne_of_lt inside)]
  simp only [Chan.shift, Chan.emit, bit, level, x]

/-- Settles O24: the slot is idle and there is nothing to load. -/
theorem tickUnderrunsOnAnEmptyFifo : Obligations.TickUnderrunsOnAnEmptyFifo := by
  intro s c x on ser en divi idle fed empty no ws level
  rw [exec_serTick_of_mayTick ⟨on, ser, clockRuns_of s en divi, ws⟩, tick_dry idle fed empty no]
  rfl

/-- Settles O25: the two loads that are not from the FIFO. -/
theorem tickSendsTheDataRegisterOrTheLastWord : Obligations.TickSendsTheDataRegisterOrTheLastWord := by
  intro s c x on ser en divi idle range lifted
  rw [exec_serTick_of_mayTick (mayTick_of_lifted on ser en divi lifted)]
  refine ⟨fun fed => ?_, fun v fed empty rep last => ?_⟩
  · rw [tick_data idle fed range]; rfl
  · rw [tick_repeat idle fed empty rep last range]; rfl

/-- Settles O26: there is a word to load and the range is 0. -/
theorem loadWithRangeZeroIsRefused : Obligations.LoadWithRangeZeroIsRefused := by
  intro s c x on ser en divi idle range lifted loads
  rw [exec_serTick_of_mayTick (mayTick_of_lifted on ser en divi lifted),
    tick_rangeZero idle range (wordSource_ne_dry loads)]

/-- Settles O27: no step without enable or clock, the open level in Balance mode, the refusal outside `WSCFG`. -/
theorem tickNeedsAnEnabledChannelAndARunningClock : Obligations.TickNeedsAnEnabledChannelAndARunningClock := by
  intro s c
  refine ⟨fun off => ?_, execSerTick_balance, fun on en divi ser only outside => ?_⟩
  · exact execSerTick_off s c (off.imp id clockRuns_eq_false_iff.2)
  · exact execSerTick_refused s c on ser (clockRuns_of s en divi) only outside

/-- Settles O28: the oracle is asked about the register written last. -/
theorem clockSettlesAndBusMayErr : Obligations.ClockSettlesAndBusMayErr := by
  intro s
  refine ⟨exec_cmSettle s, fun regs r oracle last mem => ?_, fun regs r oracle last notMem => ?_, fun never => ?_⟩
  · rw [exec_busErr, busMayErr_after oracle last, if_pos (decide_eq_true mem)]
  · rw [exec_busErr, busMayErr_after oracle last, if_neg (by simpa using notMem)]
  · rw [exec_busErr, busMayErr_never never, if_neg Bool.false_ne_true]

end Sys2Proof.Machine
end

