-- ==== Sys2Proof/Proofs/ScaleLaws.lean ====
section
/-! `SCALE` (R181): the exact product is the floor it is meant to be, and under every legal parameter `SCALE_FN` obeys
the laws. The exact product is the table without rows, so one proof of the laws serves both. -/

namespace Sys2Proof.Machine

variable (s : State) (ch : Byte) {b : Brightness} {cfg : Config}

theorem exec_scale_of_inRange (h : brtInRange b = true) :
    exec (.scale ch b) s = .next { s with res := .byte (scaleFn s.cfg ch b) } := if_pos h

/-! ### The exact product -/

theorem scaleFn_exact (h : cfg.scaleFn = .exact) : scaleFn cfg ch b = scaleExact ch b := by
  simp [scaleFn, h]

/-- A fraction of a channel value by a brightness of at most 1 fits the channel (R181). -/
theorem scaleExact_toNat (hi : b.num ≤ (brtDen b : Int)) :
    (scaleExact ch b).toNat = ch.toNat * b.num.toNat / brtDen b := by
  rw [scaleExact, BitVec.toNat_ofNat]
  refine Nat.mod_eq_of_lt (Nat.lt_of_le_of_lt (Nat.div_le_of_le_mul ?_) ch.isLt)
  rw [Nat.mul_comm (brtDen b)]
  exact Nat.mul_le_mul_left _ (by omega)

/-- The floor, without division. -/
theorem scaleExact_bounds (lo : 0 ≤ b.num) (hi : b.num ≤ (brtDen b : Int)) :
    ((scaleExact ch b).toNat : Int) * (brtDen b : Int) ≤ (ch.toNat : Int) * b.num ∧
    (ch.toNat : Int) * b.num < (((scaleExact ch b).toNat : Int) + 1) * (brtDen b : Int) := by
  obtain ⟨n, hn⟩ := Int.eq_ofNat_of_zero_le lo
  have pos : 0 < brtDen b := Nat.succ_pos _
  rw [scaleExact_toNat ch hi, hn, Int.toNat_natCast]
  constructor
  · exact_mod_cast Nat.div_mul_le_self _ _
  · rw [Int.mul_comm (_ + 1)]
    exact_mod_cast Nat.lt_mul_div_succ _ pos

/-! ### The laws -/

/-- A legal table obeys the laws, since its result is a count of passed thresholds. -/
theorem scaleLaws_table {rows : List ScaleRow} (h : cfg.scaleFn = .table rows) (ok : scaleFnOk (.table rows) = true) :
    ScaleLaws (scaleFn cfg) := by
  have count (ch : Byte) {b : Brightness} (lo : 0 ≤ b.num) (hi : b.num ≤ (b.denPred : Int) + 1) :
      (scaleFn cfg ch b).toNat = (cutsAt rows ch.toNat).countP (cutPassed b) :=
    scaleFn_table h ok ch lo (by simpa [brtDen] using hi)
  have byte (ch : Byte) : ch.toNat ≤ 255 := Nat.le_of_lt_succ ch.isLt
  have ends (ch : Byte) (b : Brightness) := cutsAt_ends ok ch.toNat (byte ch) (b := b)
  refine ⟨fun ch b zero => ?_, fun ch b one => ?_, fun b lo hi => ?_, fun ch b lo hi => ?_,
    fun ch ch' b b' lo hi lo' hi' chLe brLe => ?_⟩
  · refine BitVec.eq_of_toNat_eq ?_
    rw [count ch (by omega) (by omega), (ends ch b).1 zero]
    rfl
  · refine BitVec.eq_of_toNat_eq ?_
    rw [count ch (by omega) (by omega), (ends ch b).2 (by simpa [brtDen] using one)]
  · refine BitVec.eq_of_toNat_eq ?_
    have none : cutsAt rows (0#8).toNat = [] := List.length_eq_zero_iff.1 (cutsAt_legal ok 0 (by omega)).1
    rw [count 0#8 lo hi, none]
    rfl
  · rw [BitVec.le_def, count ch lo hi]
    exact List.countP_le_length.trans (cutsAt_legal ok ch.toNat (byte ch)).1.le
  · have brighter : brtVal b ≤ brtVal b' := (brtLe_iff b b').1 (decide_eq_true (by simpa [brtDen] using brLe))
    rw [BitVec.le_def, count ch lo hi, count ch' lo' hi']
    exact (countP_mono brighter _).trans (cutsAt_mono ok (BitVec.le_def.1 chLe) (byte ch') b')

theorem scaleLaws_exact : ScaleLaws scaleExact := by
  have asTable : scaleFn { Config.default with scaleFn := .table [] } = scaleExact := rfl
  exact asTable ▸ scaleLaws_table rfl rfl

/-- Whatever the parameter `SCALE_FN` is, it obeys the laws of R181 (log entry 17). -/
theorem scaleFn_laws (ok : configOk cfg = true) : ScaleLaws (scaleFn cfg) := by
  simp only [configOk, Bool.and_eq_true] at ok
  cases form : cfg.scaleFn with
  | exact =>
    have : scaleFn cfg = scaleExact := by funext ch b; exact scaleFn_exact ch form
    exact this ▸ scaleLaws_exact
  | table rows => exact scaleLaws_table form (form ▸ ok.2)
  | lawful =>
    cases free : Config.freeScale with
    | none =>
      have : scaleFn cfg = scaleExact := by funext ch b; simp [scaleFn, form, free]
      exact this ▸ scaleLaws_exact
    | some f =>
      have : scaleFn cfg = f.1 := by funext ch b; simp [scaleFn, form, free]
      exact this ▸ f.2

/-! ### The statements -/

/-- Settles O40: the floor's two bounds. -/
theorem scaleIsTheFloorOfTheExactProduct : Obligations.ScaleIsTheFloorOfTheExactProduct := by
  intro s ch b form inRange
  obtain ⟨lo, hi⟩ := brtInRange_iff.1 inRange
  exact ⟨scaleExact ch b, scaleFn_exact ch form ▸ exec_scale_of_inRange s ch inRange, scaleExact_bounds ch lo hi⟩

/-- Settles O41: the laws, for brightnesses in range. -/
theorem scaleKeepsItsLaws : Obligations.ScaleKeepsItsLaws := by
  intro s ch b ok inRange
  have laws := scaleFn_laws ok
  have bounds {b : Brightness} (h : brtInRange b = true) : 0 ≤ b.num ∧ b.num ≤ (b.denPred : Int) + 1 := by
    simpa [brtDen] using brtInRange_iff.1 h
  obtain ⟨lo, hi⟩ := bounds inRange
  refine ⟨exec_scale_of_inRange s ch inRange, laws.zero ch b, fun one => laws.one ch b (by simpa [brtDen] using one),
    laws.black b lo hi, laws.le ch b lo hi, fun ch' b' inRange' chLe brLe => ?_⟩
  obtain ⟨lo', hi'⟩ := bounds inRange'
  exact laws.mono ch ch' b b' lo hi lo' hi' chLe (by simpa [brtDen] using brLe)

end Sys2Proof.Machine
end

