-- ==== Sys2Proof/Proofs/EncoderFrames.lean ====
section
/-! The encoder's operations on words, symbols and frames (R182 to R194): what each answers or refuses, and from the
stream bits of a placed symbol the bits of a pixel and of a whole frame. -/

namespace Sys2Proof.Machine

variable (s : State)

/-! ### Words and symbols -/

theorem exec_colorWord (r g b : Byte) :
    exec (.colorWord r g b) s =
      .next { s with enc := { s.enc with cw := colorWordOf r g b }, res := .cword (colorWordOf r g b) } := rfl

theorem exec_cw (r g b : Byte) : exec (.cw g r b) s = .next { s with res := .cword (colorWordOf r g b) } := rfl

theorem unpack_colorWordOf (r g b : Byte) : unpack (colorWordOf r g b) = { r := r, g := g, b := b } := by
  obtain ⟨green, red, blue⟩ := colorWordOf_bytes r g b
  rw [unpack, green, red, blue]

theorem exec_sym (b : Bool) : exec (.sym b) s = .next { s with res := .sym (symbolOf b) } := rfl

theorem exec_symDec_symbolOf (b : Bool) : exec (.symDec (symbolOf b)) s = .next { s with res := .bit b } := by
  cases b <;> rfl

/-- Any value but the two symbols decodes to nothing (R199). -/
theorem symDecOf_eq_none {y : Sym} (notOne : y ≠ 0b110#3) (notZero : y ≠ 0b100#3) : symDecOf y = none := by
  simp [symDecOf, notOne, notZero]

theorem exec_symDec_of_none {y : Sym} (h : symDecOf y = none) :
    exec (.symDec y) s = .next (s.raise (.badSymbol y none)) := by
  simp [exec, execSymDec, h]

theorem exec_bitSel_past (cw : CWord) {p : Nat} (h : 23 < p) :
    exec (.bitSel cw p) s =
      .next { s with res := .bit (Config.freeBit s.fresh), fresh := s.fresh + 1 } := if_neg (by omega)

theorem exec_scale_of_outside (ch : Byte) {b : Brightness} (h : brtInRange b = false) :
    exec (.scale ch b) s = .refused .brightnessOutsideRange := if_neg (by simp [h])

/-! ### Locating a symbol -/

theorem exec_locate (g : Nat) :
    exec (.locate g) s = .next { s with res := .location (wordIndex g) (offsetFromTop g) (formOf g) } := rfl

/-- The form says the sign of the offset (R112). -/
theorem formOf_iff (g : Nat) :
    (formOf g = .A ↔ 0 ≤ offsetFromTop g) ∧ (formOf g = .B ↔ offsetFromTop g = -1) ∧
    (formOf g = .C ↔ offsetFromTop g = -2) := by
  unfold formOf offsetFromTop
  by_cases isB : g % 32 = 30
  · simp [isB]
  · by_cases isC : g % 32 = 31
    · simp [isC]
    · simp only [isB, isC, if_false, true_iff, reduceCtorEq, false_iff]
      omega

theorem wordIndex_offset (g : Nat) : (g : Int) = 32 * (wordIndex g : Int) + 29 - offsetFromTop g := by
  unfold wordIndex offsetFromTop; omega

theorem offsetFromTop_bounds (g : Nat) : -2 ≤ offsetFromTop g ∧ offsetFromTop g ≤ 29 := by
  unfold offsetFromTop; omega

/-! ### Writes into the working frame -/

theorem exec_clearFrame (fw : Nat) :
    exec (.clearFrame fw) s =
      .next { s with enc := { s.enc with w := List.replicate fw 0#32 }, res := .done } := rfl

theorem placeInFrame_inside {g last : Nat} {w : List Word} (h : last < 32 * s.enc.w.length) :
    s.placeInFrame g last w = .next { s with enc := { s.enc with w := w }, res := .done } := if_pos h

theorem placeInFrame_outside {g last : Nat} {w : List Word} (h : 32 * s.enc.w.length ≤ last) :
    s.placeInFrame g last w = .refused (.outsideFrame g) := if_neg (by omega)

theorem exec_place (g : Nat) (y : Sym) :
    exec (.place g y) s = s.placeInFrame g (g + 2) (placeAt s.enc.w g y) := rfl

theorem exec_placeA (k off : Nat) (y : Sym) :
    exec (.placeA k off y) s =
      s.placeInFrame (32 * k + (29 - off)) (32 * k + 31) (placeFormA s.enc.w k off y) := rfl

theorem exec_placeB (k : Nat) (y : Sym) :
    exec (.placeB k y) s = s.placeInFrame (32 * k + 30) (32 * k + 32) (placeFormB s.enc.w k y) := rfl

theorem exec_placeC (k : Nat) (y : Sym) :
    exec (.placeC k y) s = s.placeInFrame (32 * k + 31) (32 * k + 33) (placeFormC s.enc.w k y) := rfl

section Forms

variable (w : List Word) (k : Nat) (y : Sym)

/-- Form A is the placement at any position whose offset is not negative (R189). -/
theorem placeAt_A {off : Nat} (h : off ≤ 29) : placeAt w (32 * k + (29 - off)) y = placeFormA w k off y := by
  unfold placeAt formOf wordIndex
  rw [if_neg (by omega), if_neg (by omega)]
  dsimp only
  rw [show (32 * k + (29 - off)) / 32 = k by omega, show 29 - (32 * k + (29 - off)) % 32 = off by omega]

theorem placeAt_B : placeAt w (32 * k + 30) y = placeFormB w k y := by
  unfold placeAt formOf wordIndex
  rw [if_pos (by omega)]
  dsimp only
  rw [show (32 * k + 30) / 32 = k by omega]

theorem placeAt_C : placeAt w (32 * k + 31) y = placeFormC w k y := by
  unfold placeAt formOf wordIndex
  rw [if_neg (by omega), if_pos (by omega)]
  dsimp only
  rw [show (32 * k + 31) / 32 = k by omega]

end Forms

/-! ### Pixels -/

theorem exec_encPixel_inside (i : Nat) (px : Pixel) {b : Brightness} (inRange : brtInRange b = true)
    (h : 72 * i + 71 < 32 * s.enc.w.length) :
    exec (.encPixel i px b) s = .next { s with enc := s.enc.pixel s.cfg i px b, res := .done } := by
  simp only [exec, execEncPixel]
  rw [if_pos inRange, if_pos h]
  rfl

theorem exec_encPixel_of_outside (i : Nat) (px : Pixel) {b : Brightness} (h : brtInRange b = false) :
    exec (.encPixel i px b) s = .refused .brightnessOutsideRange := if_neg (by simp [h])

theorem exec_encPixel_past (i : Nat) (px : Pixel) {b : Brightness} (inRange : brtInRange b = true)
    (h : 32 * s.enc.w.length ≤ 72 * i + 71) : exec (.encPixel i px b) s = .refused (.outsideFrame (72 * i)) := by
  simp only [exec, execEncPixel]
  rw [if_pos inRange, if_neg (by omega)]

/-- The stream of a pixel from position `g` on is that of its colour word: of each symbol the first bit is 1, the
second the colour word's, the third 0 (R194). -/
def StreamsWord (w : List Word) (g : Nat) (cw : CWord) : Prop :=
  ∀ p < 24, bitAt w (g + 3 * p) = true ∧ bitAt w (g + 3 * p + 1) = cw.getLsbD (23 - p) ∧
    bitAt w (g + 3 * p + 2) = false

/-- A pixel's 72 stream bits, each the bit of the symbol it lies in, are the stream of its colour word. -/
theorem streamsWord_of_symbols {w : List Word} {g : Nat} {cw : CWord}
    (h : ∀ j < 72, bitAt w (g + j) = (symbolOf (bitSelOf cw (j / 3))).getLsbD (2 - j % 3)) : StreamsWord w g cw := by
  intro p hp
  obtain ⟨first, second, third⟩ := symbolOf_bits (bitSelOf cw p)
  refine ⟨?_, ?_, ?_⟩
  · rw [h (3 * p) (by omega), show 3 * p / 3 = p by omega, show 2 - 3 * p % 3 = 2 by omega, first]
  · rw [Nat.add_assoc, h (3 * p + 1) (by omega), show (3 * p + 1) / 3 = p by omega,
      show 2 - (3 * p + 1) % 3 = 1 by omega, second, bitSelOf]
  · rw [Nat.add_assoc, h (3 * p + 2) (by omega), show (3 * p + 2) / 3 = p by omega,
      show 2 - (3 * p + 2) % 3 = 0 by omega, third]

theorem streamsWord_pixel (cfg : Config) (e : Enc) (i : Nat) (px : Pixel) (b : Brightness)
    (h : 72 * i + 72 ≤ 32 * e.w.length) : StreamsWord (e.pixel cfg i px b).w (72 * i) (scaledWord cfg px b) := by
  obtain ⟨-, -, -, -, -, -, -, bit⟩ := pixel_spec cfg e i px b h
  refine streamsWord_of_symbols fun j hj => ?_
  rw [bit, if_pos (by omega), Nat.add_sub_cancel_left]

/-- Every pixel of the frame `ENCODE` makes streams its colour word (R194). -/
theorem streamsWord_encodeOf (cfg : Config) {pixels : List Pixel} (b : Brightness) {i : Nat} {px : Pixel}
    (h : pixels[i]? = some px) : StreamsWord (encodeOf cfg pixels b) (72 * i) (scaledWord cfg px b) :=
  streamsWord_of_symbols ((encodeOf_spec cfg pixels b).2.1 i px h)

/-! ### The statements -/

/-- Settles O42: each operation at the first operand past its domain. -/
theorem encoderOperandsOutsideTheirDomains : Obligations.EncoderOperandsOutsideTheirDomains := by
  intro s
  refine ⟨exec_scale_of_outside s, fun i px b => exec_encPixel_of_outside s i px,
    fun i px b => exec_encPixel_past s i px, fun g y => placeInFrame_outside s, fun k off y h => ?_,
    fun k y h => ⟨?_, ?_⟩, fun cw p h => ⟨_, exec_bitSel_past s cw h⟩, fun w n h => if_neg (by omega)⟩
  · rw [exec_placeA, placeInFrame_outside s (by omega)]
  · rw [exec_placeB, placeInFrame_outside s (by omega)]
  · rw [exec_placeC, placeInFrame_outside s (by omega)]

/-- Settles O43: the three bytes of the colour word. -/
theorem colorWordPutsGreenOnTop : Obligations.ColorWordPutsGreenOnTop := by
  intro s r g b
  obtain ⟨green, red, blue⟩ := colorWordOf_bytes r g b
  exact ⟨_, exec_colorWord s r g b, exec_cw s r g b, green, red, blue, unpack_colorWordOf r g b⟩

/-- Settles O45: a symbol decodes to its bit, and any other value fails while no operation is in hand. -/
theorem symbolsAreOneHundredAndOneHundredTen : Obligations.SymbolsAreOneHundredAndOneHundredTen := by
  intro s
  refine ⟨rfl, rfl, rfl, rfl, fun b => ?_, fun y notOne notZero idle => ?_⟩
  · obtain ⟨first, second, third⟩ := symbolOf_bits b
    exact ⟨symbolOf b, exec_sym s b, first, second, third, exec_symDec_symbolOf s b⟩
  · rw [exec_symDec_of_none s (symDecOf_eq_none notOne notZero), raise_of_idle s _ idle]

/-- Settles O47: word and offset recompose the position, and the form is the offset's sign. -/
theorem locateGivesWordOffsetAndForm : Obligations.LocateGivesWordOffsetAndForm := fun s g =>
  ⟨_, _, _, exec_locate s g, wordIndex_offset g, (offsetFromTop_bounds g).1, (offsetFromTop_bounds g).2, formOf_iff g⟩

/-- Settles O48: a frame of zero words. -/
theorem clearFrameZeroesTheFrame : Obligations.ClearFrameZeroesTheFrame := fun s fw =>
  ⟨_, exec_clearFrame s fw, List.length_replicate, fun k h => by simp [h], bitAt_replicate_zero fw⟩

/-- Settles O49: the bits of the frame after the placement. -/
theorem placeWritesItsThreeBits : Obligations.PlaceWritesItsThreeBits := by
  intro s g y h
  refine ⟨_, (exec_place s g y).trans (placeInFrame_inside s h), placeAt_length g, ?_, ?_, ?_, fun k n0 n1 n2 => ?_⟩
  · rw [bitAt_placeAt h, if_pos (by omega), Nat.sub_self]
  · rw [bitAt_placeAt h, if_pos (by omega), Nat.add_sub_cancel_left]
  · rw [bitAt_placeAt h, if_pos (by omega), Nat.add_sub_cancel_left]
  · rw [bitAt_placeAt h, if_neg (by omega)]

/-- Settles O50: each form's frame is the one `placeAt` makes at its position. -/
theorem placementFormsArePlace : Obligations.PlacementFormsArePlace := by
  intro s k y
  refine ⟨fun off ho hk => ?_, fun hk => ⟨?_, ?_⟩⟩
  · refine ⟨_, (exec_placeA s k off y).trans (placeInFrame_inside s (by omega)), ?_⟩
    rw [exec_place, placeAt_A _ _ _ ho, placeInFrame_inside s (by omega)]
  · refine ⟨_, (exec_placeB s k y).trans (placeInFrame_inside s (by omega)), ?_⟩
    rw [exec_place, placeAt_B, placeInFrame_inside s (by omega)]
  · refine ⟨_, (exec_placeC s k y).trans (placeInFrame_inside s (by omega)), ?_⟩
    rw [exec_place, placeAt_C, placeInFrame_inside s (by omega)]

/-- Settles O51: the encoder after the pixel's 24 symbols. -/
theorem encPixelWritesItsSeventyTwoBits : Obligations.EncPixelWritesItsSeventyTwoBits := by
  intro s i px b inRange h
  obtain ⟨len, cw, hi, hp, hg, -, -, bit⟩ := pixel_spec s.cfg s.enc i px b (by omega)
  refine ⟨_, exec_encPixel_inside s i px inRange h, len, cw, hi, hp, hg,
    streamsWord_pixel s.cfg s.enc i px b (by omega), fun k hk => ?_⟩
  rw [bit, if_neg (by omega)]

/-- Settles O52: the frame's length, each pixel's stream and the padding. -/
theorem encodeMeetsItsClosedForm : Obligations.EncodeMeetsItsClosedForm := by
  intro s pixels b inRange
  obtain ⟨len, -, padding⟩ := encodeOf_spec s.cfg pixels b
  exact ⟨_, exec_encodeFrame_of_inRange s pixels inRange, len,
    fun _ p _ hpx => streamsWord_encodeOf s.cfg b hpx p, padding⟩

end Sys2Proof.Machine
end

