-- ==== Sys2Proof/Proofs/DecodedFrames.lean ====
section
/-! `DECODE` (R199, R200, R229) and the round trip with `ENCODE` (R201): the symbols of one pixel, of all pixels, and
the first bad one. -/

namespace Sys2Proof.Machine

variable {w : List Word} {g : Nat}

/-! ### The symbols of one pixel -/

/-- The 24 symbols from position `g` on are the colour word's bits, its top bit first. -/
def SpellsWord (w : List Word) (g : Nat) (cw : CWord) : Prop :=
  ∀ p < 24, symDecOf (symAt w (g + 3 * p)) = some (cw.getLsbD (23 - p))

theorem spellsWord_unique {cw cw' : CWord} (h : SpellsWord w g cw) (h' : SpellsWord w g cw') : cw = cw' := by
  refine BitVec.eq_of_getLsbD_eq fun j hj => ?_
  have bit := (h (23 - j) (by omega)).symm.trans (h' (23 - j) (by omega))
  rwa [show 23 - (23 - j) = j by omega, Option.some_inj] at bit

/-- A stream of a colour word spells it. -/
theorem spellsWord_of_streamsWord {cw : CWord} (h : StreamsWord w g cw) : SpellsWord w g cw := by
  intro p hp
  obtain ⟨first, second, third⟩ := h p hp
  rw [symAt_eq_symbolOf first second third, symDecOf_symbolOf]

/-- One symbol read sets the bit it stands for where it is a 1 (R200). -/
theorem getLsbD_accumulate (acc : CWord) (bit : Bool) {n : Nat} (hn : n < 24) (j : Nat) :
    (if bit then acc ||| (1#24 <<< n) else acc).getLsbD j = (acc.getLsbD j || (bit && decide (j = n))) := by
  cases bit with
  | false => simp
  | true =>
    rw [if_pos rfl, BitVec.getLsbD_or, BitVec.getLsbD_shiftLeft, BitVec.getLsbD_one]
    rcases Nat.lt_trichotomy j n with lt | rfl | gt
    · simp [lt, lt.ne]
    · simp [hn]
    · have : j - n ≠ 0 := by omega
      simp [gt.ne', this]

/-- With `n` legal symbols to read, bit `n - 1 - p` is set where symbol `p` is a 1, and no bit from `n` up changes. -/
theorem decodeSymbols_of_legal (n : Nat) (g : Nat) (acc : CWord) (hn : n ≤ 24)
    (legal : ∀ p < n, symDecOf (symAt w (g + 3 * p)) ≠ none) :
    ∃ cw, decodeSymbols w n g acc = .ok cw ∧ (∀ j, n ≤ j → cw.getLsbD j = acc.getLsbD j) ∧
      ∀ p < n, acc.getLsbD (n - 1 - p) = false → symDecOf (symAt w (g + 3 * p)) = some (cw.getLsbD (n - 1 - p)) := by
  induction n generalizing g acc with
  | zero => exact ⟨acc, rfl, fun _ _ => rfl, fun p hp => absurd hp (Nat.not_lt_zero p)⟩
  | succ n ih =>
    obtain ⟨bit, first⟩ := Option.ne_none_iff_exists'.1 (legal 0 (Nat.succ_pos n))
    simp only [Nat.mul_zero, Nat.add_zero] at first
    have next (p : Nat) : g + 3 + 3 * p = g + 3 * (p + 1) := by omega
    obtain ⟨cw, run, above, below⟩ := ih (g + 3) (if bit then acc ||| (1#24 <<< n) else acc) (by omega)
      fun p hp => next p ▸ legal (p + 1) (by omega)
    refine ⟨cw, ?_, fun j hj => ?_, fun p hp clear => ?_⟩
    · rw [decodeSymbols, first]
      exact run
    · rw [above j (by omega), getLsbD_accumulate _ _ hn]
      simp [show j ≠ n by omega]
    · cases p with
      | zero =>
        rw [show n + 1 - 1 - 0 = n by omega] at clear ⊢
        rw [above n (Nat.le_refl n), getLsbD_accumulate _ _ hn, clear]
        simpa using first
      | succ p =>
        have idx : n + 1 - 1 - (p + 1) = n - 1 - p := by omega
        rw [idx] at clear ⊢
        rw [← next]
        refine below p (by omega) ?_
        rw [getLsbD_accumulate _ _ hn, clear]
        simp [show n - 1 - p ≠ n by omega]

/-- Legal symbols of a pixel decode to the colour word they spell. -/
theorem decodeSymbols_spells (legal : ∀ p < 24, symDecOf (symAt w (g + 3 * p)) ≠ none) :
    ∃ cw, decodeSymbols w 24 g 0#24 = .ok cw ∧ SpellsWord w g cw := by
  obtain ⟨cw, run, -, bits⟩ := decodeSymbols_of_legal 24 g 0#24 (Nat.le_refl _) legal
  exact ⟨cw, run, fun p hp => bits p hp BitVec.getLsbD_zero⟩

/-- The first bad symbol ends the decoding of a pixel. -/
theorem decodeSymbols_of_bad (n g : Nat) (acc : CWord) {k : Nat} (hk : k < n)
    (legal : ∀ p < k, symDecOf (symAt w (g + 3 * p)) ≠ none) (bad : symDecOf (symAt w (g + 3 * k)) = none) :
    decodeSymbols w n g acc = .error (.badSymbol (symAt w (g + 3 * k)) (some (g + 3 * k))) := by
  induction n generalizing g acc k with
  | zero => exact absurd hk (Nat.not_lt_zero k)
  | succ n ih =>
    cases k with
    | zero => simp only [Nat.mul_zero, Nat.add_zero] at bad ⊢; rw [decodeSymbols, bad]
    | succ k =>
      obtain ⟨bit, first⟩ := Option.ne_none_iff_exists'.1 (legal 0 (Nat.succ_pos k))
      simp only [Nat.mul_zero, Nat.add_zero] at first
      have next (p : Nat) : g + 3 * (p + 1) = g + 3 + 3 * p := by omega
      rw [next] at bad ⊢
      rw [decodeSymbols, first]
      exact ih (g + 3) _ (by omega) (fun p hp => next p ▸ legal (p + 1) (by omega)) bad

/-! ### All pixels -/

/-- Legal symbols of `n` pixels decode to the colour words they spell. -/
theorem decodePixels_of_legal (n g : Nat) (legal : ∀ j < 24 * n, symDecOf (symAt w (g + 3 * j)) ≠ none) :
    ∃ cws, decodePixels w n g = .ok cws ∧ cws.length = n ∧
      ∀ (i : Nat) (cw : CWord), cws[i]? = some cw → SpellsWord w (g + 72 * i) cw := by
  induction n generalizing g with
  | zero => exact ⟨[], rfl, rfl, by simp⟩
  | succ n ih =>
    obtain ⟨cw, first, spells⟩ := decodeSymbols_spells (w := w) (g := g) fun p hp => legal p (by omega)
    have next (j : Nat) : g + 72 + 3 * j = g + 3 * (24 + j) := by omega
    obtain ⟨cws, others, len, spell⟩ := ih (g + 72) fun j hj => next j ▸ legal (24 + j) (by omega)
    refine ⟨cw :: cws, ?_, by rw [List.length_cons, len], fun i qw hi => ?_⟩
    · simp only [decodePixels, first, others]
    · cases i with
      | zero =>
        obtain rfl : cw = qw := by simpa using hi
        exact spells
      | succ i =>
        rw [show g + 72 * (i + 1) = g + 72 + 72 * i by omega]
        exact spell i qw (by simpa using hi)

/-- The bad symbol of lowest position is the one reported (R229). -/
theorem decodePixels_of_bad (n g : Nat) {k : Nat} (hk : k < 24 * n)
    (legal : ∀ j < k, symDecOf (symAt w (g + 3 * j)) ≠ none) (bad : symDecOf (symAt w (g + 3 * k)) = none) :
    decodePixels w n g = .error (.badSymbol (symAt w (g + 3 * k)) (some (g + 3 * k))) := by
  induction n generalizing g k with
  | zero => exact absurd hk (Nat.not_lt_zero k)
  | succ n ih =>
    by_cases here : k < 24
    · simp only [decodePixels, decodeSymbols_of_bad 24 g 0#24 here legal bad]
    · obtain ⟨cw, first, -⟩ := decodeSymbols_spells (w := w) (g := g) fun p hp => legal p (by omega)
      have next (j : Nat) : g + 72 + 3 * j = g + 3 * (24 + j) := by omega
      have shift : g + 72 + 3 * (k - 24) = g + 3 * k := by omega
      have rest := ih (g + 72) (k := k - 24) (by omega) (fun j hj => next j ▸ legal (24 + j) (by omega))
        (shift ▸ bad)
      rw [shift] at rest
      simp only [decodePixels, first, rest]

/-! ### The operation -/

theorem exec_decodeFrame (s : State) {n : Nat} (h : 72 * n ≤ 32 * w.length) :
    (∀ cws, decodePixels w n 0 = .ok cws → exec (.decodeFrame w n) s = .next { s with res := .cwords cws }) ∧
    (∀ e, decodePixels w n 0 = .error e → exec (.decodeFrame w n) s = .next (s.raise e)) := by
  refine ⟨fun cws run => ?_, fun e run => ?_⟩
  · simp only [exec, execDecodeFrame, if_pos h, decodeOf, run]
    rfl
  · simp only [exec, execDecodeFrame, if_pos h, decodeOf, run]

/-- The frame of `ENCODE` decodes to its pixels' colour words (R201). -/
theorem decodePixels_encodeOf (cfg : Config) (pixels : List Pixel) (b : Brightness) :
    decodePixels (encodeOf cfg pixels b) pixels.length 0 = .ok (pixels.map fun px => scaledWord cfg px b) := by
  have spelled {i : Nat} {px : Pixel} (h : pixels[i]? = some px) :
      SpellsWord (encodeOf cfg pixels b) (0 + 72 * i) (scaledWord cfg px b) := by
    rw [Nat.zero_add]
    exact spellsWord_of_streamsWord (streamsWord_encodeOf cfg b h)
  obtain ⟨cws, run, len, spell⟩ := decodePixels_of_legal (w := encodeOf cfg pixels b) pixels.length 0 fun j hj => by
    have inside : j / 24 < pixels.length := by omega
    have bit := spelled (List.getElem?_eq_getElem inside) (j % 24) (by omega)
    rw [show 0 + 72 * (j / 24) + 3 * (j % 24) = 0 + 3 * j by omega] at bit
    rw [bit]
    exact Option.some_ne_none _
  rw [run]
  congr 1
  refine List.ext_getElem (by simp [len]) fun i hi hi' => ?_
  have inside : i < pixels.length := by simpa using hi'
  rw [List.getElem_map]
  exact spellsWord_unique (spell i _ (List.getElem?_eq_getElem hi)) (spelled (List.getElem?_eq_getElem inside))

/-! ### The statements -/

/-- Settles O54: the frame returned decodes to the colour words its stream spells. -/
theorem decodingAnEncodedFrameGivesTheColorWords : Obligations.DecodingAnEncodedFrameGivesTheColorWords := by
  intro s pixels b inRange
  have room : 72 * pixels.length ≤ 32 * (encodeOf s.cfg pixels b).length := by
    rw [(encodeOf_spec s.cfg pixels b).1]
    exact frameLenOf_holds pixels.length
  exact ⟨_, _, exec_encodeFrame_of_inRange s pixels inRange, rfl,
    (exec_decodeFrame _ room).1 _ (decodePixels_encodeOf s.cfg pixels b)⟩

/-- Settles O55: legal symbols spell their colour words, and the first bad one is reported. -/
theorem decodeReadsEverySymbolOrReportsTheFirstBad : Obligations.DecodeReadsEverySymbolOrReportsTheFirstBad := by
  intro s w n room
  refine ⟨fun legal => ?_, fun k hk idle legal bad => ?_⟩
  · obtain ⟨cws, run, len, spell⟩ := decodePixels_of_legal (w := w) n 0 (by simpa using legal)
    refine ⟨cws, (exec_decodeFrame s room).1 cws run, len, fun i p cw hi hp => ?_⟩
    have := spell i cw hi p hp
    rwa [Nat.zero_add] at this
  · have run := decodePixels_of_bad (w := w) n 0 hk (by simpa using legal) (by simpa using bad)
    rw [(exec_decodeFrame s room).2 _ run, raise_of_idle s _ idle, Nat.zero_add]

end Sys2Proof.Machine
end

