-- ==== Sys2Proof/Proofs/FormatWords.lean ====
section
/-! The register word formats under any legal layout (R101 to R106): the password's and the divisor's fields lie apart
from the other fields, so each reads back. -/

namespace Sys2Proof.Machine

variable {l : Layout} (p : Byte) (busy enab : Bool) (d : BitVec 12)

/-! ### Where the password lies -/

theorem mem_passPositions {pw : Password} (hp : l.pass = some pw) (k : Nat) :
    k ∈ passPositions l ↔ pw.lsb ≤ k ∧ k < pw.lsb + 8 := by
  simp only [passPositions, hp, List.mem_map, List.mem_range]
  exact ⟨fun ⟨j, _, _⟩ => by omega, fun _ => ⟨k - pw.lsb, by omega, by omega⟩⟩

/-- The password's field holds its bits at its positions and 0 elsewhere (R104). -/
theorem getLsbD_passField_of_mem {pw : Password} (hp : l.pass = some pw) {j : Nat}
    (inWord : pw.lsb + j < 32) : (l.passField p).getLsbD (pw.lsb + j) = p.getLsbD j := by
  simp [Layout.passField, hp, inWord]

theorem getLsbD_passField_of_notMem {k : Nat} (hk : k ∉ passPositions l) : (l.passField p).getLsbD k = false := by
  cases hp : l.pass with
  | none => simp [Layout.passField, hp]
  | some pw =>
    rw [mem_passPositions hp] at hk
    simp only [Layout.passField, hp, BitVec.getLsbD_shiftLeft, BitVec.getLsbD_setWidth]
    by_cases below : k < pw.lsb
    · simp [below]
    · rw [BitVec.getLsbD_of_ge p (k - pw.lsb) (by omega)]
      simp

/-! ### `CMCTLW` -/

theorem getLsbD_cmctlWord (k : Nat) :
    (l.cmctlWord p busy enab).getLsbD k =
      ((l.passField p).getLsbD k || (busy && decide (k = l.cmBusy) && decide (l.cmBusy < 32)) ||
        (enab && decide (k = l.cmEnab) && decide (l.cmEnab < 32))) := by
  rw [Layout.cmctlWord, BitVec.getLsbD_or, BitVec.getLsbD_or, getLsbD_bitWord, getLsbD_bitWord]

/-- The fields of `CMCTL` lie apart and in the word (R104, R105). -/
theorem cmctl_apart (h : layoutOk l = true) :
    l.cmEnab ≠ l.cmBusy ∧ l.cmEnab ∉ passPositions l ∧ l.cmBusy ∉ passPositions l ∧ l.cmEnab < 32 ∧ l.cmBusy < 32 ∧
    ∀ k ∈ passPositions l, k < 32 := by
  obtain ⟨nodup, lt⟩ := layoutOk_cmctl h
  simp only [cmctlPositions, List.nodup_cons, List.mem_cons, not_or, forall_eq_or_imp] at nodup lt
  exact ⟨nodup.1.1, nodup.1.2, nodup.2.1, lt.1, lt.2.1, lt.2.2⟩

theorem cmctlWord_busy (h : layoutOk l = true) : (l.cmctlWord p busy enab).getLsbD l.cmBusy = busy := by
  obtain ⟨ne, -, free, -, lt, -⟩ := cmctl_apart h
  rw [getLsbD_cmctlWord, getLsbD_passField_of_notMem p free]
  simp [lt, Ne.symm ne]

theorem cmctlWord_enab (h : layoutOk l = true) : (l.cmctlWord p busy enab).getLsbD l.cmEnab = enab := by
  obtain ⟨ne, free, -, lt, -, -⟩ := cmctl_apart h
  rw [getLsbD_cmctlWord, getLsbD_passField_of_notMem p free]
  simp [lt, ne]

theorem cmctlWord_pass (h : layoutOk l = true) {pw : Password} (hp : l.pass = some pw) :
    (l.cmctlWord p busy enab).extractLsb' pw.lsb 8 = p := by
  obtain ⟨-, freeEnab, freeBusy, -, -, lt⟩ := cmctl_apart h
  refine BitVec.eq_of_getLsbD_eq fun j hj => ?_
  have mem : pw.lsb + j ∈ passPositions l := (mem_passPositions hp _).2 (by omega)
  have notBusy : pw.lsb + j ≠ l.cmBusy := fun e => freeBusy (e ▸ mem)
  have notEnab : pw.lsb + j ≠ l.cmEnab := fun e => freeEnab (e ▸ mem)
  rw [BitVec.getLsbD_extractLsb', getLsbD_cmctlWord, getLsbD_passField_of_mem p hp (lt _ mem)]
  simp [hj, notBusy, notEnab]

theorem cmctlWord_reserved {k : Nat} (hk : k ∉ cmctlPositions l) : (l.cmctlWord p busy enab).getLsbD k = false := by
  simp only [cmctlPositions, List.mem_cons, not_or] at hk
  obtain ⟨notEnab, notBusy, notPass⟩ := hk
  rw [getLsbD_cmctlWord, getLsbD_passField_of_notMem p notPass]
  simp [notEnab, notBusy]

/-! ### `CMDIVW` -/

/-- The fields of `CMDIV` lie apart and in the word (R104, R106). -/
theorem cmdiv_apart (h : layoutOk l = true) :
    (∀ j < 12, l.diviLsb + j < 32 ∧ l.diviLsb + j ∉ passPositions l) ∧ ∀ k ∈ passPositions l, k < 32 := by
  obtain ⟨nodup, lt⟩ := layoutOk_cmdiv h
  have mem {j : Nat} (hj : j < 12) : l.diviLsb + j ∈ (List.range 12).map (l.diviLsb + ·) :=
    List.mem_map.2 ⟨j, List.mem_range.2 hj, rfl⟩
  refine ⟨fun j hj => ⟨lt _ (List.mem_append_left _ (mem hj)), fun inPass => ?_⟩,
    fun k hk => lt k (List.mem_append_right _ hk)⟩
  exact (List.nodup_append.1 nodup).2.2 _ (mem hj) _ inPass rfl

theorem getLsbD_cmdivWord (k : Nat) :
    (l.cmdivWord p d).getLsbD k =
      ((l.passField p).getLsbD k || (decide (k < 32) && !decide (k < l.diviLsb) && d.getLsbD (k - l.diviLsb))) := by
  rw [Layout.cmdivWord, BitVec.getLsbD_or, BitVec.getLsbD_shiftLeft, BitVec.getLsbD_setWidth]
  by_cases inWord : k < 32
  · have : k - l.diviLsb < 32 := by omega
    simp [inWord, this]
  · simp [inWord]

theorem cmdivWord_divi (h : layoutOk l = true) : (l.cmdivWord p d).extractLsb' l.diviLsb 12 = d := by
  refine BitVec.eq_of_getLsbD_eq fun j hj => ?_
  obtain ⟨inWord, free⟩ := (cmdiv_apart h).1 j hj
  rw [BitVec.getLsbD_extractLsb', getLsbD_cmdivWord, getLsbD_passField_of_notMem p free]
  simp [hj, inWord]

theorem cmdivWord_pass (h : layoutOk l = true) {pw : Password} (hp : l.pass = some pw) :
    (l.cmdivWord p d).extractLsb' pw.lsb 8 = p := by
  obtain ⟨apart, lt⟩ := cmdiv_apart h
  refine BitVec.eq_of_getLsbD_eq fun j hj => ?_
  have mem : pw.lsb + j ∈ passPositions l := (mem_passPositions hp _).2 (by omega)
  rw [BitVec.getLsbD_extractLsb', getLsbD_cmdivWord, getLsbD_passField_of_mem p hp (lt _ mem)]
  by_cases below : pw.lsb + j < l.diviLsb
  · simp [hj, below]
  · have past : ¬ pw.lsb + j - l.diviLsb < 12 := fun inside =>
      (apart _ inside).2 (by rwa [Nat.add_sub_cancel' (by omega)])
    rw [BitVec.getLsbD_of_ge d _ (by omega)]
    simp [hj]

theorem cmdivWord_reserved {k : Nat} (hk : k ∉ cmdivPositions l) : (l.cmdivWord p d).getLsbD k = false := by
  simp only [cmdivPositions, List.mem_append, List.mem_map, List.mem_range, not_or, not_exists, not_and] at hk
  obtain ⟨notDivi, notPass⟩ := hk
  rw [getLsbD_cmdivWord, getLsbD_passField_of_notMem p notPass]
  by_cases below : k < l.diviLsb
  · simp [below]
  · have past : ¬ k - l.diviLsb < 12 := fun inside => notDivi _ inside (by omega)
    rw [BitVec.getLsbD_of_ge d _ (by omega)]
    simp

/-! ### The statement -/

/-- Settles O57: each format's word, field by field. -/
theorem formatWordsHoldTheirFields : Obligations.FormatWordsHoldTheirFields := fun _ h =>
  ⟨fun f => ⟨_, rfl, ctlFields_ctlWord h f, fun _ => ctlWord_reserved f⟩,
    fun f => ⟨_, rfl, staFields_staWord h f, fun _ => staWord_reserved f⟩,
    fun _ => ⟨rfl, rfl, rfl⟩,
    fun p busy enab => ⟨_, rfl, cmctlWord_busy p busy enab h, cmctlWord_enab p busy enab h,
      fun _ => cmctlWord_pass p busy enab h, fun _ => cmctlWord_reserved p busy enab⟩,
    fun p d => ⟨_, rfl, cmdivWord_divi p d h, fun _ => cmdivWord_pass p d h, fun _ => cmdivWord_reserved p d⟩⟩

end Sys2Proof.Machine
end

