-- ==== Sys2Proof/Proofs/HostSequences.lean ====
section
/-! Host operations of several steps (R160 to R171, R210 to R214): how an idle host starts one, and the sequences that
need no agent's step between their turns. -/

namespace Sys2Proof.Machine

variable (s : State) {c : ChanId}

/-! ### Starting a sequence -/

/-- The host about to take the first step of a sequence. -/
def State.starting (s : State) (seq : List Micro) : State := { s with host := { s.host with todo := seq, polls := 0 } }

theorem starting_todo (seq : List Micro) : (s.starting seq).host.todo = seq := rfl

/-- An idle host that issues a sequence has taken its first turn (log entry 13). -/
theorem startSeq_of_idle (idle : s.host.todo = []) (m : Micro) (rest : List Micro) :
    s.startSeq (m :: rest) = (s.starting (m :: rest)).hostTurn := by
  simp only [State.startSeq, State.starting, idle, List.append_nil]

/-- The turns after the issue of a sequence are the turns after its first. -/
theorem hostTurns_startSeq (idle : s.host.todo = []) (m : Micro) (rest : List Micro) (n : Nat) :
    hostTurns n (s.startSeq (m :: rest)) = hostTurns (n + 1) (s.starting (m :: rest)) := by
  rw [startSeq_of_idle s idle, hostTurns_succ]

/-! ### `PUSHWORD` and `PUSHFIFO` -/

theorem exec_pushWord (v : Word) : exec (.pushWord v) s = .next (s.startSeq (pushWordSeq v)) := rfl

theorem exec_pushFifo (words : List Word) : exec (.pushFifo words) s = .next (s.startSeq (pushFifoSeq words)) := rfl

theorem pushFifoSeq_append (ws ws' : List Word) : pushFifoSeq (ws ++ ws') = pushFifoSeq ws ++ pushFifoSeq ws' :=
  List.flatMap_append

/-- A poll that reads not full, and the push after it (R167). -/
theorem turns_pushWord {w : Word} {rest : List Micro} (hl : layoutOk s.cfg.layout = true)
    (h : s.host.todo = .pollFull :: .push w :: rest) (room : s.fifo.length < s.cfg.fifoDepth) :
    s.hostTurn = { s with host := { s.host with todo := .push w :: rest, polls := 0 } } ∧
    s.hostTurn.hostTurn = State.advance { s with fifo := s.fifo ++ [w], lastWr := some .fif } rest := by
  have poll : s.hostTurn = { s with host := { s.host with todo := .push w :: rest, polls := 0 } } :=
    turn_pollFull_room s hl h room
  refine ⟨poll, ?_⟩
  rw [poll, turn_push { s with host := { s.host with todo := .push w :: rest, polls := 0 } } rfl room]
  cases rest <;> rfl

/-- Words that fit, and no step after them: the last push ends the operation (R168). -/
theorem turns_pushFifo_last (ws : List Word) (w : Word) (hl : layoutOk s.cfg.layout = true)
    (h : s.host.todo = pushFifoSeq (ws ++ [w])) (room : s.fifo.length + (ws ++ [w]).length ≤ s.cfg.fifoDepth) :
    hostTurns (2 * (ws ++ [w]).length) s =
      { s with
        fifo := s.fifo ++ (ws ++ [w]), host := { s.host with todo := [], polls := 0 }, res := .done
        lastWr := some .fif } := by
  rw [List.length_append, List.length_singleton] at room ⊢
  have before := turns_pushFifo s ws hl .pollFull (rest := [.push w])
    (by rw [h, pushFifoSeq_append]; rfl) (by omega)
  have last := (turns_pushWord (hostTurns (2 * ws.length) s) (w := w) (rest := []) (by rw [before]; exact hl)
    (by rw [before]) (by rw [before]; simp; omega)).2
  rw [Nat.mul_add, hostTurns_add]
  change (hostTurns (2 * ws.length) s).hostTurn.hostTurn = _
  rw [last, before, advance_nil]
  simp

/-! ### Read-modify-write operations -/

theorem exec_enable (c : ChanId) : exec (.enable c) s = .next (s.startSeq (enableSeq c)) := rfl

theorem exec_disable (c : ChanId) : exec (.disable c) s = .next (s.startSeq (disableSeq c)) := rfl

theorem exec_clearFifo : exec .clearFifo s = .next (s.startSeq clearFifoSeq) := rfl

/-- The host holding the control word it has read, with one step left. -/
def State.heldCtl (s : State) (m : Micro) : State :=
  { s with host := { todo := [m], v := s.readCtl, k := s.host.k, polls := 0 } }

/-- An idle host that issues a read-modify-write of `CTL` holds the word read, and its next turn is the write. -/
theorem startSeq_readCtl (idle : s.host.todo = []) (m : Micro) :
    (s.startSeq [.readCtl, m]).hostTurn = (s.heldCtl m).micro m [] := by
  rw [startSeq_of_idle s idle, (turns_readCtl (s.starting [.readCtl, m]) rfl).2]
  rfl

variable {s}

/-- The lines that must be low are (R44). -/
theorem low_of_inv (h : Inv s) (d : ChanId) (off : (s.chan d).ctl.pwen = false) (pola : (s.chan d).ctl.pola = false) :
    (s.chan d).out = false :=
  (inv_chan h d).off_low off pola

theorem layoutOk_of_inv (h : Inv s) : layoutOk s.cfg.layout = true := by
  have ok := h.cfg_ok
  simp only [configOk, Bool.and_eq_true] at ok
  exact ok.1.2

/-- Enabling a channel keeps its slot and its flag, and its level where it is a Serializer channel or was enabled
already (R122, R169). -/
theorem writeCtlChan_enable (s : State) (c : ChanId) :
    ∃ out fresh, s.writeCtlChan c { (s.chan c).ctl with pwen := true } =
        { s.setChan c { s.chan c with ctl := { (s.chan c).ctl with pwen := true }, out := out } with fresh := fresh } ∧
      ((s.chan c).ctl.mode = .serializer ∨ (s.chan c).ctl.pwen = true → out = (s.chan c).out ∧ fresh = s.fresh) := by
  rw [writeCtlChan_eq]
  generalize after : levelAfter (s.chan c).ctl { (s.chan c).ctl with pwen := true } (s.chan c).out = level
  refine ⟨level.getD (Config.freeLevel s.fresh), if level.isSome then s.fresh else s.fresh + 1, by simp,
    fun keeps => ?_⟩
  have same : level = some (s.chan c).out := by
    rw [← after]
    rcases keeps with ser | on
    · exact levelAfter_serializer rfl ser
    · cases mode : (s.chan c).ctl.mode <;> simp [levelAfter, mode, on]
  simp [same]

/-- Disabling a channel (R122, R170): slot, flag and line, and nothing where it is disabled already. -/
theorem writeCtlChan_disable (h : ChanInv s.cfg (s.chan c)) :
    ∃ pos len out fresh, s.writeCtlChan c { (s.chan c).ctl with pwen := false } =
        { s.setChan c { s.chan c with
            ctl := { (s.chan c).ctl with pwen := false }, pos := pos, len := len, sta := false, out := out } with
          fresh := fresh } ∧
      (s.cfg.disableAborts = true → pos = 0 ∧ len = 0) ∧
      (s.cfg.disableAborts = false → pos = (s.chan c).pos ∧ len = (s.chan c).len) ∧
      ((s.chan c).ctl.pola = false → out = false ∧ fresh = s.fresh) ∧
      ((s.chan c).ctl.pwen = false → pos = (s.chan c).pos ∧ len = (s.chan c).len ∧ out = (s.chan c).out ∧
        fresh = s.fresh ∧ (s.chan c).sta = false) := by
  cases on : (s.chan c).ctl.pwen with
  | false =>
    have same : { (s.chan c).ctl with pwen := false } = (s.chan c).ctl := by rw [← on]
    have quiet := h.off_quiet on
    refine ⟨(s.chan c).pos, (s.chan c).len, (s.chan c).out, s.fresh, ?_, h.off_idle on, fun _ => ⟨rfl, rfl⟩,
      fun pola => ⟨h.off_low on pola, rfl⟩, fun _ => ⟨rfl, rfl, rfl, rfl, quiet⟩⟩
    rw [same, writeCtlChan_same s c h.off_low, ← quiet]
    cases c <;> rfl
  | true =>
    rw [writeCtlChan_eq]
    generalize after : levelAfter (s.chan c).ctl { (s.chan c).ctl with pwen := false } (s.chan c).out = level
    refine ⟨if s.cfg.disableAborts then 0 else (s.chan c).pos, if s.cfg.disableAborts then 0 else (s.chan c).len,
      level.getD (Config.freeLevel s.fresh), if level.isSome then s.fresh else s.fresh + 1, by simp [on],
      fun aborts => by simp [aborts], fun keeps => by simp [keeps], fun pola => ?_, fun off => by cases off⟩
    have low : level = some false := by rw [← after]; exact levelAfter_low rfl pola
    simp [low]

/-! ### `HOLD` and the checks of `PUSHFRAME` -/

theorem exec_hold (s : State) (c : ChanId) (n : Nat) : exec (.hold c n) s = .next (s.startSeq [.awaitTicks c n]) := rfl

theorem exec_pushFrame_of_outside (s : State) (c : ChanId) (pixels : List Pixel) {b : Brightness}
    (h : brtInRange b = false) : exec (.pushFrame c pixels b) s = .next (s.raise (.brightnessRange b)) :=
  if_neg (by simp [h])

theorem exec_pushFrame_too_long (s : State) (c : ChanId) (pixels : List Pixel) {b : Brightness}
    (h : brtInRange b = true) (long : s.cfg.fifoDepth < frameLenOf pixels.length) :
    exec (.pushFrame c pixels b) s = .next (s.raise (.frameTooLong pixels.length (frameLenOf pixels.length))) := by
  have len := (encodeOf_spec s.cfg pixels b).1
  simp only [exec, execPushFrame, if_pos h, len, if_pos long]

/-! ### The statements -/

/-- Settles O30: no channel has the id, and no operation is in hand. -/
theorem configureOfNoChannelIsAUsageError : Obligations.ConfigureOfNoChannelIsAUsageError := by
  intro s id range divisor mode uf not1 not2 idle
  have none : chanOfId id = none := by
    unfold chanOfId
    split
    · exact absurd rfl not1
    · exact absurd rfl not2
    · rfl
  simp only [exec, execConfigure, none]
  rw [raise_of_idle s _ idle]

/-- Settles O32: the poll reads not full, and the next turn pushes. -/
theorem pushWordPushesWhenThereIsRoom : Obligations.PushWordPushesWhenThereIsRoom := by
  intro s v hl idle room
  refine ⟨_, exec_pushWord s v, ?_⟩
  obtain ⟨poll, push⟩ := turns_pushWord (s.starting (pushWordSeq v)) hl rfl room
  rw [pushWordSeq, startSeq_of_idle s idle, ← pushWordSeq, push, poll]
  exact ⟨rfl, rfl, rfl, rfl, rfl⟩

/-- Settles O36: the words but the last, and the last. -/
theorem pushFifoAppendsTheWordsInOrder : Obligations.PushFifoAppendsTheWordsInOrder := by
  intro s words hl idle room
  refine ⟨_, exec_pushFifo s words, fun none => by subst none; rfl, ?_⟩
  rcases List.eq_nil_or_concat' words with rfl | ⟨ws, w, rfl⟩
  · have unchanged : hostTurns (2 * ([] : List Word).length - 1) (s.startSeq (pushFifoSeq [])) = s.answer .done := rfl
    rw [unchanged, List.append_nil]
    exact ⟨rfl, idle, rfl, rfl⟩
  · have turns : hostTurns (2 * (ws ++ [w]).length - 1) (s.startSeq (pushFifoSeq (ws ++ [w]))) =
        hostTurns (2 * (ws ++ [w]).length) (s.starting (pushFifoSeq (ws ++ [w]))) := by
      have cons : pushFifoSeq (ws ++ [w]) ≠ [] := by cases ws <;> simp [pushFifoSeq, pushWordSeq]
      obtain ⟨m, rest, seq⟩ := List.exists_cons_of_ne_nil cons
      rw [seq, hostTurns_startSeq s idle, Nat.sub_add_cancel (by simp; omega)]
    rw [turns, turns_pushFifo_last (s.starting (pushFifoSeq (ws ++ [w]))) ws w hl rfl room]
    exact ⟨rfl, rfl, rfl, rfl⟩

/-- Settles O37: the write of `ENABLE` reaches one channel, whose place in `TX` it marks. -/
theorem enableSetsTheEnableBitOnly : Obligations.EnableSetsTheEnableBitOnly := by
  intro s c inv idle x
  let held := s.heldCtl (.setPwen c)
  have invHeld : Inv held := inv_withHost inv _
  obtain ⟨out, fresh, chan, keeps⟩ := writeCtlChan_enable held c
  have write := writeCtl_setPwen held (c := c) (layoutOk_of_inv invHeld) rfl (low_of_inv invHeld (otherChan c))
  have turn : (s.startSeq (enableSeq c)).hostTurn =
      (({ held.writeCtlChan c { (held.chan c).ctl with pwen := true } with lastWr := some .ctl } : State).markEnable
        c).advance [] := by
    rw [← write]; exact startSeq_readCtl s idle _
  rw [chan] at turn
  refine ⟨_, out, fresh, exec_enable s c, ?_, ?_, keeps⟩
  all_goals
    rw [turn]
    cases c <;> rfl

/-- Settles O38: the write of `DISABLE` reaches one channel. -/
theorem disableIdlesTheChannel : Obligations.DisableIdlesTheChannel := by
  intro s c inv idle x
  let held := s.heldCtl (.clearPwen c)
  have invHeld : Inv held := inv_withHost inv _
  obtain ⟨pos, len, out, fresh, chan, aborted, kept, low, off⟩ := writeCtlChan_disable (inv_chan invHeld c)
  have write := writeCtl_clearPwen held (c := c) (layoutOk_of_inv invHeld) rfl (low_of_inv invHeld (otherChan c))
  have turn : (s.startSeq (disableSeq c)).hostTurn =
      ({ held.writeCtlChan c { (held.chan c).ctl with pwen := false } with lastWr := some .ctl } : State).advance
        [] := by
    rw [← write]; exact startSeq_readCtl s idle _
  rw [chan] at turn
  refine ⟨_, pos, len, out, fresh, exec_disable s c, ?_, ?_, aborted, kept, low, off⟩
  all_goals
    rw [turn]
    cases c <;> rfl

/-- Settles O39: the write of `CLEARFIFO` leaves every channel as it is. -/
theorem clearFifoEmptiesTheFifoOnly : Obligations.ClearFifoEmptiesTheFifoOnly := by
  intro s inv idle
  let held := s.heldCtl .setClrf
  have invHeld : Inv held := inv_withHost inv _
  have write := writeCtl_setClrf held (layoutOk_of_inv invHeld) rfl (low_of_inv invHeld)
  have turn : (s.startSeq clearFifoSeq).hostTurn = ({ held with fifo := [], lastWr := some .ctl } : State).advance [] := by
    rw [← write]; exact startSeq_readCtl s idle _
  refine ⟨_, exec_clearFifo s, ?_, ?_⟩ <;> rw [turn] <;> rfl

/-- Settles O58: the two checks in their order. -/
theorem pushFrameChecksBeforeItWrites : Obligations.PushFrameChecksBeforeItWrites := by
  intro s c pixels b idle
  refine ⟨fun outside => ?_, fun inRange long => ?_⟩
  · rw [exec_pushFrame_of_outside s c pixels outside, raise_of_idle s _ idle]
  · rw [exec_pushFrame_too_long s c pixels inRange long, raise_of_idle s _ idle]

/-- Settles O60: one look at the number of ticks. -/
theorem holdWaitsForItsTicks : Obligations.HoldWaitsForItsTicks := by
  intro s c n idle emitted
  have look : s.startSeq [.awaitTicks c n] =
      if n ≤ emitted then (s.starting [.awaitTicks c n]).advance [] else s.starting [.awaitTicks c n] := by
    rw [startSeq_of_idle s idle, turn_awaitTicks (s.starting [.awaitTicks c n]) rfl]
    rfl
  refine ⟨fun enough => ⟨_, exec_hold s c n, ?_⟩, fun few => ⟨_, exec_hold s c n, ?_⟩, rfl⟩
  · rw [look, if_pos enough]
    exact ⟨rfl, rfl, rfl⟩
  · rw [look, if_neg (by omega)]
    refine ⟨by simp [State.starting], rfl, ?_⟩
    rw [turn_awaitTicks (s.starting [.awaitTicks c n]) rfl]
    exact if_neg (by show ¬ n ≤ emitted; omega)

end Sys2Proof.Machine
end

