-- ==== Sys2Proof/Proofs/Configure.lean ====
section
/-! `CONFIGURE` turn by turn (R160, R161): what each of its register transactions leaves, the run up to the poll of the
clock manager, and the run after it has settled. -/

namespace Sys2Proof.Machine

variable {s : State} {c : ChanId} {rest : List Micro}

/-! ### The control word written, whatever the lines' levels -/

/-- `q` is `s` with the control fields of each channel rewritten to `now`: slot, transmitting flag and level may
follow, and the count of free values; nothing else differs. -/
structure Rewritten (s q : State) (now : ChanId → CtlChan) : Prop where
  frame : q = { s with ch1 := q.ch1, ch2 := q.ch2, fresh := q.fresh }
  chan : ∀ d, ∃ n, q.chan d = (s.chan d).afterCtl s.cfg.disableAborts (now d) n

namespace Rewritten

variable {q : State} {now : ChanId → CtlChan}

theorem ctl (h : Rewritten s q now) (d : ChanId) : (q.chan d).ctl = now d := by
  obtain ⟨n, e⟩ := h.chan d
  rw [e, Chan.afterCtl]

theorem rng (h : Rewritten s q now) (d : ChanId) : (q.chan d).rng = (s.chan d).rng := by
  obtain ⟨n, e⟩ := h.chan d
  rw [e, Chan.afterCtl]

/-- What of a channel no write of the control word reaches. -/
theorem kept (h : Rewritten s q now) (d : ChanId) :
    (q.chan d).dat = (s.chan d).dat ∧ (q.chan d).tx = (s.chan d).tx ∧ (q.chan d).gapo = (s.chan d).gapo := by
  obtain ⟨n, e⟩ := h.chan d
  rw [e, Chan.afterCtl]
  exact ⟨rfl, rfl, rfl⟩

theorem cfg (h : Rewritten s q now) : q.cfg = s.cfg := by rw [h.frame]

theorem cm (h : Rewritten s q now) : q.cm = s.cm := by rw [h.frame]

/-- What of the machine no write of the control word without its clear bit reaches. -/
theorem flags (h : Rewritten s q now) :
    q.fifo = s.fifo ∧ q.berr = s.berr ∧ q.werr = s.werr ∧ q.rerr = s.rerr ∧ q.run = s.run := by
  rw [h.frame]
  exact ⟨rfl, rfl, rfl, rfl, rfl⟩

/-- Where the host stands and which register was written last have no part in it. -/
theorem erase {host : HostSeq} {last : Option Reg} (h : Rewritten { s with host := host, lastWr := last } q now) :
    Rewritten s { q with host := s.host, lastWr := s.lastWr } now := by
  refine ⟨?_, h.chan⟩
  have frame := h.frame
  generalize q.ch1 = x1, q.ch2 = x2, q.fresh = n at frame ⊢
  rw [frame]

end Rewritten

/-- A write of the control word whose clear bit is 0 rewrites the channels' control fields. -/
theorem writeCtl_rewrites {v : Word} {now : ChanId → CtlChan}
    (fields : ∀ d, chanFields (s.cfg.layout.ctlFields v) d = now d) (clrf : (s.cfg.layout.ctlFields v).clrf = false) :
    ∃ q, Rewritten s q now ∧ s.writeCtl v = { q with lastWr := some .ctl } := by
  refine ⟨{ s.writeCtl v with lastWr := s.lastWr }, ⟨?_, fun d => ?_⟩, ?_⟩
  · have noClear : v.getLsbD s.cfg.layout.clrf = false := clrf
    have fifo : (s.writeCtl v).fifo = s.fifo := by rw [writeCtl_fifo, noClear]; rfl
    rw [writeCtl_frame s v, fifo]
  · rw [chan_lastWr, ← fields d, ← fields_eq_chanFields]
    exact writeCtl_chan s d v
  · rw [writeCtl_frame s v]

/-- The control fields with the channel's `PWEN` at `b`. -/
def withPwen (s : State) (c : ChanId) (b : Bool) (d : ChanId) : CtlChan :=
  if d = c then { (s.chan d).ctl with pwen := b } else (s.chan d).ctl

/-- The control fields with the channel's mode and FIFO use as step 4 of `CONFIGURE` writes them. -/
def withMode (s : State) (c : ChanId) (mode : Mode) (uf : Bool) (d : ChanId) : CtlChan :=
  if d = c then { (s.chan d).ctl with mode := mode, usef := if mode = .serializer then true else uf }
  else (s.chan d).ctl

theorem withPwen_self (s : State) (c : ChanId) (b : Bool) : withPwen s c b c = { (s.chan c).ctl with pwen := b } :=
  if_pos rfl

theorem withPwen_other (s : State) (c : ChanId) (b : Bool) :
    withPwen s c b (otherChan c) = (s.chan (otherChan c)).ctl := if_neg (otherChan_ne c)

theorem withMode_self (s : State) (c : ChanId) (mode : Mode) (uf : Bool) : withMode s c mode uf c =
    { (s.chan c).ctl with mode := mode, usef := if mode = .serializer then true else uf } := if_pos rfl

theorem withMode_other (s : State) (c : ChanId) (mode : Mode) (uf : Bool) :
    withMode s c mode uf (otherChan c) = (s.chan (otherChan c)).ctl := if_neg (otherChan_ne c)

section Held

variable (hl : layoutOk s.cfg.layout = true) (hv : s.host.v = s.readCtl)
include hl hv

theorem chanFields_held (d : ChanId) : chanFields (s.cfg.layout.ctlFields s.host.v) d = (s.chan d).ctl := by
  rw [hv, ctlFields_readCtl s hl, chanFields_ctlFields]

theorem clrf_held : (s.cfg.layout.ctlFields s.host.v).clrf = false := by
  rw [hv, ctlFields_readCtl s hl]
  rfl

/-- The turn that disables a channel, by a host that holds the control word (R160, R170). -/
theorem turn_clearPwen (h : s.host.todo = .clearPwen c :: rest) :
    ∃ q, Rewritten s q (withPwen s c false) ∧ s.hostTurn = State.advance { q with lastWr := some .ctl } rest := by
  obtain ⟨q, rewritten, write⟩ := writeCtl_rewrites (s := s) (now := withPwen s c false)
    (fun d => by rw [chanFields_and_pwen c hl, chanFields_held hl hv]; rfl)
    ((clrf_and_pwen c hl _).trans (clrf_held hl hv))
  exact ⟨q, rewritten, (hostTurn_cons s h).trans (by simp only [State.micro, write])⟩

/-- The turn that writes the mode, by a host that holds the control word (R160). -/
theorem turn_setMode {mode : Mode} {uf : Bool} (h : s.host.todo = .setMode c mode uf :: rest) :
    ∃ q, Rewritten s q (withMode s c mode uf) ∧ s.hostTurn = State.advance { q with lastWr := some .ctl } rest := by
  obtain ⟨q, rewritten, write⟩ := writeCtl_rewrites (s := s) (now := withMode s c mode uf)
    (fun d => by rw [chanFields_modeWord c hl, chanFields_held hl hv]; rfl)
    ((clrf_modeWord c hl mode uf _).trans (clrf_held hl hv))
  exact ⟨q, rewritten, (hostTurn_cons s h).trans (by simp only [State.micro, write])⟩

end Held

/-! ### The clock manager's writes, the range and the bus-error flag -/

theorem turn_stopClock (hl : layoutOk s.cfg.layout = true) (h : s.host.todo = .stopClock :: rest) :
    s.hostTurn =
      State.advance { s with cm := { s.cm with enab := false, busy := true }, lastWr := some .cmctl } rest := by
  rw [hostTurn_cons s h, State.micro, (writeCmctl_fields s hl _).1]

theorem turn_writeDivisor {d : Nat} (hl : layoutOk s.cfg.layout = true) (h : s.host.todo = .writeDivisor d :: rest) :
    s.hostTurn =
      State.advance { s with cm := { s.cm with divi := BitVec.ofNat 12 d, busy := true }, lastWr := some .cmdiv }
        rest := by
  rw [hostTurn_cons s h, State.micro, writeCmdiv_divisor s hl]

theorem turn_startClock (hl : layoutOk s.cfg.layout = true) (h : s.host.todo = .startClock :: rest) :
    s.hostTurn =
      State.advance { s with cm := { s.cm with enab := true, busy := true }, lastWr := some .cmctl } rest := by
  rw [hostTurn_cons s h, State.micro, (writeCmctl_fields s hl _).2]

theorem turn_writeRange {range : Word} (h : s.host.todo = .writeRange c range :: rest) :
    s.hostTurn = State.advance
      { s.setChan c { s.chan c with rng := range } with lastWr := some (.rng c) } rest := hostTurn_cons s h

/-- A write of the range reaches no other element of a channel (R126). -/
theorem setRange_kept (s : State) (c : ChanId) (range : Word) (d : ChanId) :
    let r := s.setChan c { s.chan c with rng := range }
    (r.chan d).ctl = (s.chan d).ctl ∧ (r.chan d).dat = (s.chan d).dat ∧ (r.chan d).tx = (s.chan d).tx ∧
    (r.chan d).gapo = (s.chan d).gapo := by
  intro r
  rcases eq_or_eq_other c d with rfl | rfl
  · rw [chan_setChan_self]; exact ⟨rfl, rfl, rfl, rfl⟩
  · rw [chan_setChan_other]; exact ⟨rfl, rfl, rfl, rfl⟩

theorem turn_clearBerr (hl : layoutOk s.cfg.layout = true) (h : s.host.todo = .clearBerr :: rest) :
    s.hostTurn = State.advance { s with berr := false, lastWr := some .sta } rest := by
  rw [hostTurn_cons s h, State.micro, writeSta_berr s hl]

/-! ### The two runs -/

/-- What is left of `CONFIGURE` when its clock has been restarted. -/
def afterRestart (c : ChanId) (range : Word) (mode : Mode) (uf : Bool) : List Micro :=
  [.pollClk, .writeRange c range, .readCtl, .setMode c mode uf, .clearBerr, .pollBerr]

/-- Six turns bring `CONFIGURE` to its poll of the clock manager: the channel disabled after two, the clock stopped
after four, divided after five, restarted after six (R160, R161). -/
theorem turns_toRestart {range : Word} {divisor : Nat} {mode : Mode} {uf : Bool} (hl : layoutOk s.cfg.layout = true)
    (h : s.host.todo = configureSeq c range divisor mode uf) :
    ∃ q h2 h4 h5 v k, Rewritten s q (withPwen s c false) ∧
      hostTurns 2 s = { q with lastWr := some .ctl, host := h2 } ∧
      hostTurns 4 s = { q with
        cm := { s.cm with enab := false, busy := true }, lastWr := some .cmctl, host := h4 } ∧
      hostTurns 5 s = { q with
        cm := { enab := false, busy := true, divi := BitVec.ofNat 12 divisor }, lastWr := some .cmdiv, host := h5 } ∧
      hostTurns 6 s = { q with
        cm := { enab := true, busy := true, divi := BitVec.ofNat 12 divisor }, lastWr := some .cmctl
        host := { todo := afterRestart c range mode uf, v := v, k := k, polls := 0 } } := by
  let tail := .writeDivisor divisor :: .startClock :: afterRestart c range mode uf
  let s1 : State := { s with
    host := { todo := .clearPwen c :: .readCmctl :: .stopClock :: tail, v := s.readCtl, k := s.host.k, polls := 0 } }
  obtain ⟨q, rewritten, disable⟩ := turn_clearPwen (s := s1) (c := c) hl rfl rfl
  have hq : layoutOk q.cfg.layout = true := rewritten.cfg ▸ hl
  have cm : q.cm = s.cm := rewritten.cm
  let s2 := State.advance { q with lastWr := some .ctl } (.readCmctl :: .stopClock :: tail)
  let s3 := State.advance { s2 with host := { s2.host with k := s2.readCmctl } } (.stopClock :: tail)
  let s4 := State.advance { s3 with cm := { s3.cm with enab := false, busy := true }, lastWr := some .cmctl } tail
  let s5 := State.advance { s4 with cm := { s4.cm with divi := BitVec.ofNat 12 divisor, busy := true }, lastWr := some .cmdiv }
    (.startClock :: afterRestart c range mode uf)
  let s6 := State.advance { s5 with cm := { s5.cm with enab := true, busy := true }, lastWr := some .cmctl }
    (afterRestart c range mode uf)
  have e1 : s.hostTurn = s1 := (turns_readCtl s h).1
  have e2 : hostTurns 2 s = s2 := by rw [hostTurns_succ, e1]; exact disable
  have e4 : hostTurns 4 s = s4 := by
    rw [hostTurns_add s 2 2, e2]
    exact (congrArg State.hostTurn (turn_readCmctl s2 rfl)).trans (turn_stopClock (s := s3) hq rfl)
  have e5 : hostTurns 5 s = s5 := by rw [hostTurns_add s 4 1, e4]; exact turn_writeDivisor (s := s4) hq rfl
  have e6 : hostTurns 6 s = s6 := by rw [hostTurns_add s 5 1, e5]; exact turn_startClock (s := s5) hq rfl
  refine ⟨{ q with host := s.host, lastWr := s.lastWr }, s2.host, s4.host, s5.host, s6.host.v, s6.host.k, rewritten.erase, e2, ?_, e5, e6⟩
  rw [e4, ← cm]
  rfl

/-- From the settled clock, six turns bring `CONFIGURE` to its end: the range written after two, the mode after four,
the bus-error flag cleared after five (R160, R161). -/
theorem turns_afterSettle {range : Word} {mode : Mode} {uf : Bool} (hl : layoutOk s.cfg.layout = true)
    (h : s.host.todo = afterRestart c range mode uf) (settled : s.cm.busy = false) :
    let r := s.setChan c { s.chan c with rng := range }
    ∃ q h2 h4 h5 h6, Rewritten r q (withMode r c mode uf) ∧ h6.todo = [] ∧
      hostTurns 2 s = { r with lastWr := some (.rng c), host := h2 } ∧
      hostTurns 4 s = { q with lastWr := some .ctl, host := h4 } ∧
      hostTurns 5 s = { q with berr := false, lastWr := some .sta, host := h5 } ∧
      hostTurns 6 s = { q with berr := false, lastWr := some .sta, res := .done, host := h6 } := by
  intro r
  let s1 := s.advance (.writeRange c range :: .readCtl :: .setMode c mode uf :: [.clearBerr, .pollBerr])
  let s2 := State.advance { s1.setChan c { s1.chan c with rng := range } with lastWr := some (.rng c) }
    (.readCtl :: .setMode c mode uf :: [.clearBerr, .pollBerr])
  have e2 : hostTurns 2 s = s2 :=
    (congrArg State.hostTurn (turn_pollClk s hl h settled)).trans (turn_writeRange (s := s1) rfl)
  have cfg : s2.cfg = s.cfg := setChan_cfg s1 c _
  have h2 : layoutOk s2.cfg.layout = true := cfg ▸ hl
  let s3 : State := { s2 with
    host := { todo := [.setMode c mode uf, .clearBerr, .pollBerr], v := s2.readCtl, k := s2.host.k, polls := 0 } }
  obtain ⟨q, rewritten, setMode⟩ := turn_setMode (s := s3) (c := c) h2 rfl rfl
  have hq : layoutOk q.cfg.layout = true := rewritten.cfg ▸ h2
  let s4 := State.advance { q with lastWr := some .ctl } [.clearBerr, .pollBerr]
  let s5 := State.advance { s4 with berr := false, lastWr := some .sta } [.pollBerr]
  have e4 : hostTurns 4 s = s4 := by
    rw [hostTurns_add s 2 2, e2]
    exact (congrArg State.hostTurn (turns_readCtl s2 rfl).1).trans setMode
  have e5 : hostTurns 5 s = s5 := by rw [hostTurns_add s 4 1, e4]; exact turn_clearBerr (s := s4) hq rfl
  have e6 : hostTurns 6 s = s5.advance [] := by rw [hostTurns_add s 5 1, e5]; exact turn_pollBerr s5 hq rfl rfl
  have s2_eq : s2 = { r with lastWr := some (.rng c), host := s2.host } := by cases c <;> rfl
  have fromRange : Rewritten { r with host := s3.host, lastWr := some (.rng c) } q (withMode r c mode uf) := by
    cases c <;> exact rewritten
  refine ⟨{ q with host := r.host, lastWr := r.lastWr }, s2.host, s4.host, s5.host, (s5.advance []).host, fromRange.erase,
    rfl, e2.trans s2_eq, e4, e5, e6⟩

/-! ### The operation -/

theorem exec_configure {id : Nat} {range : Word} {divisor : Nat} {mode : Mode} {uf : Bool} (hc : chanOfId id = some c)
    (idle : s.host.todo = []) :
    ∃ t, exec (.configure id range divisor mode uf) s = .next t ∧
      ∀ n, hostTurns n t = hostTurns (n + 1) (s.starting (configureSeq c range divisor mode uf)) := by
  refine ⟨s.startSeq (configureSeq c range divisor mode uf), ?_, fun n => hostTurns_startSeq s idle _ _ n⟩
  simp only [exec, execConfigure, hc]

/-- `CONFIGURE` of a channel, issued by an idle host, up to its poll of the clock manager. -/
theorem configure_toRestart {id : Nat} {range : Word} {divisor : Nat} {mode : Mode} {uf : Bool}
    (hl : layoutOk s.cfg.layout = true) (hc : chanOfId id = some c) (idle : s.host.todo = []) :
    ∃ t q h1 h3 h4 v k, exec (.configure id range divisor mode uf) s = .next t ∧ Rewritten s q (withPwen s c false) ∧
      hostTurns 1 t = { q with lastWr := some .ctl, host := h1 } ∧
      hostTurns 3 t = { q with
        cm := { s.cm with enab := false, busy := true }, lastWr := some .cmctl, host := h3 } ∧
      hostTurns 4 t = { q with
        cm := { enab := false, busy := true, divi := BitVec.ofNat 12 divisor }, lastWr := some .cmdiv, host := h4 } ∧
      hostTurns 5 t = { q with
        cm := { enab := true, busy := true, divi := BitVec.ofNat 12 divisor }, lastWr := some .cmctl
        host := { todo := afterRestart c range mode uf, v := v, k := k, polls := 0 } } := by
  obtain ⟨t, issued, turns⟩ := exec_configure (range := range) (divisor := divisor) (mode := mode) (uf := uf) hc idle
  obtain ⟨q, h1, h3, h4, v, k, rewritten, e1, e3, e4, e5⟩ :=
    turns_toRestart (s := s.starting (configureSeq c range divisor mode uf)) hl rfl
  have fromIdle : Rewritten s { q with host := s.host, lastWr := s.lastWr } (withPwen s c false) := rewritten.erase
  exact ⟨t, _, h1, h3, h4, v, k, issued, fromIdle, (turns 1).trans e1, (turns 3).trans e3, (turns 4).trans e4,
    (turns 5).trans e5⟩

/-- Settles O31: the run to the poll of the clock manager, and the run from the settled clock to the end. -/
theorem configureRunsItsFiveSteps : Obligations.ConfigureRunsItsFiveSteps := by
  intro s c id range divisor mode uf hl hc idle
  obtain ⟨t, q, h1, h3, h4, v, k, issued, off, e1, e3, e4, e5⟩ :=
    configure_toRestart (range := range) (divisor := divisor) (mode := mode) (uf := uf) hl hc idle
  let w : State := { q with
    cm := { enab := true, busy := false, divi := BitVec.ofNat 12 divisor }, lastWr := some .cmctl
    host := { todo := afterRestart c range mode uf, v := v, k := k, polls := 0 } }
  let r := w.setChan c { w.chan c with rng := range }
  have hw : layoutOk w.cfg.layout = true := off.cfg ▸ hl
  obtain ⟨q', h2, h4', h5, h6, on, done, f2, f4, f5, f6⟩ := turns_afterSettle (s := w) (c := c) hw rfl rfl
  obtain ⟨fifo, berr, werr, rerr, run⟩ := off.flags
  obtain ⟨fifo', berr', werr', rerr', run'⟩ := on.flags
  have offSelf : (q.chan c).ctl = { (s.chan c).ctl with pwen := false } := (off.ctl c).trans (withPwen_self s c false)
  have ranged (d : ChanId) := setRange_kept w c range d
  have rRest : r.cm = w.cm ∧ r.fifo = q.fifo ∧ r.berr = q.berr ∧ r.werr = q.werr ∧ r.rerr = q.rerr ∧ r.run = q.run :=
    ⟨setChan_cm .., setChan_fifo .., setChan_berr .., setChan_werr .., setChan_rerr .., setChan_run ..⟩
  obtain ⟨rCm, rFifo, rBerr, rWerr, rRerr, rRun⟩ := rRest
  have onSelf : (q'.chan c).ctl = { (s.chan c).ctl with
      pwen := false, mode := mode, usef := if mode = .serializer then true else uf } := by
    rw [on.ctl c, withMode_self, (ranged c).1, show (w.chan c).ctl = _ from offSelf]
  have range' : (q'.chan c).rng = range := (on.rng c).trans (congrArg Chan.rng (chan_setChan_self w c _))
  refine ⟨t, hostTurns 5 t, w, issued, ?_, ?_, ?_, ?_, ?_, ?_, rfl, ?_, ?_, ?_, ?_, ?_, ?_, ?_, ?_, ?_, ?_, ?_, ?_⟩
  · rw [e1]; exact offSelf
  · rw [e1]; exact off.rng c
  · rw [e1]; exact off.cm
  · rw [e1]; exact berr
  · rw [e3]
  · rw [e4]
  · rw [e5]
  · rw [e5]; exact off.rng c
  · rw [e5]; exact offSelf
  · rw [e5]; exact berr
  · rw [e5]; rfl
  · rw [f2]; exact congrArg Chan.rng (chan_setChan_self w c _)
  · rw [f2]; exact (ranged c).1.trans offSelf
  · rw [f2]; exact rBerr.trans berr
  · rw [f4]; exact onSelf
  · rw [f4]; exact berr'.trans (rBerr.trans berr)
  · rw [f5]
  · rw [f6]
    refine ⟨done, rfl, on.cm.trans rCm, range', onSelf, ?_, ?_, rfl, werr'.trans (rWerr.trans werr),
      rerr'.trans (rRerr.trans rerr), fifo'.trans (rFifo.trans fifo), run'.trans (rRun.trans run), fun d => ?_⟩
    · exact ((on.ctl _).trans (withMode_other ..)).trans
        ((ranged _).1.trans ((off.ctl _).trans (withPwen_other s c false)))
    · exact (on.rng _).trans ((congrArg Chan.rng (chan_setChan_other w c _)).trans (off.rng _))
    · obtain ⟨dat, tx, gapo⟩ := off.kept d
      obtain ⟨-, rDat, rTx, rGapo⟩ := ranged d
      obtain ⟨dat', tx', gapo'⟩ := on.kept d
      exact ⟨dat'.trans (rDat.trans dat), tx'.trans (rTx.trans tx), gapo'.trans (rGapo.trans gapo)⟩

end Sys2Proof.Machine
end

