-- ==== Sys2Proof/Proofs/HostPolls.lean ====
section
/-! The three polls (R76, R167, R226, R263): what agents' steps leave of a waiting host, the wait without a limit, and the
wait that its limit ends. -/

namespace Sys2Proof.Machine

variable {s t : State} {p : Poll} {rest : List Micro}

/-! ### Agents' steps -/

theorem agent_cases {i : Instr} (h : i.agent ≠ .host) : (∃ c, i = .serTick c) ∨ i = .cmSettle ∨ i = .busErr := by
  cases i with
  | serTick c => exact .inl ⟨c, rfl⟩
  | cmSettle => exact .inr (.inl rfl)
  | busErr => exact .inr (.inr rfl)
  | _ => exact absurd rfl h

theorem busErr_cases (e : exec .busErr s = .next t) : t = { s with berr := true } ∨ t = s := by
  rw [exec_busErr] at e
  split at e <;> cases e
  · exact .inl rfl
  · exact .inr rfl

/-- What every step of an agent keeps, a run of agents' steps keeps. -/
theorem execAll_keeps {P : State → Prop} (step : ∀ s i t, P s → i.agent ≠ .host → exec i s = .next t → P t)
    {is : List Instr} (his : ∀ i ∈ is, i.agent ≠ .host) (hs : P s) (e : execAll is s = .next t) : P t := by
  induction is generalizing s with
  | nil => cases e; exact hs
  | cons i is ih =>
    simp only [execAll] at e
    cases hi : exec i s with
    | next u =>
      rw [hi] at e
      exact ih (fun j hj => his j (by simp [hj])) (step s i u hs (his i (by simp)) hi) e
    | fault f => cases f
    | refused r => simp [hi] at e

/-- A tick takes at most the head of the FIFO (R138). -/
theorem serTick_fifo {c : ChanId} (e : exec (.serTick c) s = .next t) : ∃ k, t.fifo = s.fifo.drop k := by
  rcases serTick_cases e with rfl | ⟨-, rfl⟩ | ⟨-, tick⟩
  · exact ⟨0, rfl⟩
  · exact ⟨0, setChan_fifo ..⟩
  · rcases tick_cases s c tick with ⟨-, rfl⟩ | ⟨-, -, rfl⟩ | ⟨-, -, v, rest, source, rfl⟩ | ⟨-, -, v, -, rfl⟩ | ⟨-, -, -, rfl⟩
    · exact ⟨0, setChan_fifo ..⟩
    · exact ⟨0, setChan_fifo ..⟩
    · exact ⟨1, by rw [wordSource_fifo source]; rfl⟩
    · exact ⟨0, setChan_fifo ..⟩
    · exact ⟨0, setChan_fifo ..⟩

/-- An agent's step leaves the host, the parameters and `WERR`, and takes at most words from the FIFO. -/
theorem agent_frame {i : Instr} (h : i.agent ≠ .host) (e : exec i s = .next t) :
    t.host = s.host ∧ t.cfg = s.cfg ∧ t.werr = s.werr ∧ ∃ k, t.fifo = s.fifo.drop k := by
  rcases agent_cases h with ⟨c, rfl⟩ | rfl | rfl
  · obtain ⟨cfg, host, werr, -⟩ := serTick_frame s c e
    exact ⟨host, cfg, werr, serTick_fifo e⟩
  · cases e; exact ⟨rfl, rfl, rfl, 0, rfl⟩
  · rcases busErr_cases e with rfl | rfl <;> exact ⟨rfl, rfl, rfl, 0, rfl⟩

/-! ### The wait without a limit -/

/-- A poll that reads the wrong value and has no limit leaves everything as it is (R226). -/
theorem turn_poll_unlimited (hl : layoutOk s.cfg.layout = true) (h : s.host.todo = pollMicro p :: rest)
    (wrong : s.pollWrong p = true) (unlimited : pollLimit s.cfg p = none) : s.hostTurn = s := by
  rw [turn_poll_wrong s hl h wrong]
  simp [State.pollOnce, unlimited]

/-- What a state keeps while the host waits for poll `p`: the host's place, the wrong value and, for the poll of
`STA.FULL`, the FIFO and which channels drain it. -/
structure StillWaiting (p : Poll) (s t : State) : Prop where
  host : t.host = s.host
  cfg : t.cfg = s.cfg
  werr : t.werr = s.werr
  wrong : t.pollWrong p = true
  full : p = .full → t.fifo = s.fifo ∧ ∀ c, s.drains c = false → t.drains c = false

/-- A move that can end the wait for the clock or for room: settling, or a tick that takes a word. -/
def MayBring (p : Poll) (s : State) (m : Move) : Prop :=
  (p = .clk ∧ m = .settle) ∨ (p = .full ∧ ∃ c, m = .tick c ∧ s.drains c = true)

/-- A channel drains the FIFO by its control fields and the clock alone. -/
theorem drains_congr {c : ChanId} (ctl : (t.chan c).ctl = (s.chan c).ctl) (clock : t.clockRuns = s.clockRuns) :
    t.drains c = s.drains c := by
  simp [State.drains, ctl, clock]

theorem drains_serTick {c : ChanId} (e : exec (.serTick c) s = .next t) (d : ChanId) : t.drains d = s.drains d := by
  obtain ⟨-, -, -, -, cm, other, ctl, -⟩ := serTick_frame s c e
  have clock : t.clockRuns = s.clockRuns := by simp [State.clockRuns, cm]
  rcases eq_or_eq_other c d with rfl | rfl
  · exact drains_congr ctl clock
  · exact drains_congr (by rw [other]) clock

/-- The value a poll waits for depends on the clock's busy flag, the bus-error flag, or the FIFO. -/
theorem pollWrong_congr (cfg : t.cfg = s.cfg) (cm : t.cm = s.cm) (berr : t.berr = s.berr)
    (fifo : p = .full → t.fifo = s.fifo) : t.pollWrong p = s.pollWrong p := by
  cases p
  · simp [State.pollWrong, cm]
  · simp [State.pollWrong, berr]
  · simp [State.pollWrong, cfg, fifo rfl]

/-- A move that cannot bring the value leaves the host waiting. -/
theorem stillWaiting_move {u : State} {m : Move} (hl : layoutOk s.cfg.layout = true)
    (unlimited : pollLimit s.cfg p = none) (todo : s.host.todo = pollMicro p :: rest) (h : StillWaiting p s t)
    (hm : ¬ MayBring p s m) (e : m.take t = .next u) : StillWaiting p s u := by
  obtain ⟨host, cfg, werr, wrong, full⟩ := h
  cases m with
  | host =>
    have same : t.hostTurn = t :=
      turn_poll_unlimited (by rw [cfg]; exact hl) (by rw [host]; exact todo) wrong (by rw [cfg]; exact unlimited)
    cases e
    rw [same]
    exact ⟨host, cfg, werr, wrong, full⟩
  | tick c =>
    obtain ⟨cfg', host', werr', berr', cm', -, -, fifo'⟩ := serTick_frame t c e
    have keeps : p = .full → u.fifo = t.fifo := fun isFull => by
      refine fifo' ((full isFull).2 c ?_)
      rw [← Bool.not_eq_true]
      exact fun drains => hm (.inr ⟨isFull, c, rfl, drains⟩)
    refine ⟨host'.trans host, cfg'.trans cfg, werr'.trans werr, (pollWrong_congr cfg' cm' berr' keeps).trans wrong,
      fun isFull => ⟨(keeps isFull).trans (full isFull).1, fun d idle => ?_⟩⟩
    rw [drains_serTick e]
    exact (full isFull).2 d idle
  | settle =>
    cases e
    refine ⟨host, cfg, werr, ?_, full⟩
    cases p with
    | clk => exact absurd (.inl ⟨rfl, rfl⟩) hm
    | berr | full => exact wrong
  | busErr =>
    rcases busErr_cases e with rfl | rfl
    · refine ⟨host, cfg, werr, ?_, full⟩
      cases p with
      | berr => rfl
      | clk | full => exact wrong
    · exact ⟨host, cfg, werr, wrong, full⟩

/-- A run of such moves leaves the host waiting (R226, R263). -/
theorem stillWaiting_run {ms : List Move} (hl : layoutOk s.cfg.layout = true) (unlimited : pollLimit s.cfg p = none)
    (todo : s.host.todo = pollMicro p :: rest) (wrong : s.pollWrong p = true) (hms : ∀ m ∈ ms, ¬ MayBring p s m)
    (e : runMoves ms s = .next t) : StillWaiting p s t :=
  runMoves_keeps (P := StillWaiting p s) (ok := fun m => ¬ MayBring p s m)
    (fun _ _ _ h hm e => stillWaiting_move hl unlimited todo h hm e) hms
    ⟨rfl, rfl, rfl, wrong, fun _ => ⟨rfl, fun _ h => h⟩⟩ e

/-! ### The wait under a limit -/

/-- Up to its limit a poll counts its wrong reads, and the limit's read raises the failure (R226). -/
theorem turns_poll_limited {n : Nat} (hl : layoutOk s.cfg.layout = true) (limit : pollLimit s.cfg p = some (n + 1))
    (todo : s.host.todo = pollMicro p :: rest) (start : s.host.polls = 0) (wrong : s.pollWrong p = true) :
    (∀ k ≤ n, hostTurns k s = { s with host := { s.host with polls := k } }) ∧
    hostTurns (n + 1) s =
      { s with host := { s.host with todo := [], polls := n }, res := .failed (.timingStall p) } := by
  have read (k : Nat) : State.hostTurn { s with host := { s.host with polls := k } } =
      State.pollOnce { s with host := { s.host with polls := k } } p false rest :=
    turn_poll_wrong _ hl todo (by cases p <;> exact wrong)
  have waits : ∀ k ≤ n, hostTurns k s = { s with host := { s.host with polls := k } } := by
    intro k hk
    induction k with
    | zero => change s = _; rw [← start]
    | succ k ih =>
      rw [hostTurns_add s k 1, ih (by omega)]
      refine (read k).trans ?_
      simp only [State.pollOnce, Bool.false_eq_true, if_false, limit]
      exact if_neg (by omega)
  refine ⟨waits, ?_⟩
  rw [hostTurns_add s n 1, waits n (Nat.le_refl n)]
  refine (read n).trans ?_
  simp only [State.pollOnce, Bool.false_eq_true, if_false, limit]
  exact if_pos (Nat.le_refl _)

/-! ### The statements -/

/-- Settles O33: agents leave the host its push and take at most words from the FIFO, so there stays room. -/
theorem noAgentFillsTheFifo : Obligations.NoAgentFillsTheFifo := by
  intro s t is v rest todo room agents e
  have kept : t.host = s.host ∧ t.cfg = s.cfg ∧ t.werr = s.werr ∧ ∃ k, t.fifo = s.fifo.drop k := by
    refine execAll_keeps (P := fun u => u.host = s.host ∧ u.cfg = s.cfg ∧ u.werr = s.werr ∧ ∃ k, u.fifo = s.fifo.drop k)
      ?_ agents ⟨rfl, rfl, rfl, 0, rfl⟩ e
    rintro u i u' ⟨host, cfg, werr, k, fifo⟩ agent step
    obtain ⟨host', cfg', werr', k', fifo'⟩ := agent_frame agent step
    exact ⟨host'.trans host, cfg'.trans cfg, werr'.trans werr, k + k', by rw [fifo', fifo, List.drop_drop]⟩
  obtain ⟨host, cfg, werr, k, fifo⟩ := kept
  have todo' : t.host.todo = .push v :: rest := host ▸ todo
  have room' : t.fifo.length < t.cfg.fifoDepth := by
    rw [cfg, fifo, List.length_drop]
    omega
  rw [turn_push t todo' room']
  exact ⟨todo', by cases rest <;> rfl, by cases rest <;> exact werr, k, fifo⟩

/-- Settles O34: no move of the run brings the value; and the two operations come to such a wait. -/
theorem pollsWithoutALimitWaitForEver : Obligations.PollsWithoutALimitWaitForEver := by
  refine ⟨fun s t ms p rest hl unlimited todo wrong e noSettle noDrain => ?_, fun s v hl unlimited full idle => ?_,
    fun s c id range divisor mode uf hl hc idle => ?_⟩
  · have cannot : ∀ m ∈ ms, ¬ MayBring p s m := by
      rintro m mem (⟨isClk, rfl⟩ | ⟨isFull, c, rfl, drains⟩)
      · exact noSettle isClk mem
      · rw [noDrain isFull c mem] at drains; cases drains
    have still := stillWaiting_run hl unlimited todo wrong cannot e
    exact ⟨still.host, still.wrong, still.werr, fun isFull => (still.full isFull).1⟩
  · have waits : s.startSeq (pushWordSeq v) = s.starting (pushWordSeq v) := by
      rw [pushWordSeq, startSeq_of_idle s idle]
      exact turn_poll_unlimited (s := s.starting [.pollFull, .push v]) (p := .full) hl rfl (decide_eq_true full) unlimited
    exact ⟨_, exec_pushWord s v, by rw [waits]; rfl, by rw [waits]; rfl⟩
  · obtain ⟨t, q, h1, h3, h4, v, k, issued, -, -, -, -, e5⟩ :=
      configure_toRestart (range := range) (divisor := divisor) (mode := mode) (uf := uf) hl hc idle
    exact ⟨t, issued, by rw [e5]; rfl, by rw [e5]; rfl⟩

/-- Settles O35: the limit's read ends the poll; then the poll of `PUSHWORD`, whose first read is its issue, and the
poll `CONFIGURE` comes to with its clock restarted. -/
theorem pollLimitsEndTheWait : Obligations.PollLimitsEndTheWait := by
  refine ⟨fun s p n rest hl limit todo start wrong => turns_poll_limited hl limit todo start wrong,
    fun s v n hl limit full idle => ?_, fun s c id range divisor mode uf n hl hc limit idle => ?_⟩
  · obtain ⟨waits, fails⟩ := turns_poll_limited (s := s.starting (pushWordSeq v)) (p := .full) hl limit rfl rfl
      (decide_eq_true full)
    have turns (k : Nat) : hostTurns k (s.startSeq (pushWordSeq v)) = hostTurns (k + 1) (s.starting (pushWordSeq v)) :=
      hostTurns_startSeq s idle _ _ k
    refine ⟨_, exec_pushWord s v, fun k hk => ?_, ?_⟩
    · rw [turns, waits (k + 1) hk]
      exact List.cons_ne_nil _ _
    · rw [turns, fails]
      exact ⟨rfl, rfl, rfl, rfl⟩
  · obtain ⟨t, q, h1, h3, h4, v, k, issued, off, -, -, -, e5⟩ :=
      configure_toRestart (range := range) (divisor := divisor) (mode := mode) (uf := uf) hl hc idle
    have fails := (turns_poll_limited (s := hostTurns 5 t) (p := .clk) (n := n) (rest := (afterRestart c range mode uf).tail)
      (by rw [e5]; exact off.cfg ▸ hl) (by rw [e5]; exact off.cfg ▸ limit) (by rw [e5]; rfl) (by rw [e5])
      (by rw [e5]; rfl)).2
    refine ⟨t, issued, ?_⟩
    rw [hostTurns_add, fails, e5]
    exact ⟨rfl, rfl, rfl, (off.ctl c).trans (withPwen_self s c false), off.rng c, off.flags.2.1⟩

end Sys2Proof.Machine
end

