-- ==== Sys2Proof/Proofs/Stream.lean ====
section
/-! The stream theorem (R149): an invariant of an enabled channel that sends a queue of words, kept by each tick of the
channel with one more bit on the line and by every other agent's step as it is. -/

namespace Sys2Proof.Machine

variable {s t : State} {c : ChanId} {w : List Word} {m : Nat}

/-! ### What a tick can change -/

/-- Whatever a tick does, it reaches its channel, the FIFO, the read-error flag and the count of free values; it keeps
the channel's control fields and mark, and without FIFO use the FIFO and the flag (R138). -/
theorem serTick_shape (e : exec (.serTick c) s = .next t) :
    ∃ x fifo rerr fresh, t = { s.setChan c x with fifo := fifo, rerr := rerr, fresh := fresh } ∧
      x.ctl = (s.chan c).ctl ∧ x.mark = (s.chan c).mark ∧
      ((s.chan c).ctl.usef = false → fifo = s.fifo ∧ rerr = s.rerr) := by
  rcases serTick_cases e with rfl | ⟨-, rfl⟩ | ⟨-, tick⟩
  · exact ⟨t.chan c, t.fifo, t.rerr, t.fresh, by rw [setChan_chan_self], rfl, rfl, fun _ => ⟨rfl, rfl⟩⟩
  · exact ⟨{ s.chan c with out := Config.freeLevel s.fresh }, s.fifo, s.rerr, s.fresh + 1, by cases c <;> rfl, rfl, rfl,
      fun _ => ⟨rfl, rfl⟩⟩
  · rcases tick_cases s c tick with
      ⟨-, rfl⟩ | ⟨-, dry, rfl⟩ | ⟨-, -, v, rest, head, rfl⟩ | ⟨-, -, v, -, rfl⟩ | ⟨-, -, -, rfl⟩
    · exact ⟨(s.chan c).shift, s.fifo, s.rerr, s.fresh, by cases c <;> rfl, rfl, rfl, fun _ => ⟨rfl, rfl⟩⟩
    · refine ⟨(s.chan c).underrun, s.fifo, true, s.fresh, by cases c <;> rfl, rfl, rfl, fun unfed => ?_⟩
      rw [wordSource_of_data s c unfed] at dry
      cases dry
    · refine ⟨((s.chan c).loadFifo v).shift, rest, s.rerr, s.fresh, by cases c <;> rfl, rfl, rfl, fun unfed => ?_⟩
      rw [wordSource_of_data s c unfed] at head
      cases head
    · exact ⟨((s.chan c).loadLast v).shift, s.fifo, s.rerr, s.fresh, by cases c <;> rfl, rfl, rfl,
        fun _ => ⟨rfl, rfl⟩⟩
    · exact ⟨(s.chan c).loadDat.shift, s.fifo, s.rerr, s.fresh, by cases c <;> rfl, rfl, rfl, fun _ => ⟨rfl, rfl⟩⟩

/-! ### Steps that do not concern a channel -/

/-- `t` has the channel `c` of `s` and all else its ticks depend on or flag. -/
structure SameLine (c : ChanId) (s t : State) : Prop where
  chan : t.chan c = s.chan c
  other : (t.chan (otherChan c)).ctl = (s.chan (otherChan c)).ctl
  clock : t.clockRuns = s.clockRuns
  fifo : t.fifo = s.fifo
  rerr : t.rerr = s.rerr

/-- And the host, its last answer and the parameters are the same too. -/
structure SameFor (c : ChanId) (s t : State) : Prop extends SameLine c s t where
  cfg : t.cfg = s.cfg
  host : t.host = s.host
  res : t.res = s.res

/-- The other channel's tick, that channel without FIFO use. -/
theorem sameFor_tick_other (unfed : (s.chan (otherChan c)).ctl.usef = false)
    (e : exec (.serTick (otherChan c)) s = .next t) : SameFor c s t := by
  obtain ⟨x, fifo, rerr, fresh, rfl, ctl, -, kept⟩ := serTick_shape e
  obtain ⟨rfl, rfl⟩ := kept unfed
  refine ⟨⟨?_, ?_, ?_, ?_, ?_⟩, ?_, ?_, ?_⟩
  case refine_2 => rw [← ctl]; cases c <;> rfl
  all_goals cases c <;> rfl

/-- Any agent's step but the channel's own tick, the other channel without FIFO use. -/
theorem sameFor_of_agent {i : Instr} (agent : i.agent ≠ .host) (notOwn : i ≠ .serTick c)
    (unfed : (s.chan (otherChan c)).ctl.usef = false) (e : exec i s = .next t) : SameFor c s t := by
  rcases agent_cases agent with ⟨d, rfl⟩ | rfl | rfl
  · rcases eq_or_eq_other c d with rfl | rfl
    · exact absurd rfl notOwn
    · exact sameFor_tick_other unfed e
  · cases e
    exact ⟨⟨by cases c <;> rfl, by cases c <;> rfl, rfl, rfl, rfl⟩, rfl, rfl, rfl⟩
  · rcases busErr_cases e with rfl | rfl
    · exact ⟨⟨by cases c <;> rfl, by cases c <;> rfl, rfl, rfl, rfl⟩, rfl, rfl, rfl⟩
    · exact ⟨⟨rfl, rfl, rfl, rfl, rfl⟩, rfl, rfl, rfl⟩

theorem wsCfg_congr (ctl : (t.chan c).ctl = (s.chan c).ctl) (rng : (t.chan c).rng = (s.chan c).rng)
    (other : (t.chan (otherChan c)).ctl = (s.chan (otherChan c)).ctl) (h : WsCfg s c) : WsCfg t c := by
  obtain ⟨h1, h2, h3, h4, h5, h6, h7, h8⟩ := h
  constructor <;> simp only [ctl, rng, other] <;> assumption

/-! ### The sending channel -/

/-- The channel, enabled in state `s0` or as it is there, has sent the first `m` bits of the words `w` and then zeros:
the FIFO has lost a word per slot begun, the slot in hand holds its word, and past the last word the underrun is
flagged (R139, R141, R142, R149). -/
structure Sending (s0 : State) (c : ChanId) (w : List Word) (m : Nat) (s : State) : Prop where
  on : (s.chan c).ctl.pwen = true
  ws : WsCfg s c
  clock : s.clockRuns = true
  fifo : s.fifo = w.drop ((m + 31) / 32)
  tx : (s.chan c).tx = (s0.chan c).tx ++ (List.range m).map (bitAt w)
  start : m = 0 → (s.chan c).pos = (s.chan c).len
  slot : 0 < m → m ≤ 32 * w.length → (s.chan c).pos = (m - 1) % 32 + 1 ∧ (s.chan c).len = 32 ∧
    (s.chan c).sr = wordAt w ((m - 1) / 32) ∧ (s.chan c).sta = true
  within : m ≤ 32 * w.length → (s.chan c).gapo = (s0.chan c).gapo ∧ s.rerr = s0.rerr
  past : 32 * w.length < m → (s.chan c).pos = (s.chan c).len ∧ (s.chan c).gapo = true ∧ s.rerr = true ∧
    (s.chan c).sta = false ∧ (s.chan c).out = false

namespace Sending

variable {s0 : State}

theorem mayTick (h : Sending s0 c w m s) : MayTick s c := ⟨h.on, h.ws.mode, h.clock, fun _ => h.ws⟩

theorem congr (h : Sending s0 c w m s) (same : SameLine c s t) : Sending s0 c w m t := by
  obtain ⟨chan, other, clock, fifo, rerr⟩ := same
  obtain ⟨on, ws, run, queue, tx, start, slot, within, past⟩ := h
  constructor
  case ws => exact wsCfg_congr (by rw [chan]) (by rw [chan]) other ws
  case clock => rw [clock]; exact run
  all_goals simpa only [chan, fifo, rerr]

/-- At the end of a word, and past the last, the slot is idle. -/
theorem idle (h : Sending s0 c w m s) (atEnd : m % 32 = 0 ∨ 32 * w.length < m) : (s.chan c).pos = (s.chan c).len := by
  by_cases past : 32 * w.length < m
  · exact (h.past past).1
  · rcases Nat.eq_zero_or_pos m with zero | pos
    · exact h.start zero
    · obtain ⟨pos, len, -, -⟩ := h.slot pos (by omega)
      omega

/-- The bits on the line with one more. -/
theorem tx_succ (h : Sending s0 c w m s) :
    (s.chan c).tx ++ [bitAt w m] = (s0.chan c).tx ++ (List.range (m + 1)).map (bitAt w) := by
  rw [h.tx, List.range_succ, List.map_append, List.append_assoc]
  rfl

/-- The invariant after a tick, from the channel, the FIFO and the flag it leaves. -/
theorem of_tick (h : Sending s0 c w m s) {y : Chan} {fifo : List Word} {rerr : Bool} (ctl : y.ctl = (s.chan c).ctl)
    (rng : y.rng = (s.chan c).rng) (queue : fifo = w.drop ((m + 1 + 31) / 32))
    (tx : y.tx = (s.chan c).tx ++ [bitAt w m])
    (slot : m < 32 * w.length → y.pos = m % 32 + 1 ∧ y.len = 32 ∧ y.sr = wordAt w (m / 32) ∧ y.sta = true)
    (within : m < 32 * w.length → y.gapo = (s.chan c).gapo ∧ rerr = s.rerr)
    (past : 32 * w.length ≤ m → y.pos = y.len ∧ y.gapo = true ∧ rerr = true ∧ y.sta = false ∧ y.out = false) :
    Sending s0 c w (m + 1) { s.setChan c y with fifo := fifo, rerr := rerr } := by
  have chan : State.chan { s.setChan c y with fifo := fifo, rerr := rerr } c = y := by cases c <;> rfl
  have other : State.chan { s.setChan c y with fifo := fifo, rerr := rerr } (otherChan c) = s.chan (otherChan c) := by
    cases c <;> rfl
  refine ⟨?_, ?_, ?_, queue, ?_, fun zero => absurd zero (Nat.succ_ne_zero m), fun _ le => ?_, fun le => ?_, fun lt => ?_⟩
  · rw [chan, ctl]; exact h.on
  · exact wsCfg_congr (by rw [chan, ctl]) (by rw [chan, rng]) (by rw [other]) h.ws
  · rw [← h.clock]; cases c <;> rfl
  · rw [chan, tx, h.tx_succ]
  · rw [chan, Nat.add_sub_cancel]
    exact slot le
  · obtain ⟨gapo, flag⟩ := within le
    obtain ⟨gapo0, flag0⟩ := h.within (by omega)
    exact ⟨by rw [chan, gapo, gapo0], flag.trans flag0⟩
  · rw [chan]
    exact past (by omega)

/-- The word of the slot a tick falls into sends the tick's bit. -/
theorem bitAt_eq (h : m % 32 = k) : bitAt w m = (wordAt w (m / 32)).getLsbD (31 - k) := by
  rw [bitAt, wordIndex, h]

/-- Without inversion the level is the bit (R145). -/
theorem level (h : Sending s0 c w m s) (bit : Bool) : (bit ^^ (s.chan c).ctl.pola) = bit := by
  rw [h.ws.pola, Bool.xor_false]

/-- A tick at the end of a word loads the next one (R139). -/
theorem tick_load (h : Sending s0 c w m s) (more : m < 32 * w.length) (atEnd : m % 32 = 0) :
    ∃ t, exec (.serTick c) s = .next t ∧ Sending s0 c w (m + 1) t := by
  have inside : m / 32 < w.length := by omega
  have head : s.fifo = wordAt w (m / 32) :: w.drop ((m + 1 + 31) / 32) := by
    rw [h.fifo, show (m + 31) / 32 = m / 32 by omega, show (m + 1 + 31) / 32 = m / 32 + 1 by omega,
      List.drop_eq_getElem_cons inside]
    simp [wordAt, inside]
  have load := tick_fifo (h.idle (.inl atEnd)) h.ws.usef head (by rw [h.ws.rng]; decide)
  refine ⟨_, (exec_serTick_of_mayTick h.mayTick).trans load, ?_⟩
  refine h.of_tick rfl rfl rfl ?_
    (fun _ => ⟨by rw [atEnd]; rfl, by simp [Chan.shift, Chan.emit, Chan.loadFifo, h.ws.rng], rfl, rfl⟩)
    (fun _ => ⟨rfl, setChan_rerr ..⟩) (fun le => absurd more (by omega))
  rw [bitAt_eq atEnd]
  exact congrArg (fun b => (s.chan c).tx ++ [b]) (h.level _)

/-- A tick inside a word shifts its next bit out (R142). -/
theorem tick_shift (h : Sending s0 c w m s) (more : m < 32 * w.length) (inside : m % 32 ≠ 0) :
    ∃ t, exec (.serTick c) s = .next t ∧ Sending s0 c w (m + 1) t := by
  obtain ⟨pos, len, sr, sta⟩ := h.slot (by omega) (by omega)
  rw [show (m - 1) % 32 + 1 = m % 32 by omega] at pos
  rw [show (m - 1) / 32 = m / 32 by omega] at sr
  have shift := tick_inside s c (by omega)
  refine ⟨_, (exec_serTick_of_mayTick h.mayTick).trans shift, ?_⟩
  refine h.of_tick (y := (s.chan c).shift) (fifo := (s.setChan c (s.chan c).shift).fifo) rfl rfl ?_ ?_
    (fun _ => ⟨congrArg (· + 1) pos, len, sr, sta⟩) (fun _ => ⟨rfl, setChan_rerr ..⟩) (fun le => absurd more (by omega))
  · rw [setChan_fifo, h.fifo, show (m + 31) / 32 = (m + 1 + 31) / 32 by omega]
  · have bit : (s.chan c).slotBit = bitAt w m := by
      rw [bitAt_eq (k := (s.chan c).pos) pos.symm, Chan.slotBit, sr, decide_eq_true (by omega), Bool.true_and]
    rw [← bit]
    exact congrArg (fun b => (s.chan c).tx ++ [b]) (h.level _)

/-- A tick past the last word underruns (R141). -/
theorem tick_underrun (h : Sending s0 c w m s) (drained : 32 * w.length ≤ m) :
    ∃ t, exec (.serTick c) s = .next t ∧ Sending s0 c w (m + 1) t := by
  have idle : (s.chan c).pos = (s.chan c).len := h.idle (by omega)
  have empty (k : Nat) (hk : m ≤ k) : w.drop ((k + 31) / 32) = [] := List.drop_eq_nil_of_le (by omega)
  have dry := tick_dry idle h.ws.usef (h.fifo.trans (empty m (Nat.le_refl m))) (.inl h.ws.rptl)
  refine ⟨_, (exec_serTick_of_mayTick h.mayTick).trans dry, ?_⟩
  have silence : ((s.chan c).ctl.sbit ^^ (s.chan c).ctl.pola) = false := by rw [h.level, h.ws.sbit]
  refine h.of_tick (y := (s.chan c).underrun) (fifo := (s.setChan c (s.chan c).underrun).fifo) rfl rfl ?_ ?_
    (fun more => absurd drained (by omega)) (fun more => absurd drained (by omega))
    (fun _ => ⟨idle, rfl, rfl, rfl, silence⟩)
  · rw [setChan_fifo, h.fifo, empty m (Nat.le_refl m), empty (m + 1) (Nat.le_succ m)]
  · rw [bitAt_of_ge drained]
    exact congrArg (fun b => (s.chan c).tx ++ [b]) silence

/-- Each tick of the channel sends one more bit. -/
theorem tick (h : Sending s0 c w m s) : ∃ t, exec (.serTick c) s = .next t ∧ Sending s0 c w (m + 1) t := by
  by_cases more : m < 32 * w.length
  · by_cases atEnd : m % 32 = 0
    · exact h.tick_load more atEnd
    · exact h.tick_shift more atEnd
  · exact h.tick_underrun (by omega)

/-- `n` ticks in a row run and send `n` more bits. -/
theorem ticks (h : Sending s0 c w m s) (n : Nat) :
    ∃ t, Machine.ticks c n s = .next t ∧ Sending s0 c w (m + n) t := by
  induction n generalizing m s with
  | zero => exact ⟨s, rfl, h⟩
  | succ n ih =>
    obtain ⟨u, step, hu⟩ := h.tick
    obtain ⟨t, run, ht⟩ := ih hu
    refine ⟨t, ?_, by rwa [show m + (n + 1) = m + 1 + n by omega]⟩
    rw [Machine.ticks, List.replicate_succ, execAll, step]
    exact run

/-- In any run of agents' steps each tick of the channel sends one more bit, and no other step disturbs it. -/
theorem run (h : Sending s0 c w m s) {is : List Instr} (agents : ∀ i ∈ is, i.agent ≠ .host)
    (e : execAll is s = .next t) : Sending s0 c w (m + is.count (.serTick c)) t := by
  induction is generalizing m s with
  | nil => cases e; exact h
  | cons i is ih =>
    have rest : ∀ j ∈ is, j.agent ≠ .host := fun j hj => agents j (List.mem_cons_of_mem i hj)
    simp only [execAll] at e
    by_cases own : i = .serTick c
    · subst own
      obtain ⟨u, step, hu⟩ := h.tick
      rw [step] at e
      rw [List.count_cons_self, show m + (is.count (.serTick c) + 1) = m + 1 + is.count (.serTick c) by omega]
      exact ih hu rest e
    · rw [List.count_cons_of_ne own]
      cases step : exec i s with
      | next u =>
        rw [step] at e
        exact ih (h.congr (sameFor_of_agent (agents i List.mem_cons_self) own h.ws.other step).toSameLine) rest e
      | fault f => cases f
      | refused r => simp [step] at e

end Sending

/-! ### The write that enables the channel -/

theorem Rewritten.clockRuns {q : State} {now : ChanId → CtlChan} (h : Rewritten s q now) :
    q.clockRuns = s.clockRuns := by
  rw [State.clockRuns, h.cm]
  rfl

/-- The enable bit is no part of `WSCFG` (R12). -/
theorem Rewritten.wsCfg {q : State} {b : Bool} (h : Rewritten s q (withPwen s c b)) (ws : WsCfg s c) : WsCfg q c := by
  have own := (h.ctl c).trans (withPwen_self s c b)
  have other := (h.ctl (otherChan c)).trans (withPwen_other s c b)
  obtain ⟨h1, h2, h3, h4, h5, h6, h7, h8⟩ := ws
  constructor <;> simp only [own, other, h.rng c] <;> assumption

/-- A ready channel whose enable bit a host step sets begins to send the queued words. -/
theorem sending_of_enabled {q : State} (ready : ReadyToSend s c)
    (enabled : Rewritten s q (withPwen s c true)) :
    Sending s c s.fifo 0 q := by
  obtain ⟨ws, off, idle, clock⟩ := ready
  obtain ⟨n, chan⟩ := enabled.chan c
  rw [withPwen_self] at chan
  obtain ⟨pos, len, -⟩ := afterCtl_slot_of_kept s.cfg.disableAborts n (now := { (s.chan c).ctl with pwen := true }) (.inl off)
  obtain ⟨fifo, -, -, rerr, -⟩ := enabled.flags
  obtain ⟨-, tx, gapo⟩ := enabled.kept c
  refine ⟨by rw [chan]; rfl, enabled.wsCfg ws, enabled.clockRuns.trans clock, fifo, ?_, fun _ => ?_, nofun,
    fun _ => ⟨gapo, rerr⟩, nofun⟩
  · rw [tx]; exact (List.append_nil _).symm
  · rw [chan, pos, len]; exact idle

/-- The write of `CTL` with the channel's enable bit set over the word read. -/
theorem writeCtl_enables (hl : layoutOk s.cfg.layout = true) :
    ∃ q, Rewritten s q (withPwen s c true) ∧
      s.writeCtl (s.readCtl ||| mask (s.cfg.layout.ctlBits c).pwen) = { q with lastWr := some .ctl } := by
  refine writeCtl_rewrites (fun d => ?_) ?_
  · rw [chanFields_or_pwen c hl, ctlFields_readCtl s hl, chanFields_ctlFields]
    rfl
  · rw [clrf_or_pwen c hl, ctlFields_readCtl s hl]
    rfl

/-- Settles O29: the invariant `Sending` holds of no bits after the write, and counts the ticks. -/
theorem enabledChannelSendsTheQueuedStream : Obligations.EnabledChannelSendsTheQueuedStream := by
  intro s c hl ready
  obtain ⟨q, enabled, write⟩ := writeCtl_enables (s := s) (c := c) hl
  have begun : Sending s c s.fifo 0 (State.answer { q with lastWr := some .ctl } .done) :=
    (sending_of_enabled ready enabled).congr
      ⟨by cases c <;> rfl, by cases c <;> rfl, rfl, rfl, rfl⟩
  refine ⟨_, (exec_wrCtl s _).trans (by rw [write]), fun m => ?_, fun is u agents e => ?_⟩
  · obtain ⟨t, run, -⟩ := begun.ticks m
    exact ⟨t, run⟩
  · have sent := begun.run agents e
    rw [Nat.zero_add] at sent
    intro m n
    refine ⟨sent.tx, sent.fifo, fun all => ⟨?_, ?_, fun some => ?_⟩, fun more => ?_, sent.within⟩
    · exact sent.idle (.inl (by omega))
    · rw [sent.fifo]
      exact List.drop_eq_nil_of_le (by omega)
    · exact (sent.slot (by omega) (by omega)).2.2.2
    · obtain ⟨-, gapo, rerr, sta, out⟩ := sent.past more
      exact ⟨gapo, rerr, sta, out⟩

end Sys2Proof.Machine
end

