-- ==== Sys2Proof/Proofs/PushFrame.lean ====
section
/-! `PUSHFRAME` puts its frame on the line (R210, R211, R215): what holds of the channel while it is disabled and while it
sends, the stages the host passes through, and that every move of host or agents leads from a stage to a stage. -/

namespace Sys2Proof.Machine

/-! ### Runs of moves -/

theorem runMoves_append {ms ms' : List Move} {s t : State} (h : runMoves ms s = .next t) :
    runMoves (ms ++ ms') s = runMoves ms' t := by
  induction ms generalizing s with
  | nil => cases h; rfl
  | cons m ms ih =>
    simp only [List.cons_append, runMoves] at h ⊢
    cases hm : m.take s with
    | next u => rw [hm] at h; exact ih h
    | fault f => cases f
    | refused r => simp [hm] at h

theorem runMoves_hosts (k : Nat) (s : State) : runMoves (List.replicate k .host) s = .next (hostTurns k s) := by
  induction k generalizing s with
  | zero => rfl
  | succ k ih => exact ih s.hostTurn

/-! ### The steps still to take -/

/-- What is left of `PUSHFRAME` when the channel has been disabled. -/
def clearSteps : List Micro := [.readCtl, .setClrf, .latch]

/-- What is left of it when the hold is over. -/
def stopSteps (c : ChanId) : List Micro := .readCtl :: .clearPwen c :: clearSteps

/-- What is left of it when the channel has been enabled. -/
def holdSteps (c : ChanId) (n : Nat) : List Micro := .awaitTicks c (72 * n) :: stopSteps c

/-- What is left of it when the frame has been pushed. -/
def enableSteps (c : ChanId) (n : Nat) : List Micro := .readCtl :: .setPwen c :: holdSteps c n

theorem frameSeq_eq (c : ChanId) (F : List Word) (n : Nat) : frameSeq c F n = pushFifoSeq F ++ enableSteps c n := by
  simp [frameSeq, enableSeq, disableSeq, clearFifoSeq, enableSteps, holdSteps, stopSteps, clearSteps]

/-! ### The channel disabled -/

variable {s0 s t : State} {c : ChanId} {F fifo : List Word} {m n : Nat} {todo : List Micro} {held : Bool}

/-- The channel is disabled and admitted, the clock runs, and `m` bits of the frame's stream have been sent since `s0`. -/
structure Off (s0 : State) (c : ChanId) (F : List Word) (m : Nat) (t : State) : Prop where
  inv : Inv t
  cfg : t.cfg = s0.cfg
  ws : WsCfg t c
  clock : t.clockRuns = true
  off : (t.chan c).ctl.pwen = false
  tx : (t.chan c).tx = (s0.chan c).tx ++ (List.range m).map (bitAt F)
  within : m ≤ 32 * F.length → (t.chan c).gapo = (s0.chan c).gapo ∧ t.rerr = s0.rerr
  past : 32 * F.length < m → (t.chan c).gapo = true ∧ t.rerr = true

namespace Off

theorem congr (h : Off s0 c F m s) (inv : Inv t) (cfg : t.cfg = s.cfg) (chan : t.chan c = s.chan c)
    (other : (t.chan (otherChan c)).ctl = (s.chan (otherChan c)).ctl) (clock : t.clockRuns = s.clockRuns)
    (rerr : t.rerr = s.rerr) : Off s0 c F m t := by
  obtain ⟨-, cfg0, ws, run, off, tx, within, past⟩ := h
  refine ⟨inv, cfg.trans cfg0, wsCfg_congr (by rw [chan]) (by rw [chan]) other ws, clock.trans run, ?_, ?_, ?_, ?_⟩
  all_goals simpa only [chan, rerr]

/-- An agent's step changes nothing for a disabled channel. -/
theorem sameFor (h : Off s0 c F m s) {i : Instr} (agent : i.agent ≠ .host) (e : exec i s = .next t) :
    SameFor c s t := by
  by_cases own : i = .serTick c
  · subst own
    have same : exec (.serTick c) s = .next s := execSerTick_off s c (.inl h.off)
    cases same.symm.trans e
    exact ⟨⟨rfl, rfl, rfl, rfl, rfl⟩, rfl, rfl, rfl⟩
  · exact sameFor_of_agent agent own h.ws.other e

/-- A disabled channel's slot is idle where disabling aborts it (R122). -/
theorem idle (h : Off s0 c F m s) (aborts : s0.cfg.disableAborts = true) : (s.chan c).pos = (s.chan c).len := by
  obtain ⟨pos, len⟩ := (inv_chan h.inv c).off_idle h.off (h.cfg ▸ aborts)
  rw [pos, len]

theorem ready (h : Off s0 c F m s) (aborts : s0.cfg.disableAborts = true) : ReadyToSend s c :=
  ⟨h.ws, h.off, h.idle aborts, h.clock⟩

end Off

/-- The channel is disabled, and the host has the steps `todo` before it; where `held` is set it holds the control word
as it stands. -/
structure Idle (s0 : State) (c : ChanId) (F : List Word) (m : Nat) (fifo : List Word) (todo : List Micro) (held : Bool)
    (t : State) : Prop extends Off s0 c F m t where
  fifo_eq : t.fifo = fifo
  todo_eq : t.host.todo = todo
  held_eq : held = true → t.host.v = t.readCtl

/-- The control word reads the same where the control fields are the same. -/
theorem readCtl_congr (cfg : t.cfg = s.cfg) (own : (t.chan c).ctl = (s.chan c).ctl)
    (other : (t.chan (otherChan c)).ctl = (s.chan (otherChan c)).ctl) : t.readCtl = s.readCtl := by
  have fields : t.ctlFields = s.ctlFields := by
    cases c
    · exact congrArg₂ (fun a b => CtlFields.mk a b false) own other
    · exact congrArg₂ (fun a b => CtlFields.mk b a false) own other
  rw [State.readCtl, State.readCtl, cfg, fields]

/-! ### The channel enabled -/

/-- The channel is sending, its place marked when it had sent nothing, and the host has the steps `todo` before it. -/
structure Running (s0 : State) (c : ChanId) (F : List Word) (m : Nat) (todo : List Micro) (held : Bool) (t : State) :
    Prop where
  inv : Inv t
  cfg : t.cfg = s0.cfg
  sending : Sending s0 c F m t
  mark : (t.chan c).mark = (s0.chan c).tx.length
  todo_eq : t.host.todo = todo
  held_eq : held = true → t.host.v = t.readCtl

/-- An operation keeps the invariant. -/
theorem inv_exec {i : Instr} (h : Inv s) (e : exec i s = .next t) : Inv t := inv_of_effect h (exec_effect e)

/-- Agents leave a stage with the channel disabled as it is. -/
theorem Idle.agent (h : Idle s0 c F m fifo todo held s) {i : Instr} (agent : i.agent ≠ .host) (e : exec i s = .next t) :
    Idle s0 c F m fifo todo held t ∧ t.res = s.res := by
  obtain ⟨⟨chan, other, clock, sameFifo, rerr⟩, cfg, host, res⟩ := h.toOff.sameFor agent e
  refine ⟨⟨h.toOff.congr (inv_exec h.inv e) cfg chan other clock rerr, sameFifo.trans h.fifo_eq, ?_, fun isHeld => ?_⟩, res⟩
  · rw [host]; exact h.todo_eq
  · rw [host, readCtl_congr cfg (by rw [chan]) other]
    exact h.held_eq isHeld

/-- The channel's tick sends one more bit of a running stage. -/
theorem Running.tick (h : Running s0 c F m todo held s) :
    ∃ t, exec (.serTick c) s = .next t ∧ Running s0 c F (m + 1) todo held t := by
  obtain ⟨t, e, sending⟩ := h.sending.tick
  obtain ⟨cfg, host, -, -, -, other, ctl, -⟩ := serTick_frame s c e
  obtain ⟨x, f, r, k, shape, -, mark, -⟩ := serTick_shape e
  refine ⟨t, e, inv_exec h.inv e, cfg.trans h.cfg, sending, ?_, by rw [host]; exact h.todo_eq, fun isHeld => ?_⟩
  · rw [← h.mark, ← mark, shape]
    cases c <;> rfl
  · rw [host, readCtl_congr cfg ctl (by rw [other])]
    exact h.held_eq isHeld

/-- Agents lead a running stage to one in which no fewer bits have been sent. -/
theorem Running.agent (h : Running s0 c F m todo held s) {i : Instr} (agent : i.agent ≠ .host)
    (e : exec i s = .next t) : ∃ m', m ≤ m' ∧ Running s0 c F m' todo held t := by
  by_cases own : i = .serTick c
  · subst own
    obtain ⟨u, step, running⟩ := h.tick
    cases step.symm.trans e
    exact ⟨m + 1, Nat.le_succ m, running⟩
  · obtain ⟨line, cfg, host, -⟩ := sameFor_of_agent agent own h.sending.ws.other e
    refine ⟨m, Nat.le_refl m, inv_exec h.inv e, cfg.trans h.cfg, h.sending.congr line, by rw [line.chan]; exact h.mark,
      by rw [host]; exact h.todo_eq, fun isHeld => ?_⟩
    rw [host, readCtl_congr cfg (by rw [line.chan]) line.other]
    exact h.held_eq isHeld

/-! ### The host's turns, the channel disabled -/

/-- A host turn that reaches the FIFO, the host and the records about it only. -/
theorem Idle.turn (h : Idle s0 c F m fifo todo held s) {host : HostSeq} {fifo' : List Word} {last : Option Reg}
    {res : Result} (turn : s.hostTurn = { s with host := host, fifo := fifo', lastWr := last, res := res })
    (held' : Bool) (holds : held' = true → host.v = s.readCtl) :
    Idle s0 c F m fifo' host.todo held' s.hostTurn := by
  have inv := inv_hostTurn h.inv
  rw [turn] at inv ⊢
  exact ⟨h.toOff.congr inv rfl (by cases c <;> rfl) (by cases c <;> rfl) rfl rfl, rfl, rfl, holds⟩

theorem Idle.turn_readCtl {step : Micro} {rest : List Micro}
    (h : Idle s0 c F m fifo (.readCtl :: step :: rest) held s) :
    Idle s0 c F m fifo (step :: rest) true s.hostTurn := by
  have turn := h.turn (fifo' := s.fifo) (last := s.lastWr) (res := s.res) (turns_readCtl s h.todo_eq).1 true fun _ => rfl
  rwa [h.fifo_eq] at turn

section Pushing

variable {pushed words : List Word} {w : Word}

theorem Idle.turn_poll (h : Idle s0 c F 0 pushed (pushFifoSeq (w :: words) ++ enableSteps c n) held s)
    (room : pushed.length < s0.cfg.fifoDepth) :
    Idle s0 c F 0 pushed (.push w :: (pushFifoSeq words ++ enableSteps c n)) false s.hostTurn := by
  have turn := h.turn (fifo' := s.fifo) (last := s.lastWr) (res := s.res)
    (turn_pollFull_room s (layoutOk_of_inv h.inv) h.todo_eq (by rw [h.fifo_eq, h.cfg]; exact room)) false nofun
  rwa [h.fifo_eq] at turn

theorem Idle.turn_push (h : Idle s0 c F 0 pushed (.push w :: (pushFifoSeq words ++ enableSteps c n)) held s)
    (room : pushed.length < s0.cfg.fifoDepth) :
    Idle s0 c F 0 (pushed ++ [w]) (pushFifoSeq words ++ enableSteps c n) false s.hostTurn := by
  have push := Machine.turn_push s h.todo_eq (by rw [h.fifo_eq, h.cfg]; exact room)
  rw [State.advance, if_neg (by simp [enableSteps])] at push
  have turn := h.turn (res := s.res) push false nofun
  rwa [h.fifo_eq] at turn

end Pushing

theorem Idle.turn_setClrf {rest : List Micro} {step : Micro}
    (h : Idle s0 c F m fifo (.setClrf :: step :: rest) true s) : Idle s0 c F m [] (step :: rest) false s.hostTurn := by
  have write := writeCtl_setClrf s (layoutOk_of_inv h.inv) (h.held_eq rfl) (low_of_inv h.inv)
  refine h.turn (host := { s.host with todo := step :: rest, polls := 0 }) (fifo' := []) (last := some .ctl)
    (res := s.res) ?_ false nofun
  rw [hostTurn_cons s h.todo_eq, State.micro, write]
  rfl

theorem Idle.turn_latch (h : Idle s0 c F m fifo [.latch] held s) :
    Idle s0 c F m fifo [] false s.hostTurn ∧ s.hostTurn.res = .done := by
  have latch := Machine.turn_latch s h.todo_eq
  have turn := h.turn (fifo' := s.fifo) (last := s.lastWr) (res := .done) latch false nofun
  rw [h.fifo_eq] at turn
  exact ⟨turn, by rw [latch]; rfl⟩

/-! ### The turns that enable and disable the channel -/

/-- The mark has no part in what the channel sends. -/
theorem Sending.marked (h : Sending s0 c F m s) : Sending s0 c F m (s.markEnable c) := by
  have chan : (s.markEnable c).chan c = { s.chan c with mark := (s.chan c).tx.length } := chan_setChan_self s c _
  have other : (s.markEnable c).chan (otherChan c) = s.chan (otherChan c) := chan_setChan_other s c _
  have clock : (s.markEnable c).clockRuns = s.clockRuns := by simp [State.markEnable, State.clockRuns]
  have fifo : (s.markEnable c).fifo = s.fifo := setChan_fifo s c _
  have rerr : (s.markEnable c).rerr = s.rerr := setChan_rerr s c _
  obtain ⟨on, ws, run, queue, tx, start, slot, within, past⟩ := h
  constructor
  case ws => exact wsCfg_congr (by rw [chan]) (by rw [chan]) (by rw [other]) ws
  case clock => rw [clock]; exact run
  all_goals simpa only [chan, fifo, rerr]

/-- What is sent is counted from any state with the same record and the same flags. -/
theorem Sending.rebase {s1 : State} (h : Sending s1 c F m s) (tx : (s1.chan c).tx = (s0.chan c).tx)
    (gapo : (s1.chan c).gapo = (s0.chan c).gapo) (rerr : s1.rerr = s0.rerr) : Sending s0 c F m s := by
  obtain ⟨on, ws, run, queue, sent, start, slot, within, past⟩ := h
  exact ⟨on, ws, run, queue, tx ▸ sent, start, slot, gapo ▸ rerr ▸ within, past⟩

/-- The write of `ENABLE` begins the stream and marks its place (R169, R213). -/
theorem Idle.turn_setPwen (h : Idle s0 c F 0 F (.setPwen c :: holdSteps c n) true s)
    (aborts : s0.cfg.disableAborts = true) : Running s0 c F 0 (holdSteps c n) false s.hostTurn := by
  obtain ⟨q, enabled, write⟩ := writeCtl_enables (s := s) (c := c) (layoutOk_of_inv h.inv)
  let u := State.markEnable { q with lastWr := some .ctl } c
  have turn : s.hostTurn = u.advance (holdSteps c n) := by
    rw [hostTurn_cons s h.todo_eq, State.micro, h.held_eq rfl, write]
  have noBits : (s.chan c).tx = (s0.chan c).tx := h.tx.trans (List.append_nil _)
  obtain ⟨gapo, rerr⟩ := h.within (Nat.zero_le _)
  have sending : Sending s0 c F 0 u := by
    have begun := sending_of_enabled (h.ready aborts) enabled
    rw [h.fifo_eq] at begun
    refine Sending.marked ((begun.rebase noBits gapo rerr).congr ?_)
    exact ⟨by cases c <;> rfl, by cases c <;> rfl, rfl, rfl, rfl⟩
  have mark : (u.chan c).mark = (s0.chan c).tx.length := by
    have tx : (q.chan c).tx = (s.chan c).tx := (enabled.kept c).2.1
    rw [← noBits, ← tx]
    cases c <;> rfl
  have cfg : u.cfg = s0.cfg := (markEnable_cfg _ c).trans (enabled.cfg.trans h.cfg)
  have inv := inv_hostTurn h.inv
  rw [turn] at inv ⊢
  refine ⟨inv, cfg, sending.congr ?_, ?_, rfl, nofun⟩
  · exact ⟨by cases c <;> rfl, by cases c <;> rfl, rfl, rfl, rfl⟩
  · rw [← mark]
    cases c <;> rfl

/-- A turn of a running stage that changes only where the host stands. -/
theorem Running.turn (h : Running s0 c F m todo held s) {host : HostSeq} (turn : s.hostTurn = { s with host := host })
    (held' : Bool) (holds : held' = true → host.v = s.readCtl) : Running s0 c F m host.todo held' s.hostTurn := by
  have inv := inv_hostTurn h.inv
  rw [turn] at inv ⊢
  refine ⟨inv, h.cfg, h.sending.congr ?_, ?_, rfl, holds⟩
  · exact ⟨by cases c <;> rfl, by cases c <;> rfl, rfl, rfl, rfl⟩
  · rw [← h.mark]
    cases c <;> rfl

/-- The ticks counted from the mark are the bits sent (R213). -/
theorem Running.ticksSinceEnable (h : Running s0 c F m todo held s) : s.ticksSinceEnable c = m := by
  rw [State.ticksSinceEnable, h.mark, h.sending.tx]
  simp

/-- A look at the hold goes on when enough bits have been sent, and otherwise waits (R213). -/
theorem Running.turn_await (h : Running s0 c F m (holdSteps c n) held s) :
    (72 * n ≤ m → Running s0 c F m (stopSteps c) false s.hostTurn) ∧ (m < 72 * n → s.hostTurn = s) := by
  have look := turn_awaitTicks s h.todo_eq
  rw [h.ticksSinceEnable] at look
  refine ⟨fun enough => ?_, fun few => ?_⟩
  · rw [if_pos enough] at look
    exact h.turn look false nofun
  · rwa [if_neg (by omega)] at look

theorem Running.turn_readCtl (h : Running s0 c F m (stopSteps c) held s) :
    Running s0 c F m (.clearPwen c :: clearSteps) true s.hostTurn :=
  h.turn (turns_readCtl s h.todo_eq).1 true fun _ => rfl

/-- The write of `DISABLE` ends the stream (R170). -/
theorem Running.turn_clearPwen (h : Running s0 c F m (.clearPwen c :: clearSteps) true s) :
    Idle s0 c F m s.fifo clearSteps false s.hostTurn := by
  obtain ⟨q, disabled, turn⟩ := Machine.turn_clearPwen (layoutOk_of_inv h.inv) (h.held_eq rfl) h.todo_eq
  obtain ⟨fifo, -, -, rerr, -⟩ := disabled.flags
  obtain ⟨-, tx, gapo⟩ := disabled.kept c
  have off : (q.chan c).ctl.pwen = false := by rw [disabled.ctl c, withPwen_self]
  have sent := h.sending
  have inv := inv_hostTurn h.inv
  rw [turn] at inv ⊢
  have qOff : Off s0 c F m q :=
    ⟨inv_same inv rfl rfl rfl rfl, disabled.cfg.trans h.cfg, disabled.wsCfg sent.ws, disabled.clockRuns.trans sent.clock,
      off, tx.trans sent.tx, fun le => ⟨gapo.trans (sent.within le).1, rerr.trans (sent.within le).2⟩,
      fun lt => ⟨gapo.trans (sent.past lt).2.1, rerr.trans (sent.past lt).2.2.1⟩⟩
  exact ⟨qOff.congr inv rfl (by cases c <;> rfl) (by cases c <;> rfl) rfl rfl, fifo, rfl, nofun⟩

/-! ### The stages of the operation -/

/-- Where `PUSHFRAME` stands: pushing word by word, enabling, holding while the bits go out, stopping, clearing the FIFO,
or returned, at least the frame's bits sent once the hold is over. -/
inductive Stage (s0 : State) (c : ChanId) (F : List Word) (n : Nat) (t : State) : Prop where
  | poll (pushed words : List Word) (all : pushed ++ words = F)
      (idle : Idle s0 c F 0 pushed (pushFifoSeq words ++ enableSteps c n) false t)
  | push (pushed : List Word) (w : Word) (words : List Word) (all : pushed ++ w :: words = F)
      (idle : Idle s0 c F 0 pushed (.push w :: (pushFifoSeq words ++ enableSteps c n)) false t)
  | enable (idle : Idle s0 c F 0 F (.setPwen c :: holdSteps c n) true t)
  | hold (m : Nat) (running : Running s0 c F m (holdSteps c n) false t)
  | stop (m : Nat) (enough : 72 * n ≤ m) (running : Running s0 c F m (stopSteps c) false t)
  | disable (m : Nat) (enough : 72 * n ≤ m) (running : Running s0 c F m (.clearPwen c :: clearSteps) true t)
  | clear (m : Nat) (enough : 72 * n ≤ m) (fifo : List Word) (idle : Idle s0 c F m fifo clearSteps false t)
  | empty (m : Nat) (enough : 72 * n ≤ m) (fifo : List Word) (idle : Idle s0 c F m fifo [.setClrf, .latch] true t)
  | latch (m : Nat) (enough : 72 * n ≤ m) (idle : Idle s0 c F m [] [.latch] false t)
  | returned (m : Nat) (enough : 72 * n ≤ m) (idle : Idle s0 c F m [] [] false t) (res : t.res = .done)

namespace Stage

/-- An agent's step leads from a stage to the same stage. -/
theorem agent (h : Stage s0 c F n s) {i : Instr} (agent : i.agent ≠ .host) (e : exec i s = .next t) :
    Stage s0 c F n t := by
  cases h with
  | poll pushed words all idle => exact .poll pushed words all (idle.agent agent e).1
  | push pushed w words all idle => exact .push pushed w words all (idle.agent agent e).1
  | enable idle => exact .enable (idle.agent agent e).1
  | hold m running =>
    obtain ⟨m', -, running'⟩ := running.agent agent e
    exact .hold m' running'
  | stop m enough running =>
    obtain ⟨m', le, running'⟩ := running.agent agent e
    exact .stop m' (enough.trans le) running'
  | disable m enough running =>
    obtain ⟨m', le, running'⟩ := running.agent agent e
    exact .disable m' (enough.trans le) running'
  | clear m enough fifo idle => exact .clear m enough fifo (idle.agent agent e).1
  | empty m enough fifo idle => exact .empty m enough fifo (idle.agent agent e).1
  | latch m enough idle => exact .latch m enough (idle.agent agent e).1
  | returned m enough idle res =>
    obtain ⟨idle', sameRes⟩ := idle.agent agent e
    exact .returned m enough idle' (sameRes.trans res)

variable (fits : F.length ≤ s0.cfg.fifoDepth) (aborts : s0.cfg.disableAborts = true)
include fits aborts

/-- A turn of the host leads from a stage to the same stage or the next. -/
theorem host (h : Stage s0 c F n s) : Stage s0 c F n s.hostTurn := by
  cases h with
  | poll pushed words all idle =>
    cases words with
    | nil =>
      rw [List.append_nil] at all
      subst all
      exact .enable idle.turn_readCtl
    | cons w words => exact .push pushed w words all (idle.turn_poll (by rw [← all] at fits; simp at fits; omega))
  | push pushed w words all idle =>
    exact .poll (pushed ++ [w]) words (by rw [← all]; simp)
      (idle.turn_push (by rw [← all] at fits; simp at fits; omega))
  | enable idle => exact .hold 0 (idle.turn_setPwen aborts)
  | hold m running =>
    by_cases enough : 72 * n ≤ m
    · exact .stop m enough (running.turn_await.1 enough)
    · rw [running.turn_await.2 (by omega)]
      exact .hold m running
  | stop m enough running => exact .disable m enough running.turn_readCtl
  | disable m enough running => exact .clear m enough _ running.turn_clearPwen
  | clear m enough fifo idle => exact .empty m enough fifo idle.turn_readCtl
  | empty m enough fifo idle => exact .latch m enough idle.turn_setClrf
  | latch m enough idle => exact .returned m enough idle.turn_latch.1 idle.turn_latch.2
  | returned m enough idle res =>
    rw [hostTurn_nil s idle.todo_eq]
    exact .returned m enough idle res

/-- Any move leads from a stage to a stage. -/
theorem move (h : Stage s0 c F n s) {mv : Move} (e : mv.take s = .next t) : Stage s0 c F n t := by
  cases mv with
  | host => cases e; exact h.host fits aborts
  | tick d => exact h.agent (i := .serTick d) nofun e
  | settle => exact h.agent (i := .cmSettle) nofun e
  | busErr => exact h.agent (i := .busErr) nofun e

/-- So does any run. -/
theorem run (h : Stage s0 c F n s) {ms : List Move} (e : runMoves ms s = .next t) : Stage s0 c F n t :=
  runMoves_keeps (ok := fun _ => True) (fun _ _ _ h _ e => h.move fits aborts e) (fun _ _ => trivial) h e

omit fits aborts in
/-- A stage with no step left is the return. -/
theorem returned_of_nil (h : Stage s0 c F n t) (nil : t.host.todo = []) :
    ∃ m, 72 * n ≤ m ∧ Idle s0 c F m [] [] false t ∧ t.res = .done := by
  cases h with
  | returned m enough idle res => exact ⟨m, enough, idle, res⟩
  | poll pushed words all idle =>
    have := idle.todo_eq.symm.trans nil
    simp [enableSteps] at this
  | push _ _ _ _ idle | enable idle | clear _ _ _ idle | empty _ _ _ idle | latch _ _ idle =>
    exact absurd (idle.todo_eq.symm.trans nil) (List.cons_ne_nil _ _)
  | hold _ running | stop _ _ running | disable _ _ running =>
    exact absurd (running.todo_eq.symm.trans nil) (List.cons_ne_nil _ _)

end Stage

/-! ### The run whose ticks all fall into the hold -/

/-- Two turns a word push the frame (R168). -/
theorem Idle.turns_push {pushed words : List Word} (fits : F.length ≤ s0.cfg.fifoDepth) (all : pushed ++ words = F)
    (h : Idle s0 c F 0 pushed (pushFifoSeq words ++ enableSteps c n) false s) :
    Idle s0 c F 0 F (enableSteps c n) false (hostTurns (2 * words.length) s) := by
  induction words generalizing pushed s with
  | nil =>
    rw [List.append_nil] at all
    exact all ▸ h
  | cons w words ih =>
    have room : pushed.length < s0.cfg.fifoDepth := by
      rw [← all] at fits
      simp at fits
      omega
    exact ih (by rw [← all]; simp) ((h.turn_poll room).turn_push room)

/-- `k` ticks in a row send `k` more bits of a running stage. -/
theorem Running.ticks (h : Running s0 c F m todo held s) (k : Nat) :
    ∃ t, runMoves (List.replicate k (.tick c)) s = .next t ∧ Running s0 c F (m + k) todo held t := by
  induction k generalizing m s with
  | zero => exact ⟨s, rfl, h⟩
  | succ k ih =>
    obtain ⟨u, step, running⟩ := h.tick
    obtain ⟨t, run, running'⟩ := ih running
    refine ⟨t, ?_, by rwa [show m + (k + 1) = m + 1 + k by omega]⟩
    rw [List.replicate_succ, runMoves, show (Move.tick c).take s = _ from step]
    exact run

/-- Six turns bring the host from the end of the hold to the return. -/
theorem Running.turns_return (h : Running s0 c F m (holdSteps c n) false s) (enough : 72 * n ≤ m) :
    Idle s0 c F m [] [] false (hostTurns 6 s) :=
  (((h.turn_await.1 enough).turn_readCtl.turn_clearPwen).turn_readCtl.turn_setClrf).turn_latch.1

/-! ### The statement -/

theorem exec_pushFrame {pixels : List Pixel} {b : Brightness} (inRange : brtInRange b = true)
    (fits : (encodeOf s.cfg pixels b).length ≤ s.cfg.fifoDepth) (idle : s.host.todo = []) :
    exec (.pushFrame c pixels b) s = .next { s with
      enc := { s.enc with pix := pixels, brt := b }
      host := { s.host with todo := frameSeq c (encodeOf s.cfg pixels b) pixels.length, polls := 0 } } := by
  simp only [exec, execPushFrame, if_pos inRange, idle, List.append_nil]
  exact if_neg (by omega)

/-- The issue of the operation by a ready channel with an empty FIFO is its first stage. -/
theorem idle_pushFrame (inv : Inv s) (ready : ReadyToSend s c) (empty : s.fifo = []) (enc : Enc) (host : HostSeq)
    (todo : host.todo = pushFifoSeq F ++ enableSteps c n) :
    Idle s c F 0 [] (pushFifoSeq F ++ enableSteps c n) false { s with enc := enc, host := host } := by
  have off : Off s c F 0 s :=
    ⟨inv, rfl, ready.ws, ready.clock, ready.off, (List.append_nil _).symm, fun _ => ⟨rfl, rfl⟩, nofun⟩
  exact ⟨off.congr (inv_same inv rfl rfl rfl rfl) rfl (by cases c <;> rfl) (by cases c <;> rfl) rfl rfl, empty, todo,
    nofun⟩

/-- Settles O59: every run leads from stage to stage, and the only stage without a step left is the return; in the
straight run each stage is reached in its turn. -/
theorem pushFramePutsItsFrameOnTheLine : Obligations.PushFramePutsItsFrameOnTheLine := by
  intro s c pixels b inv ready empty idle aborts inRange short
  have len : (encodeOf s.cfg pixels b).length = frameLenOf pixels.length := (encodeOf_spec s.cfg pixels b).1
  generalize hF : encodeOf s.cfg pixels b = F at len
  have fits : F.length ≤ s.cfg.fifoDepth := len ▸ short
  have issued := exec_pushFrame (c := c) inRange (hF ▸ fits) idle
  rw [hF] at issued
  have first := idle_pushFrame (n := pixels.length) inv ready empty { s.enc with pix := pixels, brt := b }
    { s.host with todo := frameSeq c F pixels.length, polls := 0 } (frameSeq_eq c F pixels.length)
  refine ⟨_, F, issued, rfl, fun ms e run returned => ?_, fun m enough => ?_⟩
  · obtain ⟨m, enough, last, res⟩ := ((Stage.poll [] F rfl first).run fits aborts run).returned_of_nil returned
    have chan := inv_chan last.inv c
    exact ⟨m, enough, res, last.tx, last.ready aborts, last.fifo_eq, chan.off_low last.off last.ws.pola,
      chan.off_quiet last.off, last.past, last.within⟩
  · have enabled := ((first.turns_push fits rfl).turn_readCtl).turn_setPwen aborts
    obtain ⟨u, ticked, running⟩ := enabled.ticks m
    rw [Nat.zero_add] at running
    have last := running.turns_return enough
    refine ⟨_, ?_, last.todo_eq, last.tx⟩
    rw [List.append_assoc, runMoves_append (runMoves_hosts _ _), hostTurns_add]
    exact (runMoves_append ticked).trans (runMoves_hosts 6 u)

end Sys2Proof.Machine
end
